-- ==== Sys2Proof/Word.lean ====
section
/-!
DEFINITION. The machine's word and byte types and the operand sizes (spec/00_scope.md R8, R10, R26's `ALL1`).
-/

namespace Sys2Proof

/-- A word: "the machine's native fixed-width unsigned integer unit" (R8, R14), 64 bits wide (R6 `XLEN`). -/
abbrev Word := BitVec 64

/-- One element of Memory (R35). -/
abbrev Byte := BitVec 8

/-- `ALL1 = 2^64 - 1` (R8), the only value hardware's flag updates put into RC (R26). -/
abbrev allOnes : Word := 0xFFFFFFFFFFFFFFFF#64

/-- The operand size an instruction declares, one of 1, 2, 4 and 8 bytes (R10, R103). -/
inductive Size where
  | one
  | two
  | four
  | eight
deriving DecidableEq, Repr

/-- `s`, the size as a number of bytes (R10). -/
def Size.bytes : Size → Nat
  | .one => 1
  | .two => 2
  | .four => 4
  | .eight => 8

/-- `W = 8*s`, the size as a number of bits (R10). -/
def Size.bits : Size → Nat
  | .one => 8
  | .two => 16
  | .four => 32
  | .eight => 64

/-- `m = 2^W - 1`, the mask of a size (R10). -/
def Size.mask : Size → Nat
  | .one => 0xFF
  | .two => 0xFFFF
  | .four => 0xFFFFFFFF
  | .eight => 0xFFFFFFFFFFFFFFFF

end Sys2Proof
end

