-- ==== Sys2Proof/Syntax.lean ====
section
/-!
DEFINITION. The decoded form of an instruction (spec/30_encoding.md R105, R106, R111, R112, R120):
registers, sub-parameters, calculated operands, parameters, and one constructor of `Instr` per row of
spec/opcode_table.json; and the names that an encoding gives numbers to (`Op`, `ParamType`, `CalcPart`).  Every instruction carries its one declared operand size (R103), the
parameterless ones too ("the decoder returns it").
-/

namespace Sys2Proof

/-- A register of the register file (spec/10_state.md R20 to R22). -/
inductive Reg where
  | gpr (n : Fin 16)
  | rip
  | rsp
  | rsip
  | rc
deriving DecidableEq, Repr

/-- A sub-parameter of a calculated operand: a register read directly or a constant, "never dereferenced, never
the stack and never itself calculated" (R112). -/
inductive Sub where
  | sreg (r : Reg)
  | slit (v : Word)
deriving DecidableEq, Repr

/-- The flag of a calculated operand that says whether the offset is added or subtracted (R111 `SGN`). -/
inductive Sign where
  | plus
  | minus
deriving DecidableEq, Repr

/-- The components of a calculated operand (R106): the base always stands, the other three may be absent. -/
structure Calc where
  base : Sub
  index : Option Sub
  scale : Option Sub
  offset : Option Sub
  sign : Sign
deriving DecidableEq, Repr

/-- A parameter: the seven forms of R105. -/
inductive Param where
  | reg (r : Reg)
  | rega (r : Reg)
  | lit (v : Word)
  | lita (v : Word)
  | stk
  | calca (c : Calc)
  | calcl (c : Calc)
deriving DecidableEq, Repr

/-- What an instruction does with a parameter (R120): `s` read, `d` written, `x` both. -/
inductive Role where
  | s
  | d
  | x
deriving DecidableEq, Repr

/-- The 47 operations of R120, which an opcode byte names: the "mnemonic" column. -/
inductive Op where
  | nop
  | mov
  | xchg
  | push
  | pop
  | jmp
  | jz
  | jnz
  | int
  | eint
  | inte
  | intd
  | hlt
  | add
  | sub
  | adc
  | sbb
  | mul
  | div
  | mod
  | inc
  | dec
  | neg
  | adf
  | sbf
  | mlf
  | dvf
  | mdf
  | and
  | or
  | xor
  | nand
  | nor
  | nxor
  | not
  | sr
  | sl
  | rr
  | rl
  | gt
  | gte
  | lt
  | lte
  | eq
  | neq
  | dbg
  | pau
deriving DecidableEq, Repr

/-- The seven parameter types of R105, which a type code names. -/
inductive ParamType where
  | reg
  | rega
  | lit
  | lita
  | stk
  | calca
  | calcl
deriving DecidableEq, Repr

/-- The four components of a calculated operand that a payload holds (R111). -/
inductive CalcPart where
  | base
  | index
  | scale
  | offset
deriving DecidableEq, Repr

/-- The 47 instructions of R120, parameters in encoding order. -/
inductive Instr where
  | nop (z : Size)
  | mov (z : Size) (src dst : Param)
  | xchg (z : Size) (p1 p2 : Param)
  | push (z : Size) (src : Param)
  | pop (z : Size) (dst : Param)
  | jmp (z : Size) (target : Param)
  | jz (z : Size) (tested target : Param)
  | jnz (z : Size) (tested target : Param)
  | int (z : Size) (cause : Param)
  | eint (z : Size)
  | inte (z : Size)
  | intd (z : Size)
  | hlt (z : Size)
  | add (z : Size) (a b dst : Param)
  | sub (z : Size) (a b dst : Param)
  | adc (z : Size) (a b dst : Param)
  | sbb (z : Size) (a b dst : Param)
  | mul (z : Size) (a b dst : Param)
  | div (z : Size) (a b dst : Param)
  | mod (z : Size) (a b dst : Param)
  | inc (z : Size) (a dst : Param)
  | dec (z : Size) (a dst : Param)
  | neg (z : Size) (a dst : Param)
  | adf (z : Size) (a b dst : Param)
  | sbf (z : Size) (a b dst : Param)
  | mlf (z : Size) (a b dst : Param)
  | dvf (z : Size) (a b dst : Param)
  | mdf (z : Size) (a b dst : Param)
  | and (z : Size) (a b dst : Param)
  | or (z : Size) (a b dst : Param)
  | xor (z : Size) (a b dst : Param)
  | nand (z : Size) (a b dst : Param)
  | nor (z : Size) (a b dst : Param)
  | nxor (z : Size) (a b dst : Param)
  | not (z : Size) (a dst : Param)
  | sr (z : Size) (count value dst : Param)
  | sl (z : Size) (count value dst : Param)
  | rr (z : Size) (count value dst : Param)
  | rl (z : Size) (count value dst : Param)
  | gt (z : Size) (a b dst : Param)
  | gte (z : Size) (a b dst : Param)
  | lt (z : Size) (a b dst : Param)
  | lte (z : Size) (a b dst : Param)
  | eq (z : Size) (a b dst : Param)
  | neq (z : Size) (a b dst : Param)
  | dbg (z : Size) (dst : Param)
  | pau (z : Size)
deriving DecidableEq, Repr

end Sys2Proof
end

