-- ==== Sys2Proof/Config.lean ====
section
/-!
DEFINITION. What a platform fixes (spec/00_scope.md R6, R7) and the two free values the spec leaves open.
The parameters that stay open, and the numbers the spec allocated by decision (R7), are fields of `Platform`, a plain
record that State carries and no rule changes (10_state.md R36, R44); its default value is
`Sys2Proof.Machine.standardPlatform`.
-/

namespace Sys2Proof

/-- The number of a cause, an index of the vector table: `0 .. 254` (spec/60_exceptions.md R355, `NVEC = 255`). -/
abbrev Cause := Fin 255

/-- The causes the hardware raises, by name (R355). -/
inductive CauseName where
  | invalidInstruction
  | divideByZero
  | hardwareFault
deriving DecidableEq, Repr

/-- The numbers of the causes the hardware raises (R7, R355). -/
structure CauseNumbers where
  invalidInstruction : Cause
  divideByZero : Cause
  hardwareFault : Cause
deriving DecidableEq, Repr

/-- The number of a cause. -/
def CauseNumbers.number (n : CauseNumbers) : CauseName → Cause
  | .invalidInstruction => n.invalidInstruction
  | .divideByZero => n.divideByZero
  | .hardwareFault => n.hardwareFault

/-- A bit of a calculated operand's descriptor (R7, spec/30_encoding.md R111): its place, and its value where the flag is
set (the sign is minus, the component is present, the component is a literal). -/
structure DescriptorBit where
  place : Nat
  value : Bool
deriving DecidableEq, Repr

/-- The layout of a calculated operand's payload (R7, spec/30_encoding.md R111): the descriptor's size in bytes, the place
and the polarity of each of its bits, and the order of the components after it. -/
structure CalcLayout where
  /-- The size of the descriptor. -/
  descriptorSize : Size
  /-- `SGN`. -/
  sign : DescriptorBit
  /-- `IXP`. -/
  indexPresent : DescriptorBit
  /-- `SCP`. -/
  scalePresent : DescriptorBit
  /-- `OFP`. -/
  offsetPresent : DescriptorBit
  /-- `BK`. -/
  baseKind : DescriptorBit
  /-- `IK`. -/
  indexKind : DescriptorBit
  /-- `SK`. -/
  scaleKind : DescriptorBit
  /-- `OK`. -/
  offsetKind : DescriptorBit
  /-- The order of the components. -/
  order : List CalcPart
deriving DecidableEq, Repr

/-- The numbers of the instruction encoding, and the layouts of its payloads, which the spec allocated by
decision (R7): each table maps a number to what it names.  Their standard values are `Sys2Proof.standardEncoding`. -/
structure Encoding where
  /-- Opcode bytes (R120). -/
  opcodes : List (Nat × Op)
  /-- Parameter-type codes (R105); a code not in the table is malformed (R126). -/
  types : List (Nat × ParamType)
  /-- Register numbers (spec/10_state.md R21, R22). -/
  registers : List (Nat × Reg)
  /-- The size in bytes of a register number in a payload (R107, R112). -/
  registerSize : Size
  /-- The size each of the four codes of the size field stands for (R103). -/
  sizes : Vector Size 4
  /-- The place of the size field's low bit in the header word (R103). -/
  sizeShift : Nat
  /-- The layout of calculated payloads (R111). -/
  layout : CalcLayout
deriving DecidableEq, Repr

/-- What stands behind a device id (spec/20_memory.md R75, R77): the device variants the spec describes.  A
peripheral is left unregistered, which R77 allows. -/
inductive Device where
  | memory
  | processor
  | interruptController
  | configuration
  | bootManager
deriving DecidableEq, Repr

/-- The Bus Controller's "mapping from device id to device" (spec/10_state.md R36). -/
abbrev Registry := List (Nat × Device)

/-- A range of data addresses that one device answers: `size` addresses from `base`, the first of them device
address `target`.  (The model's form for an arbitrary `Route`, R79: assumption 4.) -/
structure Window where
  base : Nat
  size : Nat
  device : Nat
  target : Nat
deriving DecidableEq, Repr

/-- The parameter `Route` (spec/20_memory.md R79) as data: the first window that holds the address decides; an
address in no window is split at bit `splitBit` into device id (above) and device address (below). -/
structure Route where
  windows : List Window
  splitBit : Nat
deriving DecidableEq, Repr

/-- The open parameters of spec/00_scope.md R6 and the numbers of R7. -/
structure Platform where
  /-- The numbers of the instruction encoding (R7). -/
  encoding : Encoding
  /-- The cause numbers (R7). -/
  causes : CauseNumbers
  /-- `MEM_SIZE`. -/
  memSize : Nat
  /-- `ENTRY`. -/
  entry : Word
  /-- `Route`. -/
  route : Route
  /-- `MEM_ID`: the device id whose accesses go to Memory's sized accessors (R80, R81). -/
  memId : Nat
  /-- The registered devices with their ids (`CPU_ID`, `IC_ID`, `CFG_ID`, `BOOT_ID` and `MEM_ID`). -/
  registry : Registry
  /-- `PROTECTED`. -/
  protectedCauses : List Cause
  /-- `QUANTUM`, which no rule reads. -/
  quantum : Nat
  /-- `CFG_WRITE_QUIRK`. -/
  cfgWriteQuirk : Bool
deriving DecidableEq, Repr

/-- The parameter `FNum` (spec/00_scope.md R6, 45_floating_point.md R271): the five binary64 operations on bit patterns,
each answering the result's pattern, or `none` where the result is a NaN.  Its value is `Sys2Proof.Machine.fnum`. -/
structure FNum where
  /-- `f64(x) + f64(y)`. -/
  add : Word → Word → Option Word
  /-- `f64(x) - f64(y)`. -/
  sub : Word → Word → Option Word
  /-- `f64(x) * f64(y)`. -/
  mul : Word → Word → Option Word
  /-- `f64(x) / f64(y)`. -/
  div : Word → Word → Option Word
  /-- `frem(f64(x), f64(y))` (R277). -/
  rem : Word → Word → Option Word

/-- FREE VALUE (assumption 5): the host wall-clock word that the n-th DBG draws, "any word, with no relation required
between two draws" (spec/48_debug_misc.md R341). -/
opaque Config.clock : Nat → Word

/-- FREE VALUE (assumption 6): the raw word from which the n-th NaN result takes its sign and fraction
(spec/45_floating_point.md R271: the pattern "is not fixed by this spec"). -/
opaque Config.nanPattern : Nat → Word

end Sys2Proof
end

