-- ==== Sys2Proof/WellFormed.lean ====
section
/-!
DEFINITION. The representable instructions (spec/30_encoding.md R114): every literal fits the declared size and every
parameter in a destination position is writable (R132).  That the opcode is in the table, the parameter count right and
every register valid is built into the types of Syntax.lean.
-/

namespace Sys2Proof

/-- The declared operand size of an instruction (R103). -/
def Instr.size : Instr → Size
  | .nop z => z
  | .mov z _ _ => z
  | .xchg z _ _ => z
  | .push z _ => z
  | .pop z _ => z
  | .jmp z _ => z
  | .jz z _ _ => z
  | .jnz z _ _ => z
  | .int z _ => z
  | .eint z => z
  | .inte z => z
  | .intd z => z
  | .hlt z => z
  | .add z _ _ _ => z
  | .sub z _ _ _ => z
  | .adc z _ _ _ => z
  | .sbb z _ _ _ => z
  | .mul z _ _ _ => z
  | .div z _ _ _ => z
  | .mod z _ _ _ => z
  | .inc z _ _ => z
  | .dec z _ _ => z
  | .neg z _ _ => z
  | .adf z _ _ _ => z
  | .sbf z _ _ _ => z
  | .mlf z _ _ _ => z
  | .dvf z _ _ _ => z
  | .mdf z _ _ _ => z
  | .and z _ _ _ => z
  | .or z _ _ _ => z
  | .xor z _ _ _ => z
  | .nand z _ _ _ => z
  | .nor z _ _ _ => z
  | .nxor z _ _ _ => z
  | .not z _ _ => z
  | .sr z _ _ _ => z
  | .sl z _ _ _ => z
  | .rr z _ _ _ => z
  | .rl z _ _ _ => z
  | .gt z _ _ _ => z
  | .gte z _ _ _ => z
  | .lt z _ _ _ => z
  | .lte z _ _ _ => z
  | .eq z _ _ _ => z
  | .neq z _ _ _ => z
  | .dbg z _ => z
  | .pau z => z

/-- The operation of an instruction (R120). -/
def Instr.op : Instr → Op
  | .nop _ => .nop
  | .mov _ _ _ => .mov
  | .xchg _ _ _ => .xchg
  | .push _ _ => .push
  | .pop _ _ => .pop
  | .jmp _ _ => .jmp
  | .jz _ _ _ => .jz
  | .jnz _ _ _ => .jnz
  | .int _ _ => .int
  | .eint _ => .eint
  | .inte _ => .inte
  | .intd _ => .intd
  | .hlt _ => .hlt
  | .add _ _ _ _ => .add
  | .sub _ _ _ _ => .sub
  | .adc _ _ _ _ => .adc
  | .sbb _ _ _ _ => .sbb
  | .mul _ _ _ _ => .mul
  | .div _ _ _ _ => .div
  | .mod _ _ _ _ => .mod
  | .inc _ _ _ => .inc
  | .dec _ _ _ => .dec
  | .neg _ _ _ => .neg
  | .adf _ _ _ _ => .adf
  | .sbf _ _ _ _ => .sbf
  | .mlf _ _ _ _ => .mlf
  | .dvf _ _ _ _ => .dvf
  | .mdf _ _ _ _ => .mdf
  | .and _ _ _ _ => .and
  | .or _ _ _ _ => .or
  | .xor _ _ _ _ => .xor
  | .nand _ _ _ _ => .nand
  | .nor _ _ _ _ => .nor
  | .nxor _ _ _ _ => .nxor
  | .not _ _ _ => .not
  | .sr _ _ _ _ => .sr
  | .sl _ _ _ _ => .sl
  | .rr _ _ _ _ => .rr
  | .rl _ _ _ _ => .rl
  | .gt _ _ _ _ => .gt
  | .gte _ _ _ _ => .gte
  | .lt _ _ _ _ => .lt
  | .lte _ _ _ _ => .lte
  | .eq _ _ _ _ => .eq
  | .neq _ _ _ _ => .neq
  | .dbg _ _ => .dbg
  | .pau _ => .pau

/-- The parameters of an instruction in encoding order (R106). -/
def Instr.params : Instr → List Param
  | .nop _ => []
  | .mov _ p1 p2 => [p1, p2]
  | .xchg _ p1 p2 => [p1, p2]
  | .push _ p1 => [p1]
  | .pop _ p1 => [p1]
  | .jmp _ p1 => [p1]
  | .jz _ p1 p2 => [p1, p2]
  | .jnz _ p1 p2 => [p1, p2]
  | .int _ p1 => [p1]
  | .eint _ => []
  | .inte _ => []
  | .intd _ => []
  | .hlt _ => []
  | .add _ p1 p2 p3 => [p1, p2, p3]
  | .sub _ p1 p2 p3 => [p1, p2, p3]
  | .adc _ p1 p2 p3 => [p1, p2, p3]
  | .sbb _ p1 p2 p3 => [p1, p2, p3]
  | .mul _ p1 p2 p3 => [p1, p2, p3]
  | .div _ p1 p2 p3 => [p1, p2, p3]
  | .mod _ p1 p2 p3 => [p1, p2, p3]
  | .inc _ p1 p2 => [p1, p2]
  | .dec _ p1 p2 => [p1, p2]
  | .neg _ p1 p2 => [p1, p2]
  | .adf _ p1 p2 p3 => [p1, p2, p3]
  | .sbf _ p1 p2 p3 => [p1, p2, p3]
  | .mlf _ p1 p2 p3 => [p1, p2, p3]
  | .dvf _ p1 p2 p3 => [p1, p2, p3]
  | .mdf _ p1 p2 p3 => [p1, p2, p3]
  | .and _ p1 p2 p3 => [p1, p2, p3]
  | .or _ p1 p2 p3 => [p1, p2, p3]
  | .xor _ p1 p2 p3 => [p1, p2, p3]
  | .nand _ p1 p2 p3 => [p1, p2, p3]
  | .nor _ p1 p2 p3 => [p1, p2, p3]
  | .nxor _ p1 p2 p3 => [p1, p2, p3]
  | .not _ p1 p2 => [p1, p2]
  | .sr _ p1 p2 p3 => [p1, p2, p3]
  | .sl _ p1 p2 p3 => [p1, p2, p3]
  | .rr _ p1 p2 p3 => [p1, p2, p3]
  | .rl _ p1 p2 p3 => [p1, p2, p3]
  | .gt _ p1 p2 p3 => [p1, p2, p3]
  | .gte _ p1 p2 p3 => [p1, p2, p3]
  | .lt _ p1 p2 p3 => [p1, p2, p3]
  | .lte _ p1 p2 p3 => [p1, p2, p3]
  | .eq _ p1 p2 p3 => [p1, p2, p3]
  | .neq _ p1 p2 p3 => [p1, p2, p3]
  | .dbg _ p1 => [p1]
  | .pau _ => []

/-- The roles of an instruction's parameters (R120). -/
def Instr.roles : Instr → List Role
  | .nop _ => []
  | .mov _ _ _ => [.s, .d]
  | .xchg _ _ _ => [.x, .x]
  | .push _ _ => [.s]
  | .pop _ _ => [.d]
  | .jmp _ _ => [.s]
  | .jz _ _ _ => [.s, .s]
  | .jnz _ _ _ => [.s, .s]
  | .int _ _ => [.s]
  | .eint _ => []
  | .inte _ => []
  | .intd _ => []
  | .hlt _ => []
  | .add _ _ _ _ => [.s, .s, .d]
  | .sub _ _ _ _ => [.s, .s, .d]
  | .adc _ _ _ _ => [.s, .s, .d]
  | .sbb _ _ _ _ => [.s, .s, .d]
  | .mul _ _ _ _ => [.s, .s, .d]
  | .div _ _ _ _ => [.s, .s, .d]
  | .mod _ _ _ _ => [.s, .s, .d]
  | .inc _ _ _ => [.s, .d]
  | .dec _ _ _ => [.s, .d]
  | .neg _ _ _ => [.s, .d]
  | .adf _ _ _ _ => [.s, .s, .d]
  | .sbf _ _ _ _ => [.s, .s, .d]
  | .mlf _ _ _ _ => [.s, .s, .d]
  | .dvf _ _ _ _ => [.s, .s, .d]
  | .mdf _ _ _ _ => [.s, .s, .d]
  | .and _ _ _ _ => [.s, .s, .d]
  | .or _ _ _ _ => [.s, .s, .d]
  | .xor _ _ _ _ => [.s, .s, .d]
  | .nand _ _ _ _ => [.s, .s, .d]
  | .nor _ _ _ _ => [.s, .s, .d]
  | .nxor _ _ _ _ => [.s, .s, .d]
  | .not _ _ _ => [.s, .d]
  | .sr _ _ _ _ => [.s, .s, .d]
  | .sl _ _ _ _ => [.s, .s, .d]
  | .rr _ _ _ _ => [.s, .s, .d]
  | .rl _ _ _ _ => [.s, .s, .d]
  | .gt _ _ _ _ => [.s, .s, .d]
  | .gte _ _ _ _ => [.s, .s, .d]
  | .lt _ _ _ _ => [.s, .s, .d]
  | .lte _ _ _ _ => [.s, .s, .d]
  | .eq _ _ _ _ => [.s, .s, .d]
  | .neq _ _ _ _ => [.s, .s, .d]
  | .dbg _ _ => [.d]
  | .pau _ => []

/-- "Writable means the type may stand in a destination position" (R105). -/
def Param.writable : Param → Bool
  | .lit _ => false
  | .calcl _ => false
  | _ => true

/-- Whether a role writes its parameter. -/
def Role.writes : Role → Bool
  | .s => false
  | .d => true
  | .x => true

/-- A constant fits the declared size: `v < 2^(8s)` (R106). -/
def literalFits (z : Size) (v : Word) : Bool :=
  decide (v.toNat < 2 ^ z.bits)

/-- A sub-parameter is representable at size `z`. -/
def Sub.fits (z : Size) : Sub → Bool
  | .sreg _ => true
  | .slit v => literalFits z v

/-- An optional sub-parameter is representable at size `z`. -/
def optSubFits (z : Size) : Option Sub → Bool
  | none => true
  | some u => u.fits z

/-- A parameter is representable at size `z`. -/
def Param.fits (z : Size) : Param → Bool
  | .lit v => literalFits z v
  | .lita v => literalFits z v
  | .calca c => c.base.fits z && optSubFits z c.index && optSubFits z c.scale && optSubFits z c.offset
  | .calcl c => c.base.fits z && optSubFits z c.index && optSubFits z c.scale && optSubFits z c.offset
  | _ => true

/-- A parameter may stand in a position of this role (R132). -/
def Param.allowed (z : Size) (r : Role) (p : Param) : Bool :=
  p.fits z && (!r.writes || p.writable)

/-- Every parameter may stand in its position. -/
def paramsAllowed (z : Size) : List Role → List Param → Bool
  | r :: rs, p :: ps => p.allowed z r && paramsAllowed z rs ps
  | [], [] => true
  | _, _ => false

/-- The instruction is representable (R114). -/
def Instr.wellFormed (i : Instr) : Bool :=
  paramsAllowed i.size i.roles i.params

end Sys2Proof
end

