-- ==== Sys2Proof/Decode.lean ====
section
/-!
DEFINITION. The codec (spec/30_encoding.md): byte order, the tables of opcodes, parameter types, register numbers and
size codes, the layouts of payloads, the decoder of R130 with the fetch accesses it makes, and the encoder of R114.  Decoder and encoder are
parameterised by an `Encoding`, the numbers the spec allocated by decision (00_scope.md R7).
-/

namespace Sys2Proof

/-! ## Byte order (spec/20_memory.md R62) -/

/-- The low `n` bytes of `v`, most significant first (R62, R64). -/
def beBytes : Nat → Nat → List Byte
  | 0, _ => []
  | n + 1, v => BitVec.ofNat 8 (v / 256 ^ n) :: beBytes n v

/-- The unsigned integer that bytes, most significant first, stand for (R62). -/
def beNat : List Byte → Nat
  | [] => 0
  | b :: bs => b.toNat * 256 ^ bs.length + beNat bs

/-! ## The instruction-definition table (R120) -/

/-- The parameters an operation has, with their roles, and the instruction made of them. -/
inductive OpForm where
  | p0 (mk : Size → Instr)
  | p1 (r1 : Role) (mk : Size → Param → Instr)
  | p2 (r1 r2 : Role) (mk : Size → Param → Param → Instr)
  | p3 (r1 r2 r3 : Role) (mk : Size → Param → Param → Param → Instr)

/-- The mnemonic of an operation (R120, R121). -/
def Op.mnemonic : Op → String
  | .nop => "NOP"
  | .mov => "MOV"
  | .xchg => "XCHG"
  | .push => "PUSH"
  | .pop => "POP"
  | .jmp => "JMP"
  | .jz => "JZ"
  | .jnz => "JNZ"
  | .int => "INT"
  | .eint => "EINT"
  | .inte => "INTE"
  | .intd => "INTD"
  | .hlt => "HLT"
  | .add => "ADD"
  | .sub => "SUB"
  | .adc => "ADC"
  | .sbb => "SBB"
  | .mul => "MUL"
  | .div => "DIV"
  | .mod => "MOD"
  | .inc => "INC"
  | .dec => "DEC"
  | .neg => "NEG"
  | .adf => "ADF"
  | .sbf => "SBF"
  | .mlf => "MLF"
  | .dvf => "DVF"
  | .mdf => "MDF"
  | .and => "AND"
  | .or => "OR"
  | .xor => "XOR"
  | .nand => "NAND"
  | .nor => "NOR"
  | .nxor => "NXOR"
  | .not => "NOT"
  | .sr => "SR"
  | .sl => "SL"
  | .rr => "RR"
  | .rl => "RL"
  | .gt => "GT"
  | .gte => "GTE"
  | .lt => "LT"
  | .lte => "LTE"
  | .eq => "EQ"
  | .neq => "NEQ"
  | .dbg => "DBG"
  | .pau => "PAU"

/-- The parameters of an operation and the instruction made of them (R120). -/
def Op.form : Op → OpForm
  | .nop => .p0 .nop
  | .mov => .p2 .s .d .mov
  | .xchg => .p2 .x .x .xchg
  | .push => .p1 .s .push
  | .pop => .p1 .d .pop
  | .jmp => .p1 .s .jmp
  | .jz => .p2 .s .s .jz
  | .jnz => .p2 .s .s .jnz
  | .int => .p1 .s .int
  | .eint => .p0 .eint
  | .inte => .p0 .inte
  | .intd => .p0 .intd
  | .hlt => .p0 .hlt
  | .add => .p3 .s .s .d .add
  | .sub => .p3 .s .s .d .sub
  | .adc => .p3 .s .s .d .adc
  | .sbb => .p3 .s .s .d .sbb
  | .mul => .p3 .s .s .d .mul
  | .div => .p3 .s .s .d .div
  | .mod => .p3 .s .s .d .mod
  | .inc => .p2 .s .d .inc
  | .dec => .p2 .s .d .dec
  | .neg => .p2 .s .d .neg
  | .adf => .p3 .s .s .d .adf
  | .sbf => .p3 .s .s .d .sbf
  | .mlf => .p3 .s .s .d .mlf
  | .dvf => .p3 .s .s .d .dvf
  | .mdf => .p3 .s .s .d .mdf
  | .and => .p3 .s .s .d .and
  | .or => .p3 .s .s .d .or
  | .xor => .p3 .s .s .d .xor
  | .nand => .p3 .s .s .d .nand
  | .nor => .p3 .s .s .d .nor
  | .nxor => .p3 .s .s .d .nxor
  | .not => .p2 .s .d .not
  | .sr => .p3 .s .s .d .sr
  | .sl => .p3 .s .s .d .sl
  | .rr => .p3 .s .s .d .rr
  | .rl => .p3 .s .s .d .rl
  | .gt => .p3 .s .s .d .gt
  | .gte => .p3 .s .s .d .gte
  | .lt => .p3 .s .s .d .lt
  | .lte => .p3 .s .s .d .lte
  | .eq => .p3 .s .s .d .eq
  | .neq => .p3 .s .s .d .neq
  | .dbg => .p1 .d .dbg
  | .pau => .p0 .pau

/-! ## The numbers (spec/00_scope.md R7) -/

/-- The standard opcode bytes (R120). -/
def standardOpcodes : List (Nat × Op) :=
  [
   (0x00, .nop), (0x01, .mov), (0x02, .xchg), (0x03, .push), (0x04, .pop), (0x10, .jmp),
   (0x11, .jz), (0x12, .jnz), (0x20, .int), (0x21, .eint), (0x22, .inte), (0x23, .intd),
   (0x24, .hlt), (0x30, .add), (0x31, .sub), (0x32, .adc), (0x33, .sbb), (0x34, .mul),
   (0x35, .div), (0x36, .mod), (0x37, .inc), (0x38, .dec), (0x39, .neg), (0x40, .adf),
   (0x41, .sbf), (0x42, .mlf), (0x43, .dvf), (0x44, .mdf), (0x50, .and), (0x51, .or),
   (0x52, .xor), (0x53, .nand), (0x54, .nor), (0x55, .nxor), (0x56, .not), (0x58, .sr),
   (0x59, .sl), (0x5A, .rr), (0x5B, .rl), (0x60, .gt), (0x61, .gte), (0x62, .lt),
   (0x63, .lte), (0x64, .eq), (0x65, .neq), (0x70, .dbg), (0x71, .pau)
  ]

/-- The numbers of spec/30_encoding.md and 10_state.md R21, R22. -/
def standardEncoding : Encoding where
  opcodes := standardOpcodes
  types := [(0, .reg), (1, .rega), (2, .lit), (3, .lita), (4, .stk), (5, .calca), (6, .calcl)]
  registers :=
    [(0, .gpr 0), (1, .gpr 1), (2, .gpr 2), (3, .gpr 3), (4, .gpr 4), (5, .gpr 5), (6, .gpr 6), (7, .gpr 7),
     (8, .gpr 8), (9, .gpr 9), (10, .gpr 10), (11, .gpr 11), (12, .gpr 12), (13, .gpr 13), (14, .gpr 14), (15, .gpr 15),
     (0xF0, .rip), (0xF1, .rsp), (0xF2, .rsip), (0xF3, .rc)]
  registerSize := .one
  sizes := #v[.one, .two, .four, .eight]
  sizeShift := 45
  layout :=
    { descriptorSize := .one, sign := ⟨7, true⟩, indexPresent := ⟨6, true⟩, scalePresent := ⟨5, true⟩,
      offsetPresent := ⟨4, true⟩, baseKind := ⟨3, true⟩, indexKind := ⟨2, true⟩, scaleKind := ⟨1, true⟩,
      offsetKind := ⟨0, true⟩, order := [.base, .index, .scale, .offset] }

/-- What a number names in a table, if it names anything. -/
def nameOf {α : Type} (n : Nat) : List (Nat × α) → Option α
  | [] => none
  | (k, a) :: rest => if k = n then some a else nameOf n rest

/-- The number that names something in a table; 0 where none does, which an admissible encoding excludes. -/
def numberOf {α : Type} [DecidableEq α] (a : α) : List (Nat × α) → Nat
  | [] => 0
  | (k, b) :: rest => if a = b then k else numberOf a rest

/-- The operation of an opcode byte, if it is in the table (R120, R125). -/
def opOfCode (e : Encoding) (n : Nat) : Option Op := nameOf n e.opcodes

/-- The opcode byte of an instruction (R120). -/
def opcodeOf (e : Encoding) (i : Instr) : Nat := numberOf i.op e.opcodes

/-- The parameter type of a type code, if it is one (R105, R126). -/
def typeOfCode (e : Encoding) (n : Nat) : Option ParamType := nameOf n e.types

/-- The type code of a parameter type (R105). -/
def typeNumber (e : Encoding) (t : ParamType) : Nat := numberOf t e.types

/-- The register a number names, if it names one (spec/10_state.md R22, R131). -/
def regOfNumber (e : Encoding) (n : Nat) : Option Reg := nameOf n e.registers

/-- The number of a register (spec/10_state.md R21, R22). -/
def regNumber (e : Encoding) (r : Reg) : Nat := numberOf r e.registers

/-- The operand size a code of the size field stands for (R103: all four codes are legal). -/
def sizeOfCode (e : Encoding) (n : Nat) : Size := e.sizes[n % 4]

/-- The code of an operand size (R103). -/
def sizeCode (e : Encoding) (z : Size) : Nat :=
  if e.sizes[0] = z then 0 else if e.sizes[1] = z then 1 else if e.sizes[2] = z then 2 else 3

/-- All operations. -/
def allOps : List Op :=
  [
   .nop, .mov, .xchg, .push, .pop, .jmp, .jz, .jnz, .int, .eint, .inte, .intd,
   .hlt, .add, .sub, .adc, .sbb, .mul, .div, .mod, .inc, .dec, .neg, .adf,
   .sbf, .mlf, .dvf, .mdf, .and, .or, .xor, .nand, .nor, .nxor, .not, .sr,
   .sl, .rr, .rl, .gt, .gte, .lt, .lte, .eq, .neq, .dbg, .pau
  ]

/-- The operation of a mnemonic (R121: "looked up by opcode or mnemonic"). -/
def opOfMnemonic (m : String) : Option Op := allOps.find? fun o => o.mnemonic == m

/-- All parameter types. -/
def allTypes : List ParamType := [.reg, .rega, .lit, .lita, .stk, .calca, .calcl]

/-- All registers (spec/10_state.md R20). -/
def allRegs : List Reg :=
  [.gpr 0, .gpr 1, .gpr 2, .gpr 3, .gpr 4, .gpr 5, .gpr 6, .gpr 7, .gpr 8, .gpr 9, .gpr 10, .gpr 11, .gpr 12, .gpr 13,
   .gpr 14, .gpr 15, .rip, .rsp, .rsip, .rc]

/-- All operand sizes. -/
def allSizes : List Size := [.one, .two, .four, .eight]

/-- The places of the descriptor's eight bits. -/
def CalcLayout.places (l : CalcLayout) : List Nat :=
  [l.sign.place, l.indexPresent.place, l.scalePresent.place, l.offsetPresent.place, l.baseKind.place, l.indexKind.place,
    l.scaleKind.place, l.offsetKind.place]

/-- The descriptor's eight bits have distinct places within the descriptor, and the order names each component once. -/
def CalcLayout.ok (l : CalcLayout) : Bool :=
  decide l.places.Nodup && (l.places.all fun k => decide (k < l.descriptorSize.bits)) &&
  l.order.isPerm [.base, .index, .scale, .offset]

/-- The encoding is admissible: every number fits its field and names what it is the number of, and the size field lies
below the type fields.  (R7 lets the numbers be others than the spec's; what any choice must satisfy is assumption 7.) -/
def Encoding.ok (e : Encoding) : Bool :=
  (allOps.all fun o => decide (numberOf o e.opcodes < 256) && decide (opOfCode e (numberOf o e.opcodes) = some o)) &&
  (allTypes.all fun t => decide (typeNumber e t < 8) && decide (typeOfCode e (typeNumber e t) = some t)) &&
  (allRegs.all fun r => decide (regNumber e r < 2 ^ e.registerSize.bits) && decide (regOfNumber e (regNumber e r) = some r)) &&
  (allSizes.all fun z => decide (sizeOfCode e (sizeCode e z) = z)) &&
  decide (e.sizeShift ≤ 45) && e.layout.ok

/-- The type of a parameter (R105). -/
def Param.type : Param → ParamType
  | .reg _ => .reg
  | .rega _ => .rega
  | .lit _ => .lit
  | .lita _ => .lita
  | .stk => .stk
  | .calca _ => .calca
  | .calcl _ => .calcl

/-! ## The decoder (R130) -/

/-- Why a header or a payload is no instruction; every one of them becomes the cause InvalidInstruction (R134). -/
inductive DecodeFault where
  /-- The opcode byte is absent from the table (R125). -/
  | unknownOpcode
  /-- The type field of a present parameter holds a code that names no type, 7 with the spec's numbers (R126). -/
  | malformedType
  /-- A register number in a payload names no register (R131). -/
  | invalidRegister
  /-- A literal or a calculated literal stands in a destination position (R132). -/
  | destinationNotWritable
deriving DecidableEq, Repr

/-- The instruction stream as seen from the header's address: `rd off n` is the value of the `n`-byte fetch at `off`. -/
abbrev FetchReader := Nat → Nat → Nat

/-- Where the decoder stands: the offset of the next fetch, and the fetches made so far as (offset, length), in order. -/
structure Cursor where
  pos : Nat
  log : List (Nat × Nat)
deriving DecidableEq, Repr

/-- The cursor at the first byte of the header. -/
def cursorStart : Cursor := ⟨0, []⟩

/-- A piece of the decoder: from a cursor, a result or a fault, and the cursor after it. -/
abbrev Decoder (α : Type) := Cursor → Except DecodeFault α × Cursor

/-- A decoder that reads nothing. -/
def decPure {α : Type} (a : α) : Decoder α := fun c => (.ok a, c)

/-- A decode fault; what was fetched stays fetched. -/
def decFail {α : Type} (e : DecodeFault) : Decoder α := fun c => (.error e, c)

/-- One decoder after another; the first fault ends the decoding (R130, "in the order written"). -/
def decThen {α β : Type} (m : Decoder α) (f : α → Decoder β) : Decoder β := fun c =>
  match m c with
  | (.ok a, c') => f a c'
  | (.error e, c') => (.error e, c')

/-- `FetchRead(p, n); p <- p + n`. -/
def decFetch (rd : FetchReader) (n : Nat) : Decoder Nat := fun c =>
  (.ok (rd c.pos n), ⟨c.pos + n, c.log ++ [(c.pos, n)]⟩)

/-- A register number of a payload (R107, R131). -/
def decRegister (e : Encoding) (rd : FetchReader) : Decoder Reg :=
  decThen (decFetch rd e.registerSize.bytes) fun n =>
    match regOfNumber e n with
    | some r => decPure r
    | none => decFail .invalidRegister

/-- A constant of the declared size (R109). -/
def decLiteral (rd : FetchReader) (z : Size) : Decoder Word :=
  decThen (decFetch rd z.bytes) fun v => decPure (BitVec.ofNat 64 v)

/-- A sub-parameter, literal or register as its kind bit says (R111, R112). -/
def decSub (e : Encoding) (rd : FetchReader) (z : Size) (literal : Bool) : Decoder Sub :=
  if literal then decThen (decLiteral rd z) fun v => decPure (.slit v)
  else decThen (decRegister e rd) fun r => decPure (.sreg r)

/-- A sub-parameter that may be absent; the kind bit of an absent one is ignored (R111). -/
def decOptSub (e : Encoding) (rd : FetchReader) (z : Size) (present literal : Bool) : Decoder (Option Sub) :=
  if present then decThen (decSub e rd z literal) fun u => decPure (some u)
  else decPure none

/-- Whether a flag of descriptor `d` is set (R111). -/
def DescriptorBit.holds (b : DescriptorBit) (d : Nat) : Bool := d.testBit b.place == b.value

/-- One component of a calculated payload with descriptor `d`, put into its place (R111). -/
def decPart (e : Encoding) (rd : FetchReader) (z : Size) (d : Nat) (k : Calc) : CalcPart → Decoder Calc
  | .base =>
    decThen (decSub e rd z (e.layout.baseKind.holds d)) fun u => decPure { k with base := u }
  | .index =>
    decThen (decOptSub e rd z (e.layout.indexPresent.holds d) (e.layout.indexKind.holds d)) fun u =>
    decPure { k with index := u }
  | .scale =>
    decThen (decOptSub e rd z (e.layout.scalePresent.holds d) (e.layout.scaleKind.holds d)) fun u =>
    decPure { k with scale := u }
  | .offset =>
    decThen (decOptSub e rd z (e.layout.offsetPresent.holds d) (e.layout.offsetKind.holds d)) fun u =>
    decPure { k with offset := u }

/-- The components of a calculated payload in their order (R111). -/
def decParts (e : Encoding) (rd : FetchReader) (z : Size) (d : Nat) : List CalcPart → Calc → Decoder Calc
  | [], k => decPure k
  | p :: ps, k => decThen (decPart e rd z d k p) (decParts e rd z d ps)

/-- A calculated operand before its components are decoded; an admissible order gives it every one of them. -/
def emptyCalc (g : Sign) : Calc := ⟨.slit 0, none, none, none, g⟩

/-- The payload of a calculated parameter: the descriptor, then the components (R111). -/
def decCalc (e : Encoding) (rd : FetchReader) (z : Size) : Decoder Calc :=
  decThen (decFetch rd e.layout.descriptorSize.bytes) fun d =>
  decParts e rd z d e.layout.order (emptyCalc (if e.layout.sign.holds d then .minus else .plus))

/-- The payload of a parameter with type code `t` (R105, R107 to R111, R126). -/
def decPayload (e : Encoding) (rd : FetchReader) (z : Size) (t : Nat) : Decoder Param :=
  match typeOfCode e t with
  | some .reg => decThen (decRegister e rd) fun r => decPure (.reg r)
  | some .rega => decThen (decRegister e rd) fun r => decPure (.rega r)
  | some .lit => decThen (decLiteral rd z) fun v => decPure (.lit v)
  | some .lita => decThen (decLiteral rd z) fun v => decPure (.lita v)
  | some .stk => decPure .stk
  | some .calca => decThen (decCalc e rd z) fun c => decPure (.calca c)
  | some .calcl => decThen (decCalc e rd z) fun c => decPure (.calcl c)
  | none => decFail .malformedType

/-- One parameter of role `r`, checked before the next is looked at (R130, R132). -/
def decParam (e : Encoding) (rd : FetchReader) (z : Size) (r : Role) (t : Nat) : Decoder Param :=
  decThen (decPayload e rd z t) fun p =>
    if r.writes && !p.writable then decFail .destinationNotWritable else decPure p

/-- The opcode byte of a header word: bits 63..56 (R101). -/
def headerOpcode (h : Nat) : Nat := h / 2 ^ 56 % 256

/-- The type code of parameter 1: bits 55..53 (R101). -/
def headerType1 (h : Nat) : Nat := h / 2 ^ 53 % 8

/-- The type code of parameter 2: bits 52..50 (R101). -/
def headerType2 (h : Nat) : Nat := h / 2 ^ 50 % 8

/-- The type code of parameter 3: bits 49..47 (R101). -/
def headerType3 (h : Nat) : Nat := h / 2 ^ 47 % 8

/-- The operand size of a header word, from its two-bit size field (R103); the bits of no field are ignored (R104). -/
def headerSize (e : Encoding) (h : Nat) : Size := sizeOfCode e (h / 2 ^ e.sizeShift % 4)

/-- The parameters of a form, in order (R130). -/
def decForm (e : Encoding) (rd : FetchReader) (h : Nat) : OpForm → Decoder Instr
  | .p0 mk => decPure (mk (headerSize e h))
  | .p1 r1 mk =>
    decThen (decParam e rd (headerSize e h) r1 (headerType1 h)) fun a =>
    decPure (mk (headerSize e h) a)
  | .p2 r1 r2 mk =>
    decThen (decParam e rd (headerSize e h) r1 (headerType1 h)) fun a =>
    decThen (decParam e rd (headerSize e h) r2 (headerType2 h)) fun b =>
    decPure (mk (headerSize e h) a b)
  | .p3 r1 r2 r3 mk =>
    decThen (decParam e rd (headerSize e h) r1 (headerType1 h)) fun a =>
    decThen (decParam e rd (headerSize e h) r2 (headerType2 h)) fun b =>
    decThen (decParam e rd (headerSize e h) r3 (headerType3 h)) fun d =>
    decPure (mk (headerSize e h) a b d)

/-- `decode` (R130): total on every instruction stream. -/
def decodeWith (e : Encoding) (rd : FetchReader) : Decoder Instr :=
  decThen (decFetch rd 8) fun h =>
    match opOfCode e (headerOpcode h) with
    | none => decFail .unknownOpcode
    | some o => decForm e rd h o.form

/-- Bytes as an instruction stream; a fetch that runs past their end yields 0, as past the end of Memory. -/
def bytesReader (bs : List Byte) : FetchReader := fun off n =>
  if off + n ≤ bs.length then beNat ((bs.drop off).take n) else 0

/-- Decoding of any bytes: an instruction, or a fault by name. -/
def decodeBytes (e : Encoding) (bs : List Byte) : Except DecodeFault Instr :=
  (decodeWith e (bytesReader bs) cursorStart).1

/-! ## Lengths (R108) -/

/-- The length of a sub-parameter in bytes. -/
def subLength (e : Encoding) (z : Size) : Sub → Nat
  | .sreg _ => e.registerSize.bytes
  | .slit _ => z.bytes

/-- The length of a sub-parameter that may be absent. -/
def optSubLength (e : Encoding) (z : Size) : Option Sub → Nat
  | none => 0
  | some u => subLength e z u

/-- The length of the payload of a calculated parameter. -/
def calcLength (e : Encoding) (z : Size) (c : Calc) : Nat :=
  e.layout.descriptorSize.bytes + subLength e z c.base + optSubLength e z c.index + optSubLength e z c.scale
    + optSubLength e z c.offset

/-- The length of a parameter's payload. -/
def paramLength (e : Encoding) (z : Size) : Param → Nat
  | .reg _ => e.registerSize.bytes
  | .rega _ => e.registerSize.bytes
  | .lit _ => z.bytes
  | .lita _ => z.bytes
  | .stk => 0
  | .calca c => calcLength e z c
  | .calcl c => calcLength e z c

/-- The summed payload lengths of parameters. -/
def paramsLength (e : Encoding) (z : Size) : List Param → Nat
  | [] => 0
  | p :: ps => paramLength e z p + paramsLength e z ps

/-- The length `L` of an instruction in bytes (R108). -/
def instrLength (e : Encoding) (i : Instr) : Nat := 8 + paramsLength e i.size i.params

/-- The longest instruction in bytes (R113): three calculated parameters, each of four literals of the greatest size. -/
def longestLength (e : Encoding) : Nat := 8 + 3 * (e.layout.descriptorSize.bytes + 4 * Size.eight.bytes)

/-! ## The fetches of an instruction (R71, R130) -/

/-- The fetch accesses of given lengths, one after the other from an offset on, as (offset, length). -/
def fetchesAt (pos : Nat) : List Nat → List (Nat × Nat)
  | [] => []
  | n :: ns => (pos, n) :: fetchesAt (pos + n) ns

/-- The lengths of the fetches of a sub-parameter that may be absent: one fetch where it is present. -/
def optSubFetches (e : Encoding) (z : Size) : Option Sub → List Nat
  | none => []
  | some u => [subLength e z u]

/-- The lengths of the fetches of one component of a calculated parameter. -/
def partFetches (e : Encoding) (z : Size) (c : Calc) : CalcPart → List Nat
  | .base => [subLength e z c.base]
  | .index => optSubFetches e z c.index
  | .scale => optSubFetches e z c.scale
  | .offset => optSubFetches e z c.offset

/-- The lengths of the fetches of a parameter: a register number, a constant, or the descriptor and each component. -/
def paramFetches (e : Encoding) (z : Size) : Param → List Nat
  | .reg _ => [e.registerSize.bytes]
  | .rega _ => [e.registerSize.bytes]
  | .lit _ => [z.bytes]
  | .lita _ => [z.bytes]
  | .stk => []
  | .calca c => e.layout.descriptorSize.bytes :: e.layout.order.flatMap (partFetches e z c)
  | .calcl c => e.layout.descriptorSize.bytes :: e.layout.order.flatMap (partFetches e z c)

/-- The fetches of an instruction as (offset, length): the header, then each parameter's (R130). -/
def instrFetches (e : Encoding) (i : Instr) : List (Nat × Nat) :=
  fetchesAt 0 (8 :: i.params.flatMap (paramFetches e i.size))

/-! ## The encoder (R114) -/

/-- The bytes of a sub-parameter (R112). -/
def encodeSub (e : Encoding) (z : Size) : Sub → List Byte
  | .sreg r => beBytes e.registerSize.bytes (regNumber e r)
  | .slit v => beBytes z.bytes v.toNat

/-- The bytes of a sub-parameter that may be absent. -/
def encodeOptSub (e : Encoding) (z : Size) : Option Sub → List Byte
  | none => []
  | some u => encodeSub e z u

/-- The kind of a sub-parameter (R111): false a register, true a literal. -/
def Sub.isLiteral : Sub → Bool
  | .sreg _ => false
  | .slit _ => true

/-- The kind bit of a component that may be absent: 0 when it is (R111). -/
def DescriptorBit.kind (b : DescriptorBit) : Option Sub → Bool
  | none => false
  | some u => u.isLiteral == b.value

/-- A bit of a number at a place. -/
def bitAt (b : Bool) (place : Nat) : Nat := if b then 2 ^ place else 0

/-- The descriptor of a calculated parameter (R111); a bit of a wider descriptor that is no flag is 0. -/
def descriptor (l : CalcLayout) (c : Calc) : Nat :=
  bitAt (decide (c.sign = .minus) == l.sign.value) l.sign.place
    ||| bitAt (c.index.isSome == l.indexPresent.value) l.indexPresent.place
    ||| bitAt (c.scale.isSome == l.scalePresent.value) l.scalePresent.place
    ||| bitAt (c.offset.isSome == l.offsetPresent.value) l.offsetPresent.place
    ||| bitAt (l.baseKind.kind (some c.base)) l.baseKind.place ||| bitAt (l.indexKind.kind c.index) l.indexKind.place
    ||| bitAt (l.scaleKind.kind c.scale) l.scaleKind.place ||| bitAt (l.offsetKind.kind c.offset) l.offsetKind.place

/-- The bytes of one component of a calculated parameter. -/
def encodePart (e : Encoding) (z : Size) (c : Calc) : CalcPart → List Byte
  | .base => encodeSub e z c.base
  | .index => encodeOptSub e z c.index
  | .scale => encodeOptSub e z c.scale
  | .offset => encodeOptSub e z c.offset

/-- The bytes of a calculated parameter (R111). -/
def encodeCalc (e : Encoding) (z : Size) (c : Calc) : List Byte :=
  beBytes e.layout.descriptorSize.bytes (descriptor e.layout c) ++ e.layout.order.flatMap (encodePart e z c)

/-- The payload bytes of a parameter (R107, R109 to R111). -/
def encodeParam (e : Encoding) (z : Size) : Param → List Byte
  | .reg r => beBytes e.registerSize.bytes (regNumber e r)
  | .rega r => beBytes e.registerSize.bytes (regNumber e r)
  | .lit v => beBytes z.bytes v.toNat
  | .lita v => beBytes z.bytes v.toNat
  | .stk => []
  | .calca c => encodeCalc e z c
  | .calcl c => encodeCalc e z c

/-- The payload bytes of parameters, parameter 1 first (R100). -/
def encodeParams (e : Encoding) (z : Size) : List Param → List Byte
  | [] => []
  | p :: ps => encodeParam e z p ++ encodeParams e z ps

/-- The type code in the n-th type field: 0 where the parameter is absent (R104). -/
def typeField (e : Encoding) : List Param → Nat → Nat
  | [], _ => 0
  | p :: _, 0 => typeNumber e p.type
  | _ :: ps, n + 1 => typeField e ps n

/-- The header word (R101, R103, R104). -/
def headerWord (e : Encoding) (i : Instr) : Nat :=
  opcodeOf e i * 2 ^ 56 + typeField e i.params 0 * 2 ^ 53 + typeField e i.params 1 * 2 ^ 50
    + typeField e i.params 2 * 2 ^ 47 + sizeCode e i.size * 2 ^ e.sizeShift

/-- `encode` (R114): the header of R101 to R104, big-endian (R102), then the payloads. -/
def encode (e : Encoding) (i : Instr) : List Byte :=
  beBytes 8 (headerWord e i) ++ encodeParams e i.size i.params

/-! ## The opcode table's numbering (assumption 17) -/

/-- Consecutive 64-bit words of a number, least significant word first, each stored big-endian. -/
def wordsBytes : Nat → Nat → List Byte
  | 0, _ => []
  | n + 1, w => beBytes 8 (w % 2 ^ 64) ++ wordsBytes n (w / 2 ^ 64)

/-- The bytes of an instruction whose bits are the low `nbits` bits of `w`, numbered as spec/opcode_table.json numbers
them (bit 0 the least significant bit of the header word), every bit above `nbits` zero, up to the longest instruction. -/
def tableBytes (e : Encoding) (nbits w : Nat) : List Byte :=
  (wordsBytes 16 (w % 2 ^ nbits)).take (longestLength e)

/-- The instruction the decoder reads, with the spec's numbers, from an instruction whose bits are `w`, numbered as the
opcode table does. -/
def decodeTableWord (nbits w : Nat) : Option Instr :=
  match decodeBytes standardEncoding (tableBytes standardEncoding nbits w) with
  | .ok i => some i
  | .error _ => none

end Sys2Proof
end

