-- ==== Sys2Proof/Machine/Platform.lean ====
section
/-!
DEFINITION. The default platform (spec/00_scope.md R6), the device registry's operations (10_state.md R36, 20_memory.md
R76) and routing (R79).
-/

namespace Sys2Proof.Machine

/-- The device with an id, if one is registered (R76). -/
def registryFind (dev : Nat) : Registry → Option Device
  | [] => none
  | (k, d) :: rest => if k = dev then some d else registryFind dev rest

/-- Registration: it "fails if the id is already present" (R36). -/
def registryAdd (dev : Nat) (d : Device) (reg : Registry) : Option Registry :=
  match registryFind dev reg with
  | some _ => none
  | none => some (reg ++ [(dev, d)])

/-- "device ids are unique within a Bus Controller" (R36). -/
def registryUnique : Registry → Bool
  | [] => true
  | (k, _) :: rest => (registryFind k rest).isNone && registryUnique rest

/-- The default values of R6 and the numbers of R7 (the causes': spec/60_exceptions.md R355); `MEM_SIZE` is the test vectors'
(assumption 1). -/
def standardPlatform : Platform where
  encoding := standardEncoding
  causes := ⟨0, 1, 2⟩
  memSize := 0x10000
  entry := 0
  route := ⟨[], 48⟩
  memId := 0
  registry :=
    [(0, .memory), (1, .processor), (2, .interruptController), (3, .configuration), (4, .bootManager)]
  protectedCauses := [0, 1, 2]
  quantum := 50
  cfgWriteQuirk := false

/-- What a platform must satisfy before Start (R400): unique ids (R36), Memory registered under `MEM_ID`, an admissible
encoding (R7), and `1 <= MEM_SIZE`, at most the split range where the split alone routes (R6, R79).

Two points are the model's own choice.  DESIGN CHOICE (assumption 23): R36 asks unique ids and no more, so Memory may be
registered under a second id as well; an instruction routed there takes Memory's 8-byte word path, of which R83 says that the
instruction set never uses it.  DEDUCED (assumption 24): the spec states no upper bound of `MEM_SIZE` under a Route with
windows; the model asks `MEM_SIZE <= 2^64` under every Route, so that an access running past `2^64` is out of range, as R61's
parenthesis says. -/
def platformOk (p : Platform) : Bool :=
  registryUnique p.registry && decide (registryFind p.memId p.registry = some .memory) && decide (1 ≤ p.memSize)
    && decide (p.memSize ≤ 2 ^ 64) && p.encoding.ok
    && (!p.route.windows.isEmpty || decide (p.memSize ≤ 2 ^ p.route.splitBit))

/-- `Route` (R79): a data address to (device id, device address); the first window that holds it decides. -/
def routeIn (addr splitBit : Nat) : List Window → Nat × Nat
  | [] => (addr / 2 ^ splitBit, addr % 2 ^ splitBit)
  | w :: ws =>
    if w.base ≤ addr ∧ addr < w.base + w.size then (w.device, w.target + (addr - w.base))
    else routeIn addr splitBit ws

/-- `Route(addr)` of a platform (R79). -/
def routeOf (p : Platform) (addr : Word) : Nat × Nat :=
  routeIn addr.toNat p.route.splitBit p.route.windows

end Sys2Proof.Machine
end

