-- ==== Sys2Proof/Machine/State.lean ====
section
/-!
DEFINITION. The state of the machine (spec/10_state.md), its value after reset (R39), and the reasons a step can stop.
-/

namespace Sys2Proof.Machine

/-- Why the machine stops with a fault.  It has no constructor: every fault of this hardware is a cause put into the
queue (spec/60_exceptions.md R350, "no host-level exception channel"), after which the machine goes on. -/
inductive Fault where
deriving DecidableEq, Repr

/-- Why an instruction has no meaning. -/
inductive Refusal where
  /-- An instruction that has no meaning yet, by its mnemonic; raised by `exec`'s arm alone.  Safe: the run stops. -/
  | notModelled (mnemonic : String)
  /-- An instruction value with a literal or a calculated literal in a destination position, which no encoding produces
  (R132, R170: "cannot occur"); raised by the meanings that write a destination.  Safe: the run stops, and no `step`
  reaches it (assumption 13). -/
  | immediateDestination
deriving DecidableEq, Repr

/-- The host-visible events the block produces (spec/60_exceptions.md R405); neither carries data. -/
inductive HostEvent where
  /-- PAU's breakpoint event (R342). -/
  | breakpoint
  /-- HLT's request to wait one quantum (R227). -/
  | quantumWait
deriving DecidableEq, Repr

/-- Memory's content as (address, byte) pairs, addresses rising, no byte 0 listed: an unlisted address reads as 0, the
reset content of R39. -/
abbrev Memory := List Host.Cell

/-- The machine (spec/10_state.md). -/
structure State where
  /-- `R0` .. `R15` (R21). -/
  gpr : Vector Word 16
  /-- Instruction pointer (R23). -/
  rip : Word
  /-- Stack pointer (R24). -/
  rsp : Word
  /-- Saved instruction pointer (R25). -/
  rsip : Word
  /-- Result/flag register (R26). -/
  rc : Word
  /-- Global interrupt enable (R29). -/
  ie : Bool
  /-- In an ordinary service routine (R30). -/
  isr : Bool
  /-- In a protected service routine (R30). -/
  pisr : Bool
  /-- Started and not stopped (R31). -/
  run : Bool
  /-- PAU was executed and the host has not resumed (R31). -/
  paused : Bool
  /-- `Q`, the pending causes, head first (R32). -/
  queue : List Cause
  /-- `VEC` (R33). -/
  vec : Vector Word 255
  /-- `PROT` (R34). -/
  prot : Byte
  /-- `TICK` (R34). -/
  tick : Byte
  /-- `CACHE_EN` (R34). -/
  cacheEn : Bool
  /-- `MEM` (R35). -/
  mem : Memory
  /-- The host-visible events so far, oldest first (the model's own record of R405's outputs; assumption 11). -/
  events : List HostEvent
  /-- How many clock words have been drawn (the model's own; assumption 5). -/
  clockDraws : Nat
  /-- How many NaN patterns have been drawn (the model's own; assumption 6). -/
  nanDraws : Nat
  /-- The platform's parameters and the numbers of R7, which no rule changes (R44; assumptions 1 and 7). -/
  platform : Platform
deriving DecidableEq, Repr

/-- The machine of a platform right after reset: the table of R39. -/
def State.resetOn (p : Platform) : State where
  gpr := Vector.replicate 16 0
  rip := p.entry
  rsp := 0
  rsip := 0
  rc := 0
  ie := false
  isr := false
  pisr := false
  run := false
  paused := false
  queue := []
  vec := Vector.replicate 255 0
  prot := 0
  tick := 0
  cacheEn := false
  mem := []
  events := []
  clockDraws := 0
  nanDraws := 0
  platform := p

/-- The machine right after reset, on the default platform (R39). -/
def State.reset : State := State.resetOn standardPlatform

end Sys2Proof.Machine
end

