-- ==== Sys2Proof/Machine/Ops.lean ====
section
/-!
DEFINITION. The named operations over registers, memory, the bus, the interrupt queue and the control flags, and taking
and returning from an interrupt (spec/10_state.md, 20_memory.md, 60_exceptions.md).
-/

namespace Sys2Proof.Machine

/-! ## Registers (R20) -/

/-- `x[r]`: the whole 64-bit content. -/
def State.getReg (s : State) : Reg → Word
  | .gpr n => s.gpr[n]
  | .rip => s.rip
  | .rsp => s.rsp
  | .rsip => s.rsip
  | .rc => s.rc

/-- `x[r] <- v`: the whole register is replaced. -/
def State.setReg (s : State) (r : Reg) (v : Word) : State :=
  match r with
  | .gpr n => { s with gpr := s.gpr.set n v }
  | .rip => { s with rip := v }
  | .rsp => { s with rsp := v }
  | .rsip => { s with rsip := v }
  | .rc => { s with rc := v }

/-! ## Single-field updates -/

/-- `IE <- b` (R29). -/
def State.setIe (s : State) (b : Bool) : State := { s with ie := b }

/-- Both service-routine flags (R30). -/
def State.setService (s : State) (isr pisr : Bool) : State := { s with isr := isr, pisr := pisr }

/-- `RUN <- b` (R31). -/
def State.setRun (s : State) (b : Bool) : State := { s with run := b }

/-- `PAUSED <- b` (R31). -/
def State.setPaused (s : State) (b : Bool) : State := { s with paused := b }

/-- `Q <- q` (R32). -/
def State.setQueue (s : State) (q : List Cause) : State := { s with queue := q }

/-- `VEC[c] <- w` (R33). -/
def State.setVec (s : State) (c : Cause) (w : Word) : State := { s with vec := s.vec.set c w }

/-- `PROT <- b` (R34). -/
def State.setProt (s : State) (b : Byte) : State := { s with prot := b }

/-- `TICK <- b` (R34). -/
def State.setTick (s : State) (b : Byte) : State := { s with tick := b }

/-- `CACHE_EN <- b` (R34). -/
def State.setCacheEn (s : State) (b : Bool) : State := { s with cacheEn := b }

/-- The Memory device's content becomes `m` (R35). -/
def State.setMem (s : State) (m : Memory) : State := { s with mem := m }

/-- A host-visible event is produced (R405). -/
def State.emit (s : State) (e : HostEvent) : State := { s with events := s.events ++ [e] }

/-- One clock word has been drawn (R341). -/
def State.countClock (s : State) : State := { s with clockDraws := s.clockDraws + 1 }

/-- One NaN pattern has been drawn (R271). -/
def State.countNan (s : State) : State := { s with nanDraws := s.nanDraws + 1 }

/-! ## Causes (R355, R356, R360) -/

/-- `Enqueue(c)`: append at the tail, whatever IE is (R356). -/
def State.enqueue (s : State) (c : Cause) : State := { s with queue := s.queue ++ [c] }

/-- `raise X`: `Enqueue(number of X)` and nothing else (R360), with the platform's number (R7, R355). -/
def State.raise (s : State) (x : CauseName) : State := s.enqueue (s.platform.causes.number x)

/-! ## Memory as a list (R35, R39) -/

/-- The byte at an address; an unlisted address reads as 0 (R39). -/
def memGet : Memory → Nat → Byte
  | [], _ => 0
  | (k, b) :: rest, a => if k = a then b else memGet rest a

/-- The byte at an address replaced, in canonical form: the byte 0 is never listed. -/
def memSet : Memory → Nat → Byte → Memory
  | [], a, v => if v = 0 then [] else [(a, v)]
  | (k, b) :: rest, a, v =>
    if a < k then (if v = 0 then (k, b) :: rest else (a, v) :: (k, b) :: rest)
    else if a = k then (if v = 0 then rest else (a, v) :: rest)
    else (k, b) :: memSet rest a v

/-- Every address listed lies at or above `lo` and below `hi`, addresses rise, no byte 0 is listed. -/
def memWfFrom (lo hi : Nat) : Memory → Bool
  | [] => true
  | (k, b) :: rest => decide (lo ≤ k) && decide (k < hi) && decide (b ≠ 0) && memWfFrom (k + 1) hi rest

/-- The canonical form of the content of a Memory device of `size` bytes. -/
def Memory.wf (size : Nat) (m : Memory) : Bool := memWfFrom 0 size m

/-- `n` consecutive bytes from an address upward. -/
def memBytes (m : Memory) (a : Nat) : Nat → List Byte
  | 0 => []
  | n + 1 => memGet m a :: memBytes m (a + 1) n

/-- Consecutive bytes stored from an address upward. -/
def memStore (m : Memory) (a : Nat) : List Byte → Memory
  | [] => m
  | b :: bs => memStore (memSet m a b) (a + 1) bs

/-! ## The Memory device (R61 to R64) -/

/-- An access of `n` bytes at `a` is in range (R61), over the unbounded integers. -/
def State.inRange (s : State) (a n : Nat) : Bool := decide (a + n ≤ s.platform.memSize)

/-- The value part of `MemDevRead(a, n)`: big-endian, 0 when out of range (R62, R63). -/
def State.memDevValue (s : State) (a n : Nat) : Nat :=
  if s.inRange a n then beNat (memBytes s.mem a n) else 0

/-- `MemDevRead(a, n)` (R63): the value and, out of range, one HardwareFault. -/
def State.memDevRead (s : State) (a n : Nat) : Word × State :=
  if s.inRange a n then (BitVec.ofNat 64 (beNat (memBytes s.mem a n)), s)
  else (0, s.raise .hardwareFault)

/-- `MemDevWrite(a, n, v)` (R64): out of range nothing is written and HardwareFault is raised once. -/
def State.memDevWrite (s : State) (a n v : Nat) : State :=
  if s.inRange a n then s.setMem (memStore s.mem a (beBytes n v))
  else s.raise .hardwareFault

/-! ## The Processor-Configuration device (R388 to R394) -/

/-- The vector table entry that a configuration address names: `0x100 .. 0x1FE` (R392). -/
def vecSlot (k : Nat) : Option Cause :=
  if h : 0x100 ≤ k ∧ k ≤ 0x1FE then some ⟨k - 0x100, by omega⟩ else none

/-- `ReadWord(k)` of the configuration device (R390). -/
def State.cfgRead (s : State) (k : Nat) : Word × State :=
  if k = 0 then (s.prot.setWidth 64, s)
  else if k = 1 then (s.tick.setWidth 64, s)
  else if k = 2 then (if s.cacheEn then 1 else 0, s)
  else match vecSlot k with
    | some c => (s.vec[c], s)
    | none => (0, s.raise .hardwareFault)

/-- `WriteWord(k, w)` of the configuration device (R391). -/
def State.cfgWrite (s : State) (k : Nat) (w : Word) : State :=
  if k = 0 then s.setProt (w.setWidth 8)
  else if k = 1 then (if s.platform.cfgWriteQuirk then s else s.setTick (w.setWidth 8))
  else if k = 2 then (if s.platform.cfgWriteQuirk then s else s.setCacheEn (decide (w ≠ 0)))
  else match vecSlot k with
    | some c => s.setVec c w
    | none => s.raise .hardwareFault

/-! ## The Bus Controller (R75 to R77, R83) -/

/-- `BusRead(dev, off)` (R76): a word from the device registered under `dev`.  Memory answers 8 bytes at a byte address
(R83), to the host, and to an instruction only where it stands under a second id (assumption 23); the Processor, the Interrupt Controller and the Boot Manager answer every address as out of range (R77). -/
def State.busRead (s : State) (dev off : Nat) : Word × State :=
  match registryFind dev s.platform.registry with
  | some .memory => s.memDevRead off 8
  | some .configuration => s.cfgRead off
  | some .processor => (0, s.raise .hardwareFault)
  | some .interruptController => (0, s.raise .hardwareFault)
  | some .bootManager => (0, s.raise .hardwareFault)
  | none => (0, s.raise .hardwareFault)

/-- `BusWrite(dev, off, w)` (R76). -/
def State.busWrite (s : State) (dev off : Nat) (w : Word) : State :=
  match registryFind dev s.platform.registry with
  | some .memory => s.memDevWrite off 8 w.toNat
  | some .configuration => s.cfgWrite off w
  | some .processor => s.raise .hardwareFault
  | some .interruptController => s.raise .hardwareFault
  | some .bootManager => s.raise .hardwareFault
  | none => s.raise .hardwareFault

/-! ## Data accesses (R66, R80, R81) -/

/-- The low `s` bytes of a word, zero-extended (R66). -/
def truncTo (z : Size) (v : Word) : Word := BitVec.ofNat 64 (v.toNat % 2 ^ z.bits)

/-- `MemRead(addr, n)` (R80). -/
def State.dataRead (s : State) (addr : Word) (z : Size) : Word × State :=
  if (routeOf s.platform addr).1 = s.platform.memId then s.memDevRead (routeOf s.platform addr).2 z.bytes
  else
    (truncTo z (s.busRead (routeOf s.platform addr).1 (routeOf s.platform addr).2).1,
      (s.busRead (routeOf s.platform addr).1 (routeOf s.platform addr).2).2)

/-- `MemWrite(addr, n, v)` (R81). -/
def State.dataWrite (s : State) (addr : Word) (z : Size) (v : Word) : State :=
  if (routeOf s.platform addr).1 = s.platform.memId then
    s.memDevWrite (routeOf s.platform addr).2 z.bytes (v.toNat % 2 ^ z.bits)
  else s.busWrite (routeOf s.platform addr).1 (routeOf s.platform addr).2 (truncTo z v)

/-! ## The stack (R24, R165, R175) -/

/-- The size of an operand as a word, for RSP's arithmetic modulo `2^64`. -/
def sizeWord (z : Size) : Word := BitVec.ofNat 64 z.bytes

/-- Pop: load at RSP, then add `s` to RSP (R165). -/
def State.pop (s : State) (z : Size) : Word × State :=
  ((s.dataRead s.rsp z).1, (s.dataRead s.rsp z).2.setReg .rsp (s.rsp + sizeWord z))

/-- Push: subtract `s` from RSP, then store at the new RSP (R175). -/
def State.push (s : State) (z : Size) (v : Word) : State :=
  (s.setReg .rsp (s.rsp - sizeWord z)).dataWrite (s.rsp - sizeWord z) z v

/-! ## Step 4 (R155) -/

/-- `L`, the length of an instruction in the platform's encoding (30_encoding.md R108). -/
def State.lengthOf (s : State) (i : Instr) : Nat := instrLength s.platform.encoding i

/-- `RIP <- (RIP + L) mod 2^64`, on the value RIP holds at step 4. -/
def State.advance (s : State) (len : Nat) : State := s.setReg .rip (s.rip + BitVec.ofNat 64 len)

/-! ## Taking an interrupt, and returning (R370, R224) -/

/-- A cause is of the protected class (R374). -/
def State.isProtected (s : State) (c : Cause) : Bool := s.platform.protectedCauses.contains c

/-- Dispatch of cause `c`, already removed from the queue: RSIP saves RIP, the flag of the cause's class is set and the
other left, RIP becomes the vector (R370 to R373). -/
def State.takeInterrupt (s : State) (c : Cause) : State :=
  { s with
    rsip := s.rip
    pisr := s.pisr || s.isProtected c
    isr := s.isr || !s.isProtected c
    rip := s.vec[c] }

/-- The dispatch check, step 5 of every cycle (R370): at most one cause, only with `IE = 1` and `PISR = 0`. -/
def State.dispatchCheck (s : State) : State :=
  if s.ie && !s.pisr then
    match s.queue with
    | [] => s
    | c :: rest => (s.setQueue rest).takeInterrupt c
  else s

/-- The return from a service routine (R224): RIP from RSIP, both flags cleared, no other state. -/
def State.returnFromInterrupt (s : State) : State :=
  (s.setReg .rip s.rsip).setService false false

/-- A decode fault in place of steps 2 to 4 (R152): InvalidInstruction once, RIP past the header word. -/
def State.decodeFault (s : State) : State :=
  (s.raise .invalidInstruction).advance 8

end Sys2Proof.Machine
end

