-- ==== Sys2Proof/Machine/Operands.lean ====
section
/-!
DEFINITION. Operand resolution (step 2) and destination writes (step 3): spec/40_cycle_and_operands.md R158 to R176.
-/

namespace Sys2Proof.Machine

/-- What step 2 computes for a parameter (R158). -/
inductive Locator where
  | reg (r : Reg)
  | mem (addr : Word)
  | stk
  | imm (v : Word)
deriving DecidableEq, Repr

/-- The value of a sub-parameter: a register's 64 bits or a constant (R167, R168). -/
def State.subValue (s : State) : Sub → Word
  | .sreg r => s.getReg r
  | .slit v => v

/-- A sub-parameter that may be absent, with the value its absence stands for (R167). -/
def State.optSubValue (s : State) (absent : Word) : Option Sub → Word
  | none => absent
  | some u => s.subValue u

/-- The effective value `base + index*scale`, plus or minus the offset, modulo `2^64` (R167). -/
def State.effective (s : State) (c : Calc) : Word :=
  match c.sign with
  | .plus => s.subValue c.base + s.optSubValue 0 c.index * s.optSubValue 1 c.scale + s.optSubValue 0 c.offset
  | .minus => s.subValue c.base + s.optSubValue 0 c.index * s.optSubValue 1 c.scale - s.optSubValue 0 c.offset

/-- The locator of a parameter, from the registers as they are now (R158). -/
def State.locate (s : State) : Param → Locator
  | .reg r => .reg r
  | .rega r => .mem (s.getReg r)
  | .lit v => .imm v
  | .lita v => .mem v
  | .stk => .stk
  | .calca c => .mem (s.effective c)
  | .calcl c => .imm (s.effective c)

/-- `src(k)` by locator, with the state after the read: a pop moves RSP, a faulting access is enqueued (R160 to R165). -/
def State.readLoc (s : State) (z : Size) : Locator → Word × State
  | .reg r => (s.getReg r, s)
  | .mem addr => s.dataRead addr z
  | .imm v => (v, s)
  | .stk => s.pop z

/-- A source parameter resolved: its value and the state after it (R158, R160). -/
def State.readParam (s : State) (z : Size) (p : Param) : Word × State := s.readLoc z (s.locate p)

/-- `dst(k) <- v` by locator (R170 to R175).  An immediate "cannot occur": the meanings refuse it before (R132). -/
def State.writeLoc (s : State) (z : Size) (l : Locator) (v : Word) : State :=
  match l with
  | .reg r => s.setReg r v
  | .mem addr => s.dataWrite addr z v
  | .stk => s.push z v
  | .imm _ => s

/-- What a handler hands to step 3's end: the state after its flag update and its Enqueue (R172), and the word it
writes to the destination, if it writes one (R246: a division by zero writes none). -/
abbrev Handled := State × Option Word

/-- The destination write of a handler, if it makes one. -/
def finishWrite (z : Size) (l : Locator) (h : Handled) : State :=
  match h.2 with
  | some v => h.1.writeLoc z l v
  | none => h.1

/-- Steps 2 to 4 of an instruction with roles `s,d`: parameter 1 read, parameter 2 located, the handler, the destination
write, RIP advanced by `len` (R150, R158, R172). -/
def runUnary (z : Size) (p1 p2 : Param) (len : Nat) (h : Word → State → Handled) (s : State) :
    Host.Outcome State Fault Refusal :=
  if p2.writable then
    let r1 := s.readParam z p1
    let l2 := r1.2.locate p2
    .next ((finishWrite z l2 (h r1.1 r1.2)).advance len)
  else .refused .immediateDestination

/-- Steps 2 to 4 of an instruction with roles `s,s,d`. -/
def runBinary (z : Size) (p1 p2 p3 : Param) (len : Nat) (h : Word → Word → State → Handled) (s : State) :
    Host.Outcome State Fault Refusal :=
  if p3.writable then
    let r1 := s.readParam z p1
    let r2 := r1.2.readParam z p2
    let l3 := r2.2.locate p3
    .next ((finishWrite z l3 (h r1.1 r2.1 r2.2)).advance len)
  else .refused .immediateDestination

end Sys2Proof.Machine
end

