-- ==== Sys2Proof/Machine/Bitwise.lean ====
section
/-!
DEFINITION. Bitwise operations: AND, OR, XOR, NAND, NOR, NXOR, NOT (spec/46_bitwise_shift.md R290 to R297).  Each is over all
64 bits of the resolved words, with no reduction to the declared size, and leaves RC alone (R290).
-/

namespace Sys2Proof.Machine

/-- A handler that only computes a word from both values. -/
def pureBinary (f : Word → Word → Word) (a b : Word) (s : State) : Handled := (s, some (f a b))

/-- AND (R291). -/
def execAnd (z : Size) (p1 p2 p3 : Param) (s : State) : Host.Outcome State Fault Refusal :=
  runBinary z p1 p2 p3 (s.lengthOf (.and z p1 p2 p3)) (pureBinary fun a b => a &&& b) s

/-- OR (R292). -/
def execOr (z : Size) (p1 p2 p3 : Param) (s : State) : Host.Outcome State Fault Refusal :=
  runBinary z p1 p2 p3 (s.lengthOf (.or z p1 p2 p3)) (pureBinary fun a b => a ||| b) s

/-- XOR (R293). -/
def execXor (z : Size) (p1 p2 p3 : Param) (s : State) : Host.Outcome State Fault Refusal :=
  runBinary z p1 p2 p3 (s.lengthOf (.xor z p1 p2 p3)) (pureBinary fun a b => a ^^^ b) s

/-- NAND (R294). -/
def execNand (z : Size) (p1 p2 p3 : Param) (s : State) : Host.Outcome State Fault Refusal :=
  runBinary z p1 p2 p3 (s.lengthOf (.nand z p1 p2 p3)) (pureBinary fun a b => ~~~(a &&& b)) s

/-- NOR (R295). -/
def execNor (z : Size) (p1 p2 p3 : Param) (s : State) : Host.Outcome State Fault Refusal :=
  runBinary z p1 p2 p3 (s.lengthOf (.nor z p1 p2 p3)) (pureBinary fun a b => ~~~(a ||| b)) s

/-- NXOR (R296). -/
def execNxor (z : Size) (p1 p2 p3 : Param) (s : State) : Host.Outcome State Fault Refusal :=
  runBinary z p1 p2 p3 (s.lengthOf (.nxor z p1 p2 p3)) (pureBinary fun a b => ~~~(a ^^^ b)) s

/-- NOT (R297). -/
def execNot (z : Size) (p1 p2 : Param) (s : State) : Host.Outcome State Fault Refusal :=
  runUnary z p1 p2 (s.lengthOf (.not z p1 p2)) (fun a s => (s, some (~~~a))) s

end Sys2Proof.Machine
end

