-- ==== Sys2Proof/Machine/Flags.lean ====
section
/-!
DEFINITION. The machine's one condition flag, RC (spec/10_state.md R26, R27): when hardware sets it, and the carry it
stands for.  Hardware never clears it.
-/

namespace Sys2Proof.Machine

/-- `if cond: RC <- ALL1`, with no else (R240). -/
def State.setRcIf (s : State) (cond : Bool) : State :=
  if cond then s.setReg .rc allOnes else s

/-- The carry or borrow that RC stands for: 1 iff RC is `ALL1`, every other word counts as 0 (R28, R243). -/
def State.carry (s : State) : Nat := if s.rc = allOnes then 1 else 0

/-- ADD's condition (R241): the true sum exceeds the mask. -/
def addOverflows (z : Size) (a b : Word) : Bool := decide (z.mask < a.toNat + b.toNat)

/-- SUB's borrow (R242): `a > b`. -/
def subBorrows (a b : Word) : Bool := decide (b.toNat < a.toNat)

/-- ADC's and SBB's first test (R243, R244): the carry is 1 and alone takes `a` past the mask. -/
def carryOverflows (z : Size) (c : Nat) (a : Word) : Bool := decide (c = 1) && decide (z.mask < a.toNat + 1)

/-- ADC's condition after the carry is added to `a` (R243). -/
def adcOverflows (z : Size) (c : Nat) (a b : Word) : Bool := decide (z.mask < a.toNat + c + b.toNat)

/-- SBB's borrow after the carry is added to `a` (R244). -/
def sbbBorrows (c : Nat) (a b : Word) : Bool := decide (b.toNat < a.toNat + c)

/-- MUL's condition (R245): the true product exceeds the mask. -/
def mulOverflows (z : Size) (a b : Word) : Bool := decide (z.mask < a.toNat * b.toNat)

/-- INC's condition (R248). -/
def incOverflows (z : Size) (a : Word) : Bool := decide (z.mask < a.toNat + 1)

/-- DEC's condition (R249). -/
def decBorrows (a : Word) : Bool := decide (a.toNat = 0)

end Sys2Proof.Machine
end

