-- ==== Sys2Proof/Machine/Compare.lean ====
section
/-!
DEFINITION. Comparisons: GT, GTE, LT, LTE, EQ, NEQ (spec/47_comparison.md).  The relation is `b <op> a`, unsigned, on the
whole resolved words (R320).
-/

namespace Sys2Proof.Machine

/-- A comparison's handler (R320): RC is set when the relation holds and left alone when not; the result is `ALL1` or 0. -/
def compareHandler (t : Word → Word → Bool) (a b : Word) (s : State) : Handled :=
  (s.setRcIf (t a b), some (if t a b then allOnes else 0))

/-- GT (R321). -/
def execGt (z : Size) (p1 p2 p3 : Param) (s : State) : Host.Outcome State Fault Refusal :=
  runBinary z p1 p2 p3 (s.lengthOf (.gt z p1 p2 p3)) (compareHandler fun a b => decide (a.toNat < b.toNat)) s

/-- GTE (R322). -/
def execGte (z : Size) (p1 p2 p3 : Param) (s : State) : Host.Outcome State Fault Refusal :=
  runBinary z p1 p2 p3 (s.lengthOf (.gte z p1 p2 p3)) (compareHandler fun a b => decide (a.toNat ≤ b.toNat)) s

/-- LT (R323). -/
def execLt (z : Size) (p1 p2 p3 : Param) (s : State) : Host.Outcome State Fault Refusal :=
  runBinary z p1 p2 p3 (s.lengthOf (.lt z p1 p2 p3)) (compareHandler fun a b => decide (b.toNat < a.toNat)) s

/-- LTE (R324). -/
def execLte (z : Size) (p1 p2 p3 : Param) (s : State) : Host.Outcome State Fault Refusal :=
  runBinary z p1 p2 p3 (s.lengthOf (.lte z p1 p2 p3)) (compareHandler fun a b => decide (b.toNat ≤ a.toNat)) s

/-- EQ (R325). -/
def execEq (z : Size) (p1 p2 p3 : Param) (s : State) : Host.Outcome State Fault Refusal :=
  runBinary z p1 p2 p3 (s.lengthOf (.eq z p1 p2 p3)) (compareHandler fun a b => decide (b = a)) s

/-- NEQ (R326). -/
def execNeq (z : Size) (p1 p2 p3 : Param) (s : State) : Host.Outcome State Fault Refusal :=
  runBinary z p1 p2 p3 (s.lengthOf (.neq z p1 p2 p3)) (compareHandler fun a b => decide (b ≠ a)) s

end Sys2Proof.Machine
end

