-- ==== Sys2Proof/Machine/Control.lean ====
section
/-!
DEFINITION. Control transfer: JMP, JZ, JNZ (spec/42_control_transfer.md).  A taken jump sets RIP to the resolved target and
suppresses step 4 (R154, R210).
-/

namespace Sys2Proof.Machine

/-- Steps 2 to 4 of a conditional jump: both parameters are resolved, taken or not (R212, R213). -/
def runJump (z : Size) (p1 p2 : Param) (len : Nat) (taken : Word → Bool) (s : State) : Host.Outcome State Fault Refusal :=
  let r1 := s.readParam z p1
  let r2 := r1.2.readParam z p2
  if taken r1.1 then .next (r2.2.setReg .rip r2.1) else .next (r2.2.advance len)

/-- JMP (R211). -/
def execJmp (z : Size) (p1 : Param) (s : State) : Host.Outcome State Fault Refusal :=
  let r1 := s.readParam z p1
  .next (r1.2.setReg .rip r1.1)

/-- JZ (R212): the test is on the full resolved word. -/
def execJz (z : Size) (p1 p2 : Param) (s : State) : Host.Outcome State Fault Refusal :=
  runJump z p1 p2 (s.lengthOf (.jz z p1 p2)) (fun t => decide (t = 0)) s

/-- JNZ (R213). -/
def execJnz (z : Size) (p1 p2 : Param) (s : State) : Host.Outcome State Fault Refusal :=
  runJump z p1 p2 (s.lengthOf (.jnz z p1 p2)) (fun t => decide (t ≠ 0)) s

end Sys2Proof.Machine
end

