-- ==== Sys2Proof/Machine/DataMovement.lean ====
section
/-!
DEFINITION. Data movement: MOV, XCHG, PUSH, POP (spec/41_data_movement.md).
-/

namespace Sys2Proof.Machine

/-- MOV (R191): the value of parameter 1, not masked, into parameter 2. -/
def execMov (z : Size) (p1 p2 : Param) (s : State) : Host.Outcome State Fault Refusal :=
  runUnary z p1 p2 (s.lengthOf (.mov z p1 p2)) (fun v s => (s, some v)) s

/-- XCHG (R192): both values are read, with their locators, before `dst(1)` and then `dst(2)` is written. -/
def execXchg (z : Size) (p1 p2 : Param) (s : State) : Host.Outcome State Fault Refusal :=
  if p1.writable && p2.writable then
    let l1 := s.locate p1
    let r1 := s.readLoc z l1
    let l2 := r1.2.locate p2
    let r2 := r1.2.readLoc z l2
    .next (((r2.2.writeLoc z l1 r2.1).writeLoc z l2 r1.1).advance (s.lengthOf (.xchg z p1 p2)))
  else .refused .immediateDestination

/-- PUSH (R194): the source is read before RSP moves. -/
def execPush (z : Size) (p1 : Param) (s : State) : Host.Outcome State Fault Refusal :=
  let r1 := s.readParam z p1
  .next ((r1.2.push z r1.1).advance (s.lengthOf (.push z p1)))

/-- POP (R195): the destination is located before RSP moves and written after. -/
def execPop (z : Size) (p1 : Param) (s : State) : Host.Outcome State Fault Refusal :=
  if p1.writable then
    let l1 := s.locate p1
    let r := s.pop z
    .next ((r.2.writeLoc z l1 r.1).advance (s.lengthOf (.pop z p1)))
  else .refused .immediateDestination

end Sys2Proof.Machine
end

