-- ==== Sys2Proof/Machine/Debug.lean ====
section
/-!
DEFINITION. Debug and miscellaneous: DBG, PAU, NOP (spec/48_debug_misc.md).
-/

namespace Sys2Proof.Machine

/-- DBG (R341): a fresh free 64-bit word, drawn from the host's clock, into the destination. -/
def execDbg (z : Size) (p1 : Param) (s : State) : Host.Outcome State Fault Refusal :=
  if p1.writable then
    .next ((s.countClock.writeLoc z (s.locate p1) (Config.clock s.clockDraws)).advance (s.lengthOf (.dbg z p1)))
  else .refused .immediateDestination

/-- PAU (R342): PAUSED is set and the breakpoint event raised; RIP advances. -/
def execPau (z : Size) (s : State) : Host.Outcome State Fault Refusal :=
  .next (((s.setPaused true).emit .breakpoint).advance (s.lengthOf (.pau z)))

/-- NOP (R343): no effect but step 4's. -/
def execNop (z : Size) (s : State) : Host.Outcome State Fault Refusal :=
  .next (s.advance (s.lengthOf (.nop z)))

end Sys2Proof.Machine
end

