-- ==== Sys2Proof/Machine/Float64.lean ====
section
/-!
DEFINITION. IEEE 754 binary64 on bit patterns (spec/45_floating_point.md R270, R271, R277): exact arithmetic on
magnitudes counted in units of `2^-1074`, the least subnormal, and one rounding to nearest, ties to even.
A result of `none` is a NaN, whose pattern the spec leaves free.
-/

namespace Sys2Proof.Machine

/-! ## Patterns (R270) -/

/-- The sign bit. -/
def fSign (w : Word) : Bool := w.getLsbD 63

/-- The biased exponent, bits 62..52. -/
def fExp (w : Word) : Nat := w.toNat / 2 ^ 52 % 2048

/-- The fraction, bits 51..0. -/
def fFrac (w : Word) : Nat := w.toNat % 2 ^ 52

/-- Exponent all ones and a fraction that is not zero (R271). -/
def fIsNaN (w : Word) : Bool := decide (fExp w = 2047) && decide (fFrac w ≠ 0)

/-- Exponent all ones and fraction zero. -/
def fIsInf (w : Word) : Bool := decide (fExp w = 2047) && decide (fFrac w = 0)

/-- The value is zero, of either sign (R276: "true for +0.0 and for -0.0"). -/
def fIsZero (w : Word) : Bool := decide (fExp w = 0) && decide (fFrac w = 0)

/-- The magnitude of a finite pattern in units of `2^-1074`; a subnormal has exponent field 0 and no hidden bit. -/
def fMag (w : Word) : Nat :=
  if fExp w = 0 then fFrac w else (2 ^ 52 + fFrac w) * 2 ^ (fExp w - 1)

/-- The value of a finite pattern in units of `2^-1074`. -/
def fUnits (w : Word) : Int := if fSign w then -(fMag w : Int) else (fMag w : Int)

/-- The same value with the other sign. -/
def fNegate (w : Word) : Word := w ^^^ 0x8000000000000000#64

/-- A pattern from its sign and its low 63 bits. -/
def fPack (neg : Bool) (low : Nat) : Word :=
  BitVec.ofNat 64 ((if neg then 2 ^ 63 else 0) + low)

/-- The low 63 bits of infinity. -/
def fInfLow : Nat := 2047 * 2 ^ 52

/-! ## Rounding (R271: to nearest, ties to even) -/

/-- The integer nearest to `n / d`, the even one of two at the same distance. -/
def roundNearestEven (n d : Nat) : Nat :=
  if 2 * (n % d) < d then n / d
  else if d < 2 * (n % d) then n / d + 1
  else n / d + n / d % 2

/-- How many binary places below the leading 53 of the whole part of `n / d` are dropped. -/
def dropPlaces (n d : Nat) : Nat := (n / d).log2 - 52

/-- The low 63 bits of the pattern nearest to `n / d` units of `2^-1074`: the rounded significand with its hidden bit,
added to the exponent field less one, so that a carry out of the significand steps the exponent, a result below the
least normal number is a subnormal, and one past the greatest finite number is infinity. -/
def roundLow (n d : Nat) : Nat :=
  min (dropPlaces n d * 2 ^ 52 + roundNearestEven n (d * 2 ^ dropPlaces n d)) fInfLow

/-- An exact integer number of units, rounded; `negZero` is the sign of a zero result. -/
def roundUnits (v : Int) (negZero : Bool) : Word :=
  fPack (if v = 0 then negZero else decide (v < 0)) (roundLow v.natAbs 1)

/-! ## The five operations -/

/-- Addition: `inf - inf` is invalid; an exact zero sum is `-0` only if both operands are zeros of sign minus or minus. -/
def fAdd (x y : Word) : Option Word :=
  if fIsNaN x || fIsNaN y then none
  else if fIsInf x then (if fIsInf y && (fSign x != fSign y) then none else some x)
  else if fIsInf y then some y
  else some (roundUnits (fUnits x + fUnits y) (fSign x && fSign y))

/-- Subtraction: addition of the second operand with the other sign. -/
def fSub (x y : Word) : Option Word := fAdd x (fNegate y)

/-- Multiplication: `0 * inf` is invalid; the sign is the exclusive or of the signs. -/
def fMul (x y : Word) : Option Word :=
  if fIsNaN x || fIsNaN y then none
  else if fIsInf x || fIsInf y then
    (if fIsZero x || fIsZero y then none else some (fPack (fSign x != fSign y) fInfLow))
  else some (fPack (fSign x != fSign y) (roundLow (fMag x * fMag y) (2 ^ 1074)))

/-- Division: `inf / inf` and `0 / 0` are invalid; a finite number over infinity is a zero. -/
def fDiv (x y : Word) : Option Word :=
  if fIsNaN x || fIsNaN y then none
  else if fIsInf x then (if fIsInf y then none else some (fPack (fSign x != fSign y) fInfLow))
  else if fIsInf y then some (fPack (fSign x != fSign y) 0)
  else if fIsZero y then (if fIsZero x then none else some (fPack (fSign x != fSign y) fInfLow))
  else some (fPack (fSign x != fSign y) (roundLow (fMag x * 2 ^ 1074) (fMag y)))

/-- The truncated remainder of `x` by `y` (R277), which is exact and has the sign of `x`, a zero too. -/
def fRem (x y : Word) : Option Word :=
  if fIsNaN x || fIsNaN y then none
  else if fIsInf x || fIsZero y then none
  else if fIsInf y then some x
  else some (fPack (fSign x) (roundLow (fMag x % fMag y) 1))

/-- The value of the parameter `FNum` (R6): IEEE 754 binary64. -/
def fnum : FNum where
  add := fAdd
  sub := fSub
  mul := fMul
  div := fDiv
  rem := fRem

/-- A NaN pattern from a raw word: its sign and fraction, the fraction 1 where the raw one is zero.  Every NaN pattern is
such a value of some raw word (R271: a free draw from the set of NaN patterns). -/
def nanFrom (raw : Word) : Word :=
  fPack (fSign raw) (fInfLow + (if fFrac raw = 0 then 1 else fFrac raw))

end Sys2Proof.Machine
end

