-- ==== Sys2Proof/Machine/Floating.lean ====
section
/-!
DEFINITION. Floating point: ADF, SBF, MLF, DVF, MDF (spec/45_floating_point.md).  All 64 bits of each resolved word are
used and all 64 bits of the result handed to the destination (R272); RC is never touched (R278).
-/

namespace Sys2Proof.Machine

/-- What a floating handler writes: the result's pattern, or for a NaN result a freely drawn NaN pattern (R271). -/
def floatResult (s : State) : Option Word → Handled
  | some w => (s, some w)
  | none => (s.countNan, some (nanFrom (Config.nanPattern s.nanDraws)))

/-- ADF's handler (R273). -/
def adfHandler (a b : Word) (s : State) : Handled := floatResult s (fnum.add a b)

/-- SBF's handler (R274): `b - a`. -/
def sbfHandler (a b : Word) (s : State) : Handled := floatResult s (fnum.sub b a)

/-- MLF's handler (R275). -/
def mlfHandler (a b : Word) (s : State) : Handled := floatResult s (fnum.mul a b)

/-- DVF's handler (R276): `b / a`; a divisor of value zero raises DivideByZero and writes nothing. -/
def dvfHandler (a b : Word) (s : State) : Handled :=
  if fIsZero a then (s.raise .divideByZero, none) else floatResult s (fnum.div b a)

/-- MDF's handler (R277): the truncated remainder of `b` by `a`, with DVF's zero rule. -/
def mdfHandler (a b : Word) (s : State) : Handled :=
  if fIsZero a then (s.raise .divideByZero, none) else floatResult s (fnum.rem b a)

/-- ADF (R273). -/
def execAdf (z : Size) (p1 p2 p3 : Param) (s : State) : Host.Outcome State Fault Refusal :=
  runBinary z p1 p2 p3 (s.lengthOf (.adf z p1 p2 p3)) adfHandler s

/-- SBF (R274). -/
def execSbf (z : Size) (p1 p2 p3 : Param) (s : State) : Host.Outcome State Fault Refusal :=
  runBinary z p1 p2 p3 (s.lengthOf (.sbf z p1 p2 p3)) sbfHandler s

/-- MLF (R275). -/
def execMlf (z : Size) (p1 p2 p3 : Param) (s : State) : Host.Outcome State Fault Refusal :=
  runBinary z p1 p2 p3 (s.lengthOf (.mlf z p1 p2 p3)) mlfHandler s

/-- DVF (R276). -/
def execDvf (z : Size) (p1 p2 p3 : Param) (s : State) : Host.Outcome State Fault Refusal :=
  runBinary z p1 p2 p3 (s.lengthOf (.dvf z p1 p2 p3)) dvfHandler s

/-- MDF (R277). -/
def execMdf (z : Size) (p1 p2 p3 : Param) (s : State) : Host.Outcome State Fault Refusal :=
  runBinary z p1 p2 p3 (s.lengthOf (.mdf z p1 p2 p3)) mdfHandler s

end Sys2Proof.Machine
end

