-- ==== Sys2Proof/Machine/Integer.lean ====
section
/-!
DEFINITION. Integer arithmetic: ADD, SUB, ADC, SBB, MUL, DIV, MOD, INC, DEC, NEG (spec/44_integer_arithmetic.md).  The
formulas are on the resolved words, not masked first; a result is reduced modulo `m + 1` (R240).
-/

namespace Sys2Proof.Machine

/-- A non-negative integer modulo `m + 1`, as a word (R240). -/
def reduceTo (z : Size) (n : Nat) : Word := BitVec.ofNat 64 (n % (z.mask + 1))

/-- `(b - a) mod (m + 1)`, the non-negative residue (R8, R242), for `a` and `b` up to `2^64`. -/
def subResult (z : Size) (a b : Nat) : Word :=
  BitVec.ofNat 64 (((b : Int) - (a : Int)) % ((z.mask : Int) + 1)).toNat

/-- ADD's handler (R241). -/
def addHandler (z : Size) (a b : Word) (s : State) : Handled :=
  (s.setRcIf (addOverflows z a b), some (reduceTo z (a.toNat + b.toNat)))

/-- SUB's handler (R242): `b - a`. -/
def subHandler (z : Size) (a b : Word) (s : State) : Handled :=
  (s.setRcIf (subBorrows a b), some (subResult z a.toNat b.toNat))

/-- ADC's handler (R243): where the carry alone overflows the destination receives the mask. -/
def adcHandler (z : Size) (a b : Word) (s : State) : Handled :=
  if carryOverflows z s.carry a then (s.setRcIf true, some (BitVec.ofNat 64 z.mask))
  else (s.setRcIf (adcOverflows z s.carry a b), some (reduceTo z (a.toNat + s.carry + b.toNat)))

/-- SBB's handler (R244): `b - (a + c)`, with ADC's first branch. -/
def sbbHandler (z : Size) (a b : Word) (s : State) : Handled :=
  if carryOverflows z s.carry a then (s.setRcIf true, some (BitVec.ofNat 64 z.mask))
  else (s.setRcIf (sbbBorrows s.carry a b), some (subResult z (a.toNat + s.carry) b.toNat))

/-- MUL's handler (R245). -/
def mulHandler (z : Size) (a b : Word) (s : State) : Handled :=
  (s.setRcIf (mulOverflows z a b), some (reduceTo z (a.toNat * b.toNat)))

/-- DIV's handler (R246): `b / a`; a zero divisor raises DivideByZero and writes nothing. -/
def divHandler (z : Size) (a b : Word) (s : State) : Handled :=
  if a = 0 then (s.raise .divideByZero, none) else (s, some (reduceTo z (b.toNat / a.toNat)))

/-- MOD's handler (R247): `b % a`, with DIV's zero rule. -/
def modHandler (z : Size) (a b : Word) (s : State) : Handled :=
  if a = 0 then (s.raise .divideByZero, none) else (s, some (reduceTo z (b.toNat % a.toNat)))

/-- INC's handler (R248). -/
def incHandler (z : Size) (a : Word) (s : State) : Handled :=
  (s.setRcIf (incOverflows z a), some (reduceTo z (a.toNat + 1)))

/-- DEC's handler (R249): SUB of 1 from the operand. -/
def decHandler (z : Size) (a : Word) (s : State) : Handled :=
  (s.setRcIf (decBorrows a), some (subResult z 1 a.toNat))

/-- NEG's handler (R250): bit `8s - 1` toggled, every other bit passed through, RC untouched. -/
def negHandler (z : Size) (a : Word) (s : State) : Handled :=
  (s, some (a ^^^ BitVec.ofNat 64 (2 ^ (z.bits - 1))))

/-- ADD (R241). -/
def execAdd (z : Size) (p1 p2 p3 : Param) (s : State) : Host.Outcome State Fault Refusal :=
  runBinary z p1 p2 p3 (s.lengthOf (.add z p1 p2 p3)) (addHandler z) s

/-- SUB (R242). -/
def execSub (z : Size) (p1 p2 p3 : Param) (s : State) : Host.Outcome State Fault Refusal :=
  runBinary z p1 p2 p3 (s.lengthOf (.sub z p1 p2 p3)) (subHandler z) s

/-- ADC (R243). -/
def execAdc (z : Size) (p1 p2 p3 : Param) (s : State) : Host.Outcome State Fault Refusal :=
  runBinary z p1 p2 p3 (s.lengthOf (.adc z p1 p2 p3)) (adcHandler z) s

/-- SBB (R244). -/
def execSbb (z : Size) (p1 p2 p3 : Param) (s : State) : Host.Outcome State Fault Refusal :=
  runBinary z p1 p2 p3 (s.lengthOf (.sbb z p1 p2 p3)) (sbbHandler z) s

/-- MUL (R245). -/
def execMul (z : Size) (p1 p2 p3 : Param) (s : State) : Host.Outcome State Fault Refusal :=
  runBinary z p1 p2 p3 (s.lengthOf (.mul z p1 p2 p3)) (mulHandler z) s

/-- DIV (R246). -/
def execDiv (z : Size) (p1 p2 p3 : Param) (s : State) : Host.Outcome State Fault Refusal :=
  runBinary z p1 p2 p3 (s.lengthOf (.div z p1 p2 p3)) (divHandler z) s

/-- MOD (R247). -/
def execMod (z : Size) (p1 p2 p3 : Param) (s : State) : Host.Outcome State Fault Refusal :=
  runBinary z p1 p2 p3 (s.lengthOf (.mod z p1 p2 p3)) (modHandler z) s

/-- INC (R248). -/
def execInc (z : Size) (p1 p2 : Param) (s : State) : Host.Outcome State Fault Refusal :=
  runUnary z p1 p2 (s.lengthOf (.inc z p1 p2)) (incHandler z) s

/-- DEC (R249). -/
def execDec (z : Size) (p1 p2 : Param) (s : State) : Host.Outcome State Fault Refusal :=
  runUnary z p1 p2 (s.lengthOf (.dec z p1 p2)) (decHandler z) s

/-- NEG (R250). -/
def execNeg (z : Size) (p1 p2 : Param) (s : State) : Host.Outcome State Fault Refusal :=
  runUnary z p1 p2 (s.lengthOf (.neg z p1 p2)) (negHandler z) s

end Sys2Proof.Machine
end

