-- ==== Sys2Proof/Machine/InterruptControl.lean ====
section
/-!
DEFINITION. Interrupt control: INT, EINT, INTE, INTD, HLT (spec/43_interrupt_control.md).  The dispatch check they interact
with runs at the end of the same cycle, in `cycle`.
-/

namespace Sys2Proof.Machine

/-- What INT does with a resolved operand: enqueue the cause of that number, or raise InvalidInstruction above 254
(R221, R222). -/
def State.requestCause (s : State) (v : Word) : State :=
  if h : v.toNat < 255 then s.enqueue ⟨v.toNat, h⟩ else s.raise .invalidInstruction

/-- INT (R221): no transfer of control, only an Enqueue. -/
def execInt (z : Size) (p1 : Param) (s : State) : Host.Outcome State Fault Refusal :=
  let r1 := s.readParam z p1
  .next ((r1.2.requestCause r1.1).advance (s.lengthOf (.int z p1)))

/-- EINT (R224): the return from a service routine, step 4 suppressed. -/
def execEint (_z : Size) (s : State) : Host.Outcome State Fault Refusal :=
  .next s.returnFromInterrupt

/-- INTE (R225). -/
def execInte (z : Size) (s : State) : Host.Outcome State Fault Refusal :=
  .next ((s.setIe true).advance (s.lengthOf (.inte z)))

/-- INTD (R226). -/
def execIntd (z : Size) (s : State) : Host.Outcome State Fault Refusal :=
  .next ((s.setIe false).advance (s.lengthOf (.intd z)))

/-- HLT (R227): one quantum's wait is asked of the host (R405), which changes no machine state, and RIP stays. -/
def execHlt (_z : Size) (s : State) : Host.Outcome State Fault Refusal :=
  .next (s.emit .quantumWait)

end Sys2Proof.Machine
end

