-- ==== Sys2Proof/Machine/Shift.lean ====
section
/-!
DEFINITION. Shifts and rotates: SR, SL, RR, RL (spec/46_bitwise_shift.md R300 to R304).  Parameter 1 is the count, its low
byte; parameter 2 the value, reduced to the declared width first.  RC is untouched (R300).
-/

namespace Sys2Proof.Machine

/-- The count `n`: the low byte of the first value (R300). -/
def shiftCount (a : Word) : Nat := a.toNat % 256

/-- The value `v`, reduced to the declared width (R300). -/
def shiftValue (z : Size) (b : Word) : Nat := b.toNat % 2 ^ z.bits

/-- SR's result (R301): a count of the width or more gives 0. -/
def srResult (z : Size) (n v : Nat) : Nat := if n < z.bits then v / 2 ^ n else 0

/-- SL's result (R302). -/
def slResult (z : Size) (n v : Nat) : Nat := if n < z.bits then v * 2 ^ n % 2 ^ z.bits else 0

/-- RR's result (R303): the count is reduced modulo the width. -/
def rrResult (z : Size) (n v : Nat) : Nat :=
  if n % z.bits = 0 then v
  else (v / 2 ^ (n % z.bits) ||| v * 2 ^ (z.bits - n % z.bits)) % 2 ^ z.bits

/-- RL's result (R304). -/
def rlResult (z : Size) (n v : Nat) : Nat :=
  if n % z.bits = 0 then v
  else (v * 2 ^ (n % z.bits) ||| v / 2 ^ (z.bits - n % z.bits)) % 2 ^ z.bits

/-- The handler of a shift or rotate with a given result. -/
def shiftHandler (z : Size) (f : Size → Nat → Nat → Nat) (a b : Word) (s : State) : Handled :=
  (s, some (BitVec.ofNat 64 (f z (shiftCount a) (shiftValue z b))))

/-- SR (R301). -/
def execSr (z : Size) (p1 p2 p3 : Param) (s : State) : Host.Outcome State Fault Refusal :=
  runBinary z p1 p2 p3 (s.lengthOf (.sr z p1 p2 p3)) (shiftHandler z srResult) s

/-- SL (R302). -/
def execSl (z : Size) (p1 p2 p3 : Param) (s : State) : Host.Outcome State Fault Refusal :=
  runBinary z p1 p2 p3 (s.lengthOf (.sl z p1 p2 p3)) (shiftHandler z slResult) s

/-- RR (R303). -/
def execRr (z : Size) (p1 p2 p3 : Param) (s : State) : Host.Outcome State Fault Refusal :=
  runBinary z p1 p2 p3 (s.lengthOf (.rr z p1 p2 p3)) (shiftHandler z rrResult) s

/-- RL (R304). -/
def execRl (z : Size) (p1 p2 p3 : Param) (s : State) : Host.Outcome State Fault Refusal :=
  runBinary z p1 p2 p3 (s.lengthOf (.rl z p1 p2 p3)) (shiftHandler z rlResult) s

end Sys2Proof.Machine
end

