-- ==== Sys2Proof/Machine/Dispatch.lean ====
section
/-!
DEFINITION. From an instruction to its meaning: steps 2 to 4 of the cycle (spec/40_cycle_and_operands.md R150), one arm per
constructor.
-/

namespace Sys2Proof.Machine

def exec (i : Instr) (s : State) : Host.Outcome State Fault Refusal :=
  match i with
  | .nop z => Sys2Proof.Machine.execNop z s
  | .mov z p1 p2 => Sys2Proof.Machine.execMov z p1 p2 s
  | .xchg z p1 p2 => Sys2Proof.Machine.execXchg z p1 p2 s
  | .push z p1 => Sys2Proof.Machine.execPush z p1 s
  | .pop z p1 => Sys2Proof.Machine.execPop z p1 s
  | .jmp z p1 => Sys2Proof.Machine.execJmp z p1 s
  | .jz z p1 p2 => Sys2Proof.Machine.execJz z p1 p2 s
  | .jnz z p1 p2 => Sys2Proof.Machine.execJnz z p1 p2 s
  | .int z p1 => Sys2Proof.Machine.execInt z p1 s
  | .eint z => Sys2Proof.Machine.execEint z s
  | .inte z => Sys2Proof.Machine.execInte z s
  | .intd z => Sys2Proof.Machine.execIntd z s
  | .hlt z => Sys2Proof.Machine.execHlt z s
  | .add z p1 p2 p3 => Sys2Proof.Machine.execAdd z p1 p2 p3 s
  | .sub z p1 p2 p3 => Sys2Proof.Machine.execSub z p1 p2 p3 s
  | .adc z p1 p2 p3 => Sys2Proof.Machine.execAdc z p1 p2 p3 s
  | .sbb z p1 p2 p3 => Sys2Proof.Machine.execSbb z p1 p2 p3 s
  | .mul z p1 p2 p3 => Sys2Proof.Machine.execMul z p1 p2 p3 s
  | .div z p1 p2 p3 => Sys2Proof.Machine.execDiv z p1 p2 p3 s
  | .mod z p1 p2 p3 => Sys2Proof.Machine.execMod z p1 p2 p3 s
  | .inc z p1 p2 => Sys2Proof.Machine.execInc z p1 p2 s
  | .dec z p1 p2 => Sys2Proof.Machine.execDec z p1 p2 s
  | .neg z p1 p2 => Sys2Proof.Machine.execNeg z p1 p2 s
  | .adf z p1 p2 p3 => Sys2Proof.Machine.execAdf z p1 p2 p3 s
  | .sbf z p1 p2 p3 => Sys2Proof.Machine.execSbf z p1 p2 p3 s
  | .mlf z p1 p2 p3 => Sys2Proof.Machine.execMlf z p1 p2 p3 s
  | .dvf z p1 p2 p3 => Sys2Proof.Machine.execDvf z p1 p2 p3 s
  | .mdf z p1 p2 p3 => Sys2Proof.Machine.execMdf z p1 p2 p3 s
  | .and z p1 p2 p3 => Sys2Proof.Machine.execAnd z p1 p2 p3 s
  | .or z p1 p2 p3 => Sys2Proof.Machine.execOr z p1 p2 p3 s
  | .xor z p1 p2 p3 => Sys2Proof.Machine.execXor z p1 p2 p3 s
  | .nand z p1 p2 p3 => Sys2Proof.Machine.execNand z p1 p2 p3 s
  | .nor z p1 p2 p3 => Sys2Proof.Machine.execNor z p1 p2 p3 s
  | .nxor z p1 p2 p3 => Sys2Proof.Machine.execNxor z p1 p2 p3 s
  | .not z p1 p2 => Sys2Proof.Machine.execNot z p1 p2 s
  | .sr z p1 p2 p3 => Sys2Proof.Machine.execSr z p1 p2 p3 s
  | .sl z p1 p2 p3 => Sys2Proof.Machine.execSl z p1 p2 p3 s
  | .rr z p1 p2 p3 => Sys2Proof.Machine.execRr z p1 p2 p3 s
  | .rl z p1 p2 p3 => Sys2Proof.Machine.execRl z p1 p2 p3 s
  | .gt z p1 p2 p3 => Sys2Proof.Machine.execGt z p1 p2 p3 s
  | .gte z p1 p2 p3 => Sys2Proof.Machine.execGte z p1 p2 p3 s
  | .lt z p1 p2 p3 => Sys2Proof.Machine.execLt z p1 p2 p3 s
  | .lte z p1 p2 p3 => Sys2Proof.Machine.execLte z p1 p2 p3 s
  | .eq z p1 p2 p3 => Sys2Proof.Machine.execEq z p1 p2 p3 s
  | .neq z p1 p2 p3 => Sys2Proof.Machine.execNeq z p1 p2 p3 s
  | .dbg z p1 => Sys2Proof.Machine.execDbg z p1 s
  | .pau z => Sys2Proof.Machine.execPau z s

end Sys2Proof.Machine
end

