-- ==== Sys2Proof/Machine/Fetch.lean ====
section
/-!
DEFINITION. Step 1 of the cycle: fetching and decoding at RIP (spec/40_cycle_and_operands.md R151, 20_memory.md R82,
30_encoding.md R130), and placing an instruction where the next step fetches it.
-/

namespace Sys2Proof.Machine

/-- The instruction stream at RIP: `FetchRead(RIP + off, n)` from the Memory device, not routed (R82); the offset is added
over the unbounded integers (R130). -/
def State.fetchReader (s : State) : FetchReader := fun off n => s.memDevValue (s.rip.toNat + off) n

/-- One HardwareFault for each fetch that was out of range, in the order of the fetches (R63, R82, R172). -/
def State.raiseFetchFaults (s : State) (a : Nat) : List (Nat × Nat) → State
  | [] => s
  | (off, n) :: rest =>
    if s.inRange (a + off) n then s.raiseFetchFaults a rest
    else (s.raise .hardwareFault).raiseFetchFaults a rest

/-- `decode(RIP)` (R130): the instruction or the decode fault, and the state with the fetches' HardwareFaults enqueued. -/
def State.fetchDecode (s : State) : Except DecodeFault Instr × State :=
  let d := decodeWith s.platform.encoding s.fetchReader cursorStart
  (d.1, s.raiseFetchFaults s.rip.toNat d.2.log)

/-- Bytes placed in Memory from an address upward; those that would lie past its end are dropped. -/
def State.placeBytes (s : State) (a : Nat) (bs : List Byte) : State :=
  s.setMem (memStore s.mem a (bs.take (s.platform.memSize - a)))

/-- The state with an instruction stored at RIP and the machine started, so that the next step runs it. -/
def State.readyToRun (s : State) (bs : List Byte) : State :=
  ((s.placeBytes s.rip.toNat bs).setRun true).setPaused false

end Sys2Proof.Machine
end

