-- ==== Sys2Proof/Machine/Step.lean ====
section
/-!
DEFINITION. One step of the machine: the cycle of spec/40_cycle_and_operands.md R150, taken only when `RUN = 1` and
`PAUSED = 0`.
-/

namespace Sys2Proof.Machine

/-- One cycle of the Processor (R150): fetch and decode; a decode fault's effect (R152), or steps 2 to 4; then the dispatch
check (R156: at the end of every cycle). -/
def cycle (s : State) : Host.Outcome State Fault Refusal :=
  match s.fetchDecode with
  | (.error _, s1) => .next s1.decodeFault.dispatchCheck
  | (.ok i, s1) =>
    match exec i s1 with
    | .next s2 => .next s2.dispatchCheck
    | .fault r => .fault r
    | .refused r => .refused r

/-- One step.  While the machine is stopped or paused no cycle is taken and all state is frozen (R31, R342; assumption 8). -/
def step (s : State) : Host.Outcome State Fault Refusal :=
  if s.run && !s.paused then cycle s else .next s

/-- The state whose very next step fetches and runs the instruction with bits `w`, numbered as the opcode table numbers
them: its bytes, zeros after them, stored at RIP, and the host's Start (assumption 9). -/
def State.withFetchWord (s : State) (nbits w : Nat) : State := 
  s.readyToRun (tableBytes s.platform.encoding nbits w)

end Sys2Proof.Machine
end

