-- ==== Sys2Proof/Machine/Environment.lean ====
section
/-!
DEFINITION. The environment: construction of the machine (spec/70_reset_and_hazards.md R421, R425) and its moves between two
cycles (60_exceptions.md R400 to R404, 20_memory.md R67, R78).  `step` makes none of these moves; a run of machine and
environment together is a list of turns.
-/

namespace Sys2Proof.Machine

/-! ## Construction (R421, R425) -/

/-- A section of the image: a start address and its bytes (R425). -/
abbrev Section := Nat × List Byte

/-- Every section lies within `0 .. MEM_SIZE-1` (R425). -/
def imageFits (memSize : Nat) : List Section → Bool
  | [] => true
  | (a, bs) :: rest => decide (a + bs.length ≤ memSize) && imageFits memSize rest

/-- The sections copied into Memory in the order listed, a later one over an earlier one (R425). -/
def loadSections (m : Memory) : List Section → Memory
  | [] => m
  | (a, bs) :: rest => loadSections (memStore m a bs) rest

/-- The initial state of a platform with an image; none where an id is registered twice (R36, "no initial state"), or a
section does not fit. -/
def State.construct (p : Platform) (image : List Section) : Option State :=
  if platformOk p && imageFits p.memSize image then
    some ((State.resetOn p).setMem (loadSections [] image))
  else none

/-! ## Bus access and bulk operations by the host (R67, R78, R404) -/

/-- Whether the host may access state: before Start, after Stop, or while paused (R404). -/
def State.hostMayAccess (s : State) : Bool := !s.run || s.paused

/-! ### The default bulk operations (R78) -/

/-- The default bulk Read: `count` calls of ReadWord at `addr, addr+1, ...` (R78). -/
def State.busReadWords (s : State) (dev off : Nat) : Nat → List Word × State
  | 0 => ([], s)
  | n + 1 =>
    let r := s.busRead dev off
    let rest := r.2.busReadWords dev (off + 1) n
    (r.1 :: rest.1, rest.2)

/-- The default bulk Write: WriteWord at `addr, addr+1, ...` (R78). -/
def State.busWriteWords (s : State) (dev off : Nat) : List Word → State
  | [] => s
  | w :: ws => (s.busWrite dev off w).busWriteWords dev (off + 1) ws

/-- Whether a device id leads to Memory. -/
def State.isMemoryId (s : State) (dev : Nat) : Bool := decide (registryFind dev s.platform.registry = some .memory)

/-- How far apart consecutive words of a bulk operation lie on a device: eight byte addresses on Memory, whose bulk
operations act on blocks, one address elsewhere.  DESIGN CHOICE (assumption 12): R78 gives Memory's override no unit. -/
def State.busStride (s : State) (dev : Nat) : Nat := if s.isMemoryId dev then 8 else 1

/-- The default bulk Copy, which "reads then writes word by word" (R78).  DESIGN CHOICE (assumption 12): R78 and N11 leave open
whether each word is written before the next is read; here it is, so that on overlapping ranges of one device the Copy is a
forward copy. -/
def State.busCopyWords (s : State) (srcDev src dstDev dst : Nat) : Nat → State
  | 0 => s
  | n + 1 =>
    let r := s.busRead srcDev src
    (r.2.busWrite dstDev dst r.1).busCopyWords srcDev (src + s.busStride srcDev) dstDev (dst + s.busStride dstDev) n

/-! ### Memory's overrides (R67, R78) -/

/-- Memory's block move (R67): the bytes at `dst` become those that were at `src`, correct under overlap.  DESIGN CHOICE
(assumption 12): a block out of range raises HardwareFault once and moves nothing, as R63 and R64 have it for an access. -/
def State.memMove (s : State) (dst src len : Nat) : State :=
  if s.inRange src len && s.inRange dst len then s.setMem (memStore s.mem dst (memBytes s.mem src len))
  else s.raise .hardwareFault

/-- Consecutive 8-byte words of Memory. -/
def memWords (m : Memory) (a : Nat) : Nat → List Word
  | 0 => []
  | n + 1 => BitVec.ofNat 64 (beNat (memBytes m a 8)) :: memWords m (a + 8) n

/-- The bytes of consecutive words, each big-endian (R62). -/
def blockBytes (ws : List Word) : List Byte := ws.flatMap fun w => beBytes 8 w.toNat

/-- Memory's bulk Read: `count` words moved out as one block; out of range zeros and one HardwareFault (assumption 12). -/
def State.memBlockRead (s : State) (a count : Nat) : List Word × State :=
  if s.inRange a (8 * count) then (memWords s.mem a count, s) else (List.replicate count 0, s.raise .hardwareFault)

/-- Memory's bulk Write: words moved in as one block; out of range nothing is written and HardwareFault raised once
(assumption 12). -/
def State.memBlockWrite (s : State) (a : Nat) (ws : List Word) : State :=
  if s.inRange a (8 * ws.length) then s.setMem (memStore s.mem a (blockBytes ws)) else s.raise .hardwareFault

/-! ### The bulk operations (R78) -/

/-- Bulk Read of a device: Memory's override, or the default. -/
def State.busReadBulk (s : State) (dev off count : Nat) : List Word × State :=
  if s.isMemoryId dev then s.memBlockRead off count else s.busReadWords dev off count

/-- Bulk Write of a device: Memory's override, or the default. -/
def State.busWriteBulk (s : State) (dev off : Nat) (ws : List Word) : State :=
  if s.isMemoryId dev then s.memBlockWrite off ws else s.busWriteWords dev off ws

/-- Bulk Copy of `count` words: within Memory its override, the move of R67; else the default. -/
def State.busCopyBulk (s : State) (srcDev src dstDev dst count : Nat) : State :=
  if s.isMemoryId srcDev && s.isMemoryId dstDev then s.memMove dst src (8 * count)
  else s.busCopyWords srcDev src dstDev dst count

/-! ## Moves -/

/-- A move of the environment. -/
inductive HostMove where
  /-- Start (R400). -/
  | start
  /-- Stop (R401). -/
  | stop
  /-- Resume (R402). -/
  | resume
  /-- An external Enqueue (R403). -/
  | enqueue (c : Cause)
  /-- A bus read of a device (R404); what it returns is `busRead`'s value. -/
  | busRead (dev off : Nat)
  /-- A bus write of a device (R404). -/
  | busWrite (dev off : Nat) (w : Word)
  /-- A bulk read (R78). -/
  | bulkRead (dev off count : Nat)
  /-- A bulk write (R78). -/
  | bulkWrite (dev off : Nat) (ws : List Word)
  /-- A bulk copy between devices (R78). -/
  | bulkCopy (srcDev src dstDev dst count : Nat)
  /-- Memory's block move (R67). -/
  | memMove (dst src len : Nat)
deriving DecidableEq, Repr

/-- The state after a move, or none where the move's precondition does not hold. -/
def hostMove (m : HostMove) (s : State) : Option State :=
  match m with
  | .start => if platformOk s.platform then some (s.setRun true) else none
  | .stop => some (s.setRun false)
  | .resume => if s.paused then some (s.setPaused false) else none
  | .enqueue c => some (s.enqueue c)
  | .busRead dev off => if s.hostMayAccess then some (s.busRead dev off).2 else none
  | .busWrite dev off w => if s.hostMayAccess then some (s.busWrite dev off w) else none
  | .bulkRead dev off count => if s.hostMayAccess then some (s.busReadBulk dev off count).2 else none
  | .bulkWrite dev off ws => if s.hostMayAccess then some (s.busWriteBulk dev off ws) else none
  | .bulkCopy srcDev src dstDev dst count =>
    if s.hostMayAccess then some (s.busCopyBulk srcDev src dstDev dst count) else none
  | .memMove dst src len => if s.hostMayAccess then some (s.memMove dst src len) else none

/-! ## Turns -/

/-- Who moves next: the Processor by a step, or the environment (R5). -/
inductive Turn where
  | cycle
  | host (m : HostMove)
deriving DecidableEq, Repr

/-- The state after a turn, if it has one. -/
def turn (t : Turn) (s : State) : Option State :=
  match t with
  | .cycle =>
    match step s with
    | .next s' => some s'
    | .fault _ => none
    | .refused _ => none
  | .host m => hostMove m s

/-- The state after turns taken in order. -/
def turns : List Turn → State → Option State
  | [], s => some s
  | t :: ts, s =>
    match turn t s with
    | some s' => turns ts s'
    | none => none

end Sys2Proof.Machine
end

