-- ==== Sys2Proof/Safety.lean ====
section
/-!
DEFINITION. What a good state and a safe run are, in the terms the statements use (spec/10_state.md R40, 60_exceptions.md
R350).
-/

namespace Sys2Proof.Machine

/-- The invariant of the machine: Memory's list has its canonical form within the device's size, and the platform is one
that may be started.  (R40's bounds on Q, the flags and the configuration fields are built into State's types.) -/
def State.good (s : State) : Bool :=
  Memory.wf s.platform.memSize s.mem && platformOk s.platform

/-- A step goes on: it answers a next state. -/
def State.stepGoesOn (s : State) : Prop := ∃ t, step s = .next t

/-- A state that turns of Processor and environment lead to from the reset state of an admissible platform with an image. -/
def State.reachable (s : State) : Prop :=
  ∃ p image s0 ts, State.construct p image = some s0 ∧ turns ts s0 = some s

end Sys2Proof.Machine
end

