-- ==== Sys2Proof/Certificates/Slice0/Obligations.lean ====
section
/-!
DEFINITION. The statements for the provers, from the numbered rules of spec/.  First the terms they use; a statement's
`cites` and quote stand in OBLIGATIONS.json.
-/

namespace Sys2Proof.Claims

open Sys2Proof.Machine

/-! ## Terms: resolved operands -/

/-- `src(1)`. -/
def val1 (s : State) (z : Size) (p1 : Param) : Word := (s.readParam z p1).1

/-- The state after parameter 1 is read. -/
def after1 (s : State) (z : Size) (p1 : Param) : State := (s.readParam z p1).2

/-- `src(2)`, resolved after parameter 1. -/
def val2 (s : State) (z : Size) (p1 p2 : Param) : Word := ((after1 s z p1).readParam z p2).1

/-- The state after parameters 1 and 2 are read. -/
def after2 (s : State) (z : Size) (p1 p2 : Param) : State := ((after1 s z p1).readParam z p2).2

/-- `dst <- v` in state `h` through the locator that parameter `d` has in state `l`, then step 4 with length `len`. -/
def delivered (z : Size) (d : Param) (len : Nat) (l h : State) (v : Word) : State :=
  (h.writeLoc z (l.locate d) v).advance len

/-- RC set to all ones if a condition holds, and left alone otherwise. -/
def rcSetWhen (c : Prop) [Decidable c] (s : State) : State := if c then s.setReg .rc allOnes else s

/-! ## Terms: frames -/

/-- The control flags are unchanged. -/
def SameControl (s t : State) : Prop :=
  t.ie = s.ie ∧ t.isr = s.isr ∧ t.pisr = s.pisr ∧ t.run = s.run ∧ t.paused = s.paused

/-- The configuration device's fields are unchanged. -/
def SameDevice (s t : State) : Prop :=
  t.vec = s.vec ∧ t.prot = s.prot ∧ t.tick = s.tick ∧ t.cacheEn = s.cacheEn

/-- The host-visible events and the number of clock draws are unchanged. -/
def SameRecord (s t : State) : Prop := t.events = s.events ∧ t.clockDraws = s.clockDraws

/-- The queue is the old one with HardwareFaults appended. -/
def OnlyHardwareFaults (s t : State) : Prop :=
  ∃ n, t.queue = s.queue ++ List.replicate n s.platform.causes.hardwareFault

/-- The queue is the old one with HardwareFaults, and then one DivideByZero, appended. -/
def DividedByZero (s t : State) : Prop :=
  ∃ n, t.queue = s.queue ++ List.replicate n s.platform.causes.hardwareFault ++ [s.platform.causes.divideByZero]

/-- The state with one HardwareFault appended to the queue and nothing else changed. -/
def faulted (s : State) : State := { s with queue := s.queue ++ [s.platform.causes.hardwareFault] }

/-! ## Terms: fetches -/

/-- The state with one HardwareFault appended for each of the fetches at RIP that is out of range. -/
def fetchFaulted (s : State) (fetches : List (Nat × Nat)) : State :=
  let n := fetches.countP fun f => decide (s.platform.memSize < s.rip.toNat + f.1 + f.2)
  { s with queue := s.queue ++ List.replicate n s.platform.causes.hardwareFault }

/-- The data address a destination write stores to, from the locator and the state in which it is computed: a push stores
below RSP. -/
def storeAddress (z : Size) (s : State) : Locator → Option Word
  | .reg _ => none
  | .mem a => some a
  | .stk => some (s.rsp - sizeWord z)
  | .imm _ => none

/-- Byte `x` of Memory is one that a data write of size `z` at `addr` stores: the sized accessor's bytes, or the eight of a
word write where another id leads to Memory (that one may is the model's choice, assumption 23). -/
def InStore (p : Platform) (z : Size) (addr : Word) (x : Nat) : Prop :=
  ((routeOf p addr).1 = p.memId ∧ (routeOf p addr).2 ≤ x ∧ x < (routeOf p addr).2 + z.bytes) ∨
  ((routeOf p addr).1 ≠ p.memId ∧ registryFind (routeOf p addr).1 p.registry = some .memory ∧
    (routeOf p addr).2 ≤ x ∧ x < (routeOf p addr).2 + 8)

/-- A data address leads to the configuration device. -/
def ReachesConfig (p : Platform) (addr : Word) : Prop :=
  (routeOf p addr).1 ≠ p.memId ∧ registryFind (routeOf p addr).1 p.registry = some .configuration

/-- Nothing is stored but at the addresses given: every byte of Memory outside them reads as before, and the configuration
device is as before unless one of them leads to it. -/
def OnlyStoresAt (z : Size) (addrs : List Word) (s t : State) : Prop :=
  (∀ x, (∀ a ∈ addrs, ¬InStore s.platform z a x) → memGet t.mem x = memGet s.mem x) ∧
  ((∀ a ∈ addrs, ¬ReachesConfig s.platform a) → SameDevice s t)

/-- Every register but RIP and those named is unchanged. -/
def SameRegistersBut (named : Reg → Prop) (s t : State) : Prop :=
  ∀ r, r ≠ .rip → ¬named r → t.getReg r = s.getReg r

/-! ## Terms: groups of instructions of one shape -/

/-- The three-parameter instructions that can set RC (R27). -/
def rcForms : List (Size → Param → Param → Param → Instr) :=
  [.add, .sub, .adc, .sbb, .mul, .gt, .gte, .lt, .lte, .eq, .neq]

/-- The three-parameter integer, bitwise and shift instructions that never touch RC. -/
def plainForms : List (Size → Param → Param → Param → Instr) :=
  [.div, .mod, .and, .or, .xor, .nand, .nor, .nxor, .sr, .sl, .rr, .rl]

/-- The floating instructions. -/
def floatForms : List (Size → Param → Param → Param → Instr) := [.adf, .sbf, .mlf, .dvf, .mdf]

/-- The instruction can set RC as a side effect (R27). -/
def setsRc : Instr → Bool
  | .add .. | .sub .. | .adc .. | .sbb .. | .mul .. | .inc .. | .dec .. => true
  | .gt .. | .gte .. | .lt .. | .lte .. | .eq .. | .neq .. => true
  | _ => false

/-- The parameters an instruction writes. -/
def writtenParams (i : Instr) : List Param :=
  ((i.roles.zip i.params).filter fun rp => rp.1.writes).map fun rp => rp.2

/-- The spec's opcode byte and the roles of an instruction: the "Encoding" of its rule. -/
def Encoded (i : Instr) (opc : Nat) (roles : List Role) : Prop := opcodeOf standardEncoding i = opc ∧ i.roles = roles

/-- The number of parameters of a form. -/
def arity : OpForm → Nat
  | .p0 _ => 0
  | .p1 _ _ => 1
  | .p2 _ _ _ => 2
  | .p3 _ _ _ _ => 3

/-- A sub-parameter is a read of RSP. -/
def subReadsRsp : Sub → Bool
  | .sreg .rsp => true
  | _ => false

/-- A parameter's locator reads RSP (R196). -/
def locatorReadsRsp : Param → Bool
  | .rega .rsp => true
  | .calca c => subReadsRsp c.base || c.index.any subReadsRsp || c.scale.any subReadsRsp || c.offset.any subReadsRsp
  | .calcl c => subReadsRsp c.base || c.index.any subReadsRsp || c.scale.any subReadsRsp || c.offset.any subReadsRsp
  | _ => false

/-- The descriptor `d` says that this component is present and a register. -/
def namesRegister (l : CalcLayout) (d : Nat) : CalcPart → Bool
  | .base => !l.baseKind.holds d
  | .index => l.indexPresent.holds d && !l.indexKind.holds d
  | .scale => l.scalePresent.holds d && !l.scaleKind.holds d
  | .offset => l.offsetPresent.holds d && !l.offsetKind.holds d

/-! ## Terms: floating point -/

/-- A finite binary64 pattern. -/
def IsFinite (w : Word) : Prop := fIsNaN w = false ∧ fIsInf w = false

/-- `2^1024 - 2^970` in units of `2^-1074`: half a last place above the greatest finite magnitude. -/
@[irreducible] def overflowUnits : Nat := (2 ^ 54 - 1) * 2 ^ 2044

/-- `low` is the low 63 bits of the magnitude `n/d`, in units of `2^-1074`, rounded to nearest, ties to even: infinity from
`overflowUnits` on, and below that a finite magnitude none is closer than, with an even significand where another is as
close. -/
def RoundsTo (n d low : Nat) : Prop :=
  (overflowUnits * d ≤ n → low = fInfLow) ∧
  (n < overflowUnits * d → low < fInfLow ∧ ∀ w, IsFinite w →
    |(n : Int) - d * fMag (fPack false low)| ≤ |(n : Int) - d * fMag w| ∧
    (|(n : Int) - d * fMag (fPack false low)| = |(n : Int) - d * fMag w| → fMag w ≠ fMag (fPack false low) → low % 2 = 0))

/-- The exact value `v`, in units of `2^-1074`, rounded; a zero has the sign given. -/
def RoundsToSigned (v : Int) (zeroNeg : Bool) (r : Option Word) : Prop :=
  ∃ low, RoundsTo v.natAbs 1 low ∧ r = some (fPack (if v = 0 then zeroNeg else decide (v < 0)) low)

/-- The exact magnitude `n/d`, in units of `2^-1074`, rounded, with the sign given. -/
def RoundsToMagnitude (n d : Nat) (neg : Bool) (r : Option Word) : Prop :=
  ∃ low, RoundsTo n d low ∧ r = some (fPack neg low)

end Sys2Proof.Claims

open Sys2Proof Sys2Proof.Machine Sys2Proof.Claims

/-! # The codec -/

/-- R114, R115: with every admissible choice of the numbers and payload layouts (R7), the spec's among them, decoding the encoding of a
representable instruction gives the instruction, and consumes exactly its length. -/
def Obligations.EncodedInstructionsDecodeBack : Prop :=
  standardEncoding.ok = true ∧
  ∀ (e : Encoding) (i : Instr) (rd : FetchReader), e.ok = true → i.wellFormed = true →
    (∀ off n, off + n ≤ (encode e i).length → rd off n = beNat (((encode e i).drop off).take n)) →
    (decodeWith e rd cursorStart).1 = .ok i ∧ (decodeWith e rd cursorStart).2.pos = instrLength e i ∧
      (encode e i).length = instrLength e i

/-- R114, R131, R132: in every state, what the decoder answers is a representable instruction. -/
def Obligations.DecodedInstructionsAreRepresentable : Prop :=
  ∀ (s s1 : State) (i : Instr), s.fetchDecode = (.ok i, s1) → i.wellFormed = true

/-- R108, R113, R130: the decoder ends at the instruction's length and has made the fetches of the header and of each
parameter's pieces, in order; the length is at least 8 bytes and at most the longest's, with the spec's sizes 107. -/
def Obligations.DecoderConsumesTheInstructionLength : Prop :=
  ∀ (e : Encoding) (rd : FetchReader) (i : Instr), e.ok = true → (∀ off n, rd off n < 256 ^ n) →
    (decodeWith e rd cursorStart).1 = .ok i →
    (decodeWith e rd cursorStart).2 = ⟨instrLength e i, instrFetches e i⟩ ∧ 8 ≤ instrLength e i ∧
      instrLength e i ≤ 8 + 3 * (e.layout.descriptorSize.bytes + 4 * 8) ∧
      (e = standardEncoding → instrLength e i ≤ 107)

/-- R115, R151: where Memory holds an instruction's encoding at RIP, that instruction is fetched, and no fault raised. -/
def Obligations.StoredEncodingIsFetched : Prop :=
  ∀ (s : State) (i : Instr), s.platform.encoding.ok = true → i.wellFormed = true →
    s.rip.toNat + s.lengthOf i ≤ s.platform.memSize →
    memBytes s.mem s.rip.toNat (s.lengthOf i) = encode s.platform.encoding i → s.fetchDecode = (.ok i, s)

/-- R104: the decoder ignores the header bits of no field, with the spec's numbers bits 44..0, and the type fields of absent
parameters, and the encoder writes them 0. -/
def Obligations.ReservedHeaderBitsAreIgnored : Prop :=
  (∀ (e : Encoding) (rd rd' : FetchReader), headerOpcode (rd 0 8) = headerOpcode (rd' 0 8) →
    headerSize e (rd 0 8) = headerSize e (rd' 0 8) →
    (∀ o, opOfCode e (headerOpcode (rd 0 8)) = some o →
      (1 ≤ arity o.form → headerType1 (rd 0 8) = headerType1 (rd' 0 8)) ∧
      (2 ≤ arity o.form → headerType2 (rd 0 8) = headerType2 (rd' 0 8)) ∧
      (3 ≤ arity o.form → headerType3 (rd 0 8) = headerType3 (rd' 0 8))) →
    (∀ off n, 8 ≤ off → rd off n = rd' off n) →
    decodeWith e rd cursorStart = decodeWith e rd' cursorStart) ∧
  (∀ i : Instr, headerWord standardEncoding i % 2 ^ 45 = 0) ∧
  (∀ (e : Encoding) (i : Instr), e.ok = true →
    (∀ k, k < e.sizeShift ∨ (e.sizeShift + 2 ≤ k ∧ k < 47) → (headerWord e i).testBit k = false) ∧
    (i.params.length < 1 → headerType1 (headerWord e i) = 0) ∧
    (i.params.length < 2 → headerType2 (headerWord e i) = 0) ∧ (i.params.length < 3 → headerType3 (headerWord e i) = 0))

/-- R142: six worked encodings, of the data movement, integer, control, comparison and interrupt families, decode to their
instructions. -/
def Obligations.WorkedEncodingsDecode : Prop :=
  decodeBytes standardEncoding [0x01, 0x40, 0x60, 0, 0, 0, 0, 0, 0, 0, 0, 0, 0, 0, 0, 0x2A, 0x00]
    = .ok (.mov .eight (.lit 42) (.reg (.gpr 0))) ∧
  decodeBytes standardEncoding [0x30, 0x48, 0, 0, 0, 0, 0, 0, 0xFF, 0x01, 0x02]
    = .ok (.add .one (.lit 0xFF) (.lit 1) (.reg (.gpr 2))) ∧
  decodeBytes standardEncoding [0x12, 0x08, 0x60, 0, 0, 0, 0, 0, 0x01, 0, 0, 0, 0, 0, 0, 0, 0x22]
    = .ok (.jnz .eight (.reg (.gpr 1)) (.lit 0x22)) ∧
  decodeBytes standardEncoding [0x01, 0xA0, 0x60, 0, 0, 0, 0, 0, 0xF3, 0x01, 0x02, 0, 0, 0, 0, 0, 0, 0, 0x08, 0, 0, 0, 0, 0,
      0, 0, 0x10, 0x04]
    = .ok (.mov .eight (.calca ⟨.sreg (.gpr 1), some (.sreg (.gpr 2)), some (.slit 8), some (.slit 0x10), .minus⟩)
        (.reg (.gpr 4))) ∧
  decodeBytes standardEncoding [0x64, 0x0C, 0x80, 0, 0, 0, 0, 0, 0x00, 0x40, 0x03]
    = .ok (.eq .one (.reg (.gpr 0)) (.lita 0x40) (.rega (.gpr 3))) ∧
  decodeBytes standardEncoding [0x24, 0, 0, 0, 0, 0, 0, 0] = .ok (.hlt .one)

/-- R125, R126, R131: an opcode byte absent from the table, a type code absent from the table (with the spec's numbers, 7) in
a present parameter, and a register number that names no register, in a `REG` or `REGA` payload or a component of a calculated
one, are decode faults, and a parameter's fault is the instruction's. -/
def Obligations.IllegalHeadersAreDecodeFaults : Prop :=
  (∀ (e : Encoding) (rd : FetchReader), (∀ row ∈ e.opcodes, row.1 ≠ headerOpcode (rd 0 8)) →
    decodeWith e rd cursorStart = (.error .unknownOpcode, ⟨8, [(0, 8)]⟩)) ∧
  (∀ row ∈ standardEncoding.types, row.1 ≠ 7) ∧
  (∀ (e : Encoding) (rd : FetchReader) (o : Op), opOfCode e (headerOpcode (rd 0 8)) = some o →
    (1 ≤ arity o.form ∧ ∀ row ∈ e.types, row.1 ≠ headerType1 (rd 0 8)) ∨
      (2 ≤ arity o.form ∧ ∀ row ∈ e.types, row.1 ≠ headerType2 (rd 0 8)) ∨
      (3 ≤ arity o.form ∧ ∀ row ∈ e.types, row.1 ≠ headerType3 (rd 0 8)) →
    ∃ x, (decodeWith e rd cursorStart).1 = .error x) ∧
  standardEncoding.registerSize = .one ∧
  (∀ n, n < 256 → ((∀ row ∈ standardEncoding.registers, row.1 ≠ n) ↔ 0x10 ≤ n ∧ (n < 0xF0 ∨ 0xF3 < n))) ∧
  (∀ (e : Encoding) (rd : FetchReader) (z : Size) (c : Cursor),
    (∀ row ∈ e.registers, row.1 ≠ rd c.pos e.registerSize.bytes) →
    let c' : Cursor := ⟨c.pos + e.registerSize.bytes, c.log ++ [(c.pos, e.registerSize.bytes)]⟩
    (∀ r t, typeOfCode e t = some .reg ∨ typeOfCode e t = some .rega →
      decParam e rd z r t c = (.error .invalidRegister, c')) ∧
    (∀ d k p ps, namesRegister e.layout d p = true →
      decParts e rd z d (p :: ps) k c = (.error .invalidRegister, c'))) ∧
  (∀ (e : Encoding) (rd : FetchReader) (o : Op) (x : DecodeFault), opOfCode e (headerOpcode (rd 0 8)) = some o →
    let z := headerSize e (rd 0 8)
    let c0 : Cursor := ⟨8, [(0, 8)]⟩
    match o.form with
    | .p0 _ => True
    | .p1 r1 _ =>
      (decParam e rd z r1 (headerType1 (rd 0 8)) c0).1 = .error x → (decodeWith e rd cursorStart).1 = .error x
    | .p2 r1 r2 _ =>
      ((decParam e rd z r1 (headerType1 (rd 0 8)) c0).1 = .error x → (decodeWith e rd cursorStart).1 = .error x) ∧
      ∀ a c1, decParam e rd z r1 (headerType1 (rd 0 8)) c0 = (.ok a, c1) →
        (decParam e rd z r2 (headerType2 (rd 0 8)) c1).1 = .error x → (decodeWith e rd cursorStart).1 = .error x
    | .p3 r1 r2 r3 _ =>
      ((decParam e rd z r1 (headerType1 (rd 0 8)) c0).1 = .error x → (decodeWith e rd cursorStart).1 = .error x) ∧
      ∀ a c1, decParam e rd z r1 (headerType1 (rd 0 8)) c0 = (.ok a, c1) →
        ((decParam e rd z r2 (headerType2 (rd 0 8)) c1).1 = .error x → (decodeWith e rd cursorStart).1 = .error x) ∧
        ∀ b c2, decParam e rd z r2 (headerType2 (rd 0 8)) c1 = (.ok b, c2) →
          (decParam e rd z r3 (headerType3 (rd 0 8)) c2).1 = .error x → (decodeWith e rd cursorStart).1 = .error x)

/-! # The cycle -/

/-- R150: when the fetch at RIP gives an instruction, a step of a running machine is that instruction's meaning, followed by
the dispatch check; the fetch itself changes nothing but the queue, by one HardwareFault for each of the instruction's
fetches that is out of range (R63, R82, R130). -/
def Obligations.StepRunsTheDecodedInstruction : Prop :=
  ∀ (s s1 : State) (i : Instr), s.run = true → s.paused = false → s.fetchDecode = (.ok i, s1) →
    (s.platform.encoding.ok = true → s1 = fetchFaulted s (instrFetches s.platform.encoding i)) ∧
    (∀ t, exec i s1 = .next t → step s = .next t.dispatchCheck)

/-- R152: a decode fault enqueues InvalidInstruction once, after one HardwareFault for each fetch out of range, moves RIP past
the header word and changes nothing else before the dispatch check.  The fetches are the decoder's own, the header first and
each next one where the last ended (R130). -/
def Obligations.DecodeFaultSkipsTheHeader : Prop :=
  ∀ (s s1 : State) (x : DecodeFault), s.run = true → s.paused = false → s.fetchDecode = (.error x, s1) →
    ∃ ns, (decodeWith s.platform.encoding s.fetchReader cursorStart).2.log = fetchesAt 0 (8 :: ns) ∧
      s1 = fetchFaulted s (fetchesAt 0 (8 :: ns)) ∧
      step s = .next (State.dispatchCheck { s1 with
        queue := s1.queue ++ [s.platform.causes.invalidInstruction]
        rip := s.rip + 8 })

/-- R31: no cycle is taken while the machine is stopped or paused; all state is frozen. -/
def Obligations.StoppedOrPausedMachineIsFrozen : Prop :=
  ∀ s : State, s.run = false ∨ s.paused = true → step s = .next s

/-- R350 (with R114, R132): no step of the machine, in any state, ends in a fault or a refusal. -/
def Obligations.StepNeverStops : Prop := ∀ s : State, ∃ t, step s = .next t

/-- R132, R170: an instruction value with a literal in a destination position, which no encoding gives, is refused by name (the
refusal is the model's choice, assumption 13; the spec says only that it cannot occur). -/
def Obligations.ImmediateDestinationsAreRefused : Prop :=
  ∀ (i : Instr) (s : State), (∃ p ∈ writtenParams i, p.writable = false) → exec i s = .refused .immediateDestination

/-! # Reset and invariants -/

/-- R39, R420: the state after reset, on the default platform and on any. -/
def Obligations.ResetValuesAreThoseOfTheTable : Prop :=
  State.reset = State.resetOn standardPlatform ∧ State.reset.rip = 0 ∧
  ∀ p : Platform, (∀ n : Fin 16, (State.resetOn p).getReg (.gpr n) = 0) ∧ (State.resetOn p).rip = p.entry ∧
    (State.resetOn p).rsp = 0 ∧ (State.resetOn p).rsip = 0 ∧ (State.resetOn p).rc = 0 ∧ (State.resetOn p).ie = false ∧
    (State.resetOn p).isr = false ∧ (State.resetOn p).pisr = false ∧ (State.resetOn p).paused = false ∧
    (State.resetOn p).run = false ∧ (State.resetOn p).queue = [] ∧ (∀ c : Cause, (State.resetOn p).vec[c] = 0) ∧
    (State.resetOn p).prot = 0 ∧ (State.resetOn p).tick = 0 ∧ (State.resetOn p).cacheEn = false ∧
    (∀ a, memGet (State.resetOn p).mem a = 0)

/-- The model's invariant holds after reset (the canonical form of Memory is the model's own, assumption 3, and which platforms
are admissible is its own, assumptions 7, 23 and 24), and the reset platform holds the spec's numbers (R355 and spec/30_encoding.md). -/
def Obligations.ResetStateIsGood : Prop :=
  State.reset.good = true ∧ State.reset.platform.encoding = standardEncoding ∧ State.reset.platform.causes = ⟨0, 1, 2⟩

/-- Every step keeps the invariant: Memory's list stays canonical and within `MEM_SIZE`, the platform admissible (the model's
own, assumptions 3, 7, 23 and 24). -/
def Obligations.StepKeepsGoodState : Prop :=
  ∀ s t : State, s.good = true → step s = .next t → t.good = true

/-- Every move of the environment keeps the invariant (the canonical form of Memory is the model's own, assumption 3, and so are
the admissible platforms, assumptions 7, 23 and 24; what the block moves and bulk operations do is its choice, assumption 12). -/
def Obligations.HostMovesKeepGoodState : Prop :=
  ∀ (m : HostMove) (s t : State), s.good = true → hostMove m s = some t → t.good = true

/-- Every state that turns of Processor and environment lead to, from any admissible platform and image, is good (turns are the
model's form of the environment, assumption 10; the canonical form of Memory and the admissible platforms are its own,
assumptions 3, 7, 23 and 24). -/
def Obligations.ReachableStatesAreGood : Prop := ∀ s : State, s.reachable → s.good = true

/-- R36, R44, R401: no step changes the platform's parameters, nor starts or stops the machine. -/
def Obligations.StepKeepsPlatformAndRun : Prop :=
  ∀ s t : State, step s = .next t → t.platform = s.platform ∧ t.run = s.run

/-- R26, R27: an instruction that does not name RC as a destination leaves RC alone or sets it to all ones, and sets it only
if it is one of R27's. -/
def Obligations.HardwareOnlyEverSetsRc : Prop :=
  ∀ (i : Instr) (s t : State), exec i s = .next t → .reg .rc ∉ writtenParams i →
    (t.rc = s.rc ∨ t.rc = allOnes) ∧ (setsRc i = false → t.rc = s.rc)

/-- R29 to R31: IE changes only by INTE and INTD, PAUSED only by PAU, the service flags only by EINT (the dispatch check
apart), RUN by no instruction. -/
def Obligations.ControlFlagsChangeOnlyByTheirInstructions : Prop :=
  ∀ (i : Instr) (s t : State), exec i s = .next t →
    (t.ie = s.ie ∨ ∃ z, i = .inte z ∨ i = .intd z) ∧ (t.paused = s.paused ∨ ∃ z, i = .pau z) ∧
    ((t.isr = s.isr ∧ t.pisr = s.pisr) ∨ ∃ z, i = .eint z) ∧ t.run = s.run

/-- R32, R356, R361: a step appends causes at the tail, keeps the order of those queued, and removes at most the head. -/
def Obligations.QueueIsFirstInFirstOut : Prop :=
  ∀ s t : State, step s = .next t →
    ∃ cs, t.queue = s.queue ++ cs ∨ ∃ c, s.queue ++ cs = c :: t.queue

/-! # Interrupts -/

/-- R370: the dispatch check takes the head of the queue exactly when IE is set, PISR clear and the queue not empty; RSIP
saves RIP, the flag of the cause's class is set, RIP becomes the vector, and nothing else changes. -/
def Obligations.DispatchTakesTheHeadCause : Prop :=
  ∀ s : State,
    (∀ c rest, s.ie = true → s.pisr = false → s.queue = c :: rest → c ∈ s.platform.protectedCauses →
      s.dispatchCheck = { s with queue := rest, rsip := s.rip, pisr := true, rip := s.vec[c] }) ∧
    (∀ c rest, s.ie = true → s.pisr = false → s.queue = c :: rest → c ∉ s.platform.protectedCauses →
      s.dispatchCheck = { s with queue := rest, rsip := s.rip, isr := true, rip := s.vec[c] }) ∧
    (s.ie = false ∨ s.pisr = true ∨ s.queue = [] → s.dispatchCheck = s)

/-- R228: INT of a cause with an empty queue and interrupts enabled goes to the cause's vector, with the address after the
INT saved; the EINT of a state that still has that RSIP returns there and clears both service flags. -/
def Obligations.IntThenEintReturnsAfterTheInt : Prop :=
  ∀ (s : State) (z z' : Size) (p : Param) (c : Cause), (val1 s z p).toNat = c.val → s.ie = true → s.pisr = false →
    (after1 s z p).queue = [] →
    ∃ t, exec (.int z p) s = .next t ∧ t.dispatchCheck.queue = [] ∧ t.dispatchCheck.rip = s.vec[c] ∧
      t.dispatchCheck.rsip = s.rip + BitVec.ofNat 64 (s.lengthOf (.int z p)) ∧
      (c ∉ s.platform.protectedCauses → t.dispatchCheck.isr = true) ∧
      (c ∈ s.platform.protectedCauses → t.dispatchCheck.pisr = true) ∧
      ∀ u : State, u.rsip = t.dispatchCheck.rsip →
        ∃ v, exec (.eint z') u = .next v ∧ v.rip = s.rip + BitVec.ofNat 64 (s.lengthOf (.int z p)) ∧ v.isr = false ∧
          v.pisr = false

/-- R227: a halted machine with interrupts enabled and a pending cause is at the cause's vector after one step, with the
HLT's own address in RSIP; where no dispatch is possible RIP stays at the HLT. -/
def Obligations.HaltedMachineResumesAtTheVector : Prop :=
  ∀ (s s1 : State) (z : Size), s.run = true → s.paused = false → s.fetchDecode = (.ok (.hlt z), s1) →
    (∀ c rest, s.ie = true → s.pisr = false → s.queue = c :: rest →
      ∃ t, step s = .next t ∧ t.rip = s.vec[c] ∧ t.rsip = s.rip) ∧
    (s.ie = false ∨ s.pisr = true ∨ s1.queue = [] →
      ∃ t, step s = .next t ∧ t.rip = s.rip ∧ t.rsip = s.rsip)

/-! # The environment -/

/-- R400 to R404, R67, R78: Start, Stop, Resume and the external Enqueue do what the spec says and nothing else; the host reaches
devices exactly while no cycles are taken, by a bus read or write, a bulk operation or Memory's block move; a block move
within Memory is correct under overlap, and the bulk Copy within Memory is that move.  Which platform is admissible for Start
(assumptions 7, 23 and 24), that a move whose precondition fails does not happen, and what a block out of range, a mixed Copy
and a Copy outside Memory do (assumption 12) are the model's choices. -/
def Obligations.HostMovesDoWhatTheyName : Prop :=
  ∀ s : State, (platformOk s.platform = true → hostMove .start s = some { s with run := true }) ∧
    hostMove .stop s = some { s with run := false } ∧
    (s.paused = true → hostMove .resume s = some { s with paused := false }) ∧
    (s.paused = false → hostMove .resume s = none) ∧
    (∀ c, hostMove (.enqueue c) s = some { s with queue := s.queue ++ [c] }) ∧
    ((s.run = false ∨ s.paused = true) →
      (∀ dev off, hostMove (.busRead dev off) s = some (s.busRead dev off).2) ∧
      (∀ dev off w, hostMove (.busWrite dev off w) s = some (s.busWrite dev off w)) ∧
      (∀ dev off n, hostMove (.bulkRead dev off n) s = some (s.busReadBulk dev off n).2) ∧
      (∀ dev off ws, hostMove (.bulkWrite dev off ws) s = some (s.busWriteBulk dev off ws)) ∧
      (∀ sd so dd d n, hostMove (.bulkCopy sd so dd d n) s = some (s.busCopyBulk sd so dd d n)) ∧
      (∀ dst src len, hostMove (.memMove dst src len) s = some (s.memMove dst src len))) ∧
    (s.run = true → s.paused = false →
      (∀ dev off, hostMove (.busRead dev off) s = none) ∧ (∀ dev off w, hostMove (.busWrite dev off w) s = none) ∧
      (∀ dev off n, hostMove (.bulkRead dev off n) s = none) ∧
      (∀ dev off ws, hostMove (.bulkWrite dev off ws) s = none) ∧
      (∀ sd so dd d n, hostMove (.bulkCopy sd so dd d n) s = none) ∧
      (∀ dst src len, hostMove (.memMove dst src len) s = none)) ∧
    (∀ dst src len, Memory.wf s.platform.memSize s.mem = true →
      (src + len ≤ s.platform.memSize → dst + len ≤ s.platform.memSize →
        memBytes (s.memMove dst src len).mem dst len = memBytes s.mem src len ∧
        (∀ x, x < dst ∨ dst + len ≤ x → memGet (s.memMove dst src len).mem x = memGet s.mem x) ∧
        s.memMove dst src len = { s with mem := (s.memMove dst src len).mem }) ∧
      (s.platform.memSize < src + len ∨ s.platform.memSize < dst + len → s.memMove dst src len = faulted s)) ∧
    (∀ dev, registryFind dev s.platform.registry = some .memory →
      (∀ dev' so d n, registryFind dev' s.platform.registry = some .memory →
        s.busCopyBulk dev so dev' d n = s.memMove d so (8 * n)) ∧
      (∀ off n, (off + 8 * n ≤ s.platform.memSize → (s.busReadBulk dev off n).2 = s ∧
          (s.busReadBulk dev off n).1.length = n ∧
          ∀ (k : Nat) (h : k < (s.busReadBulk dev off n).1.length),
            (s.busReadBulk dev off n).1[k] = (s.memDevRead (off + 8 * k) 8).1) ∧
        (s.platform.memSize < off + 8 * n → s.busReadBulk dev off n = (List.replicate n 0, faulted s))) ∧
      (∀ off ws, Memory.wf s.platform.memSize s.mem = true →
        (off + 8 * ws.length ≤ s.platform.memSize →
          (∀ (k : Nat) (h : k < ws.length), ((s.busWriteBulk dev off ws).memDevRead (off + 8 * k) 8).1 = ws[k]) ∧
          (∀ x, x < off ∨ off + 8 * ws.length ≤ x → memGet (s.busWriteBulk dev off ws).mem x = memGet s.mem x) ∧
          s.busWriteBulk dev off ws = { s with mem := (s.busWriteBulk dev off ws).mem }) ∧
        (s.platform.memSize < off + 8 * ws.length → s.busWriteBulk dev off ws = faulted s))) ∧
    (∀ dev, registryFind dev s.platform.registry ≠ some .memory →
      (∀ off, s.busReadBulk dev off 0 = ([], s) ∧ s.busWriteBulk dev off [] = s) ∧
      (∀ off n, let r := s.busRead dev off
        s.busReadBulk dev off (n + 1)
          = (r.1 :: (r.2.busReadBulk dev (off + 1) n).1, (r.2.busReadBulk dev (off + 1) n).2)) ∧
      (∀ off w ws, s.busWriteBulk dev off (w :: ws) = (s.busWrite dev off w).busWriteBulk dev (off + 1) ws) ∧
      (∀ dev' so d, registryFind dev' s.platform.registry ≠ some .memory →
        s.busCopyBulk dev so dev' d 0 = s ∧
        ∀ n, let r := s.busRead dev so
          s.busCopyBulk dev so dev' d (n + 1) = (r.2.busWrite dev' d r.1).busCopyBulk dev (so + 1) dev' (d + 1) n))

/-! # Memory and devices -/

/-- R62 to R64: an in-range write stores its bytes most significant first and leaves every other byte alone, a read gives
them back, and an out-of-range access raises HardwareFault once, reads 0 and writes nothing. -/
def Obligations.MemoryIsBigEndianAndRangeChecked : Prop :=
  ∀ (s : State) (a v : Nat) (z : Size), Memory.wf s.platform.memSize s.mem = true → v < 2 ^ z.bits →
    (a + z.bytes ≤ s.platform.memSize →
      (∀ i, i < z.bytes → memGet (s.memDevWrite a z.bytes v).mem (a + i) = BitVec.ofNat 8 (v / 256 ^ (z.bytes - 1 - i))) ∧
      (∀ x, (x < a ∨ a + z.bytes ≤ x) → memGet (s.memDevWrite a z.bytes v).mem x = memGet s.mem x) ∧
      (s.memDevWrite a z.bytes v).memDevRead a z.bytes = (BitVec.ofNat 64 v, s.memDevWrite a z.bytes v) ∧
      s.memDevWrite a z.bytes v = { s with mem := (s.memDevWrite a z.bytes v).mem }) ∧
    (s.platform.memSize < a + z.bytes →
      s.memDevWrite a z.bytes v = faulted s ∧ s.memDevRead a z.bytes = (0, faulted s))

/-- R73: after an 8-byte write a narrower read inside it sees the bytes at its place, the most significant ones first. -/
def Obligations.NarrowReadSeesTheBytesAtItsPlace : Prop :=
  ∀ (s : State) (a v j : Nat) (z : Size), Memory.wf s.platform.memSize s.mem = true → v < 2 ^ 64 →
    a + 8 ≤ s.platform.memSize → j + z.bytes ≤ 8 →
    ((s.memDevWrite a 8 v).memDevRead (a + j) z.bytes).1
      = BitVec.ofNat 64 (v / 256 ^ (8 - j - z.bytes) % 256 ^ z.bytes)

/-- R76, R77, R80, R81: a data access routed to an id with no device, or to a device with an empty map, raises HardwareFault
once; a read gives 0 and a write changes nothing. -/
def Obligations.UnansweredAccessRaisesHardwareFault : Prop :=
  ∀ (s : State) (addr v : Word) (z : Size), (routeOf s.platform addr).1 ≠ s.platform.memId →
    (registryFind (routeOf s.platform addr).1 s.platform.registry = none ∨
      registryFind (routeOf s.platform addr).1 s.platform.registry = some .processor ∨
      registryFind (routeOf s.platform addr).1 s.platform.registry = some .interruptController ∨
      registryFind (routeOf s.platform addr).1 s.platform.registry = some .bootManager) →
    s.dataRead addr z = (0, faulted s) ∧ s.dataWrite addr z v = faulted s

/-- R390, R391, R392, R394: what each configuration address reads as and what a write to it does, the quirk included. -/
def Obligations.ConfigurationDeviceMap : Prop :=
  ∀ (s : State) (w : Word),
    s.cfgRead 0 = (BitVec.ofNat 64 s.prot.toNat, s) ∧ s.cfgRead 1 = (BitVec.ofNat 64 s.tick.toNat, s) ∧
    s.cfgRead 2 = ((if s.cacheEn = true then 1 else 0), s) ∧
    (∀ c : Cause, s.cfgRead (0x100 + c.val) = (s.vec[c], s)) ∧
    (∀ k, (3 ≤ k ∧ k < 0x100) ∨ 0x1FF ≤ k → s.cfgRead k = (0, faulted s)) ∧
    s.cfgWrite 0 w = { s with prot := BitVec.ofNat 8 (w.toNat % 256) } ∧
    (s.platform.cfgWriteQuirk = false →
      s.cfgWrite 1 w = { s with tick := BitVec.ofNat 8 (w.toNat % 256) } ∧
      s.cfgWrite 2 w = { s with cacheEn := decide (w.toNat ≠ 0) }) ∧
    (s.platform.cfgWriteQuirk = true → s.cfgWrite 1 w = s ∧ s.cfgWrite 2 w = s) ∧
    (∀ c : Cause, (s.cfgWrite (0x100 + c.val) w).vec[c] = w ∧
      (∀ c' : Cause, c' ≠ c → (s.cfgWrite (0x100 + c.val) w).vec[c'] = s.vec[c']) ∧
      s.cfgWrite (0x100 + c.val) w = { s with vec := (s.cfgWrite (0x100 + c.val) w).vec }) ∧
    (∀ k, (3 ≤ k ∧ k < 0x100) ∨ 0x1FF ≤ k → s.cfgWrite k w = faulted s)

/-! # Operands -/

/-- R167: the effective value is base + index*scale, plus or minus the offset, over the integers, reduced once modulo
`2^64`; an absent index and offset count 0, an absent scale 1. -/
def Obligations.EffectiveValueIsReducedOnce : Prop :=
  ∀ (s : State) (b : Sub) (i c o : Option Sub),
    let B : Int := (s.subValue b).toNat
    let I : Int := match i with | some u => (s.subValue u).toNat | none => 0
    let S : Int := match c with | some u => (s.subValue u).toNat | none => 1
    let O : Int := match o with | some u => (s.subValue u).toNat | none => 0
    s.effective ⟨b, i, c, o, .plus⟩ = BitVec.ofInt 64 (B + I * S + O) ∧
    s.effective ⟨b, i, c, o, .minus⟩ = BitVec.ofInt 64 (B + I * S - O)

/-- R160 to R165: what each form of source parameter reads, and that only a pop moves RSP, out of range too; what a data read
answers: in Memory the big-endian bytes or, out of range, 0 with one HardwareFault, from another device the low bytes of its
word (R80), as for the configuration device (R393); and the bound of R160 on every value but a register's or a `CALCL`'s.
That Memory may answer under another id too, by its 8-byte word, is the model's choice (assumption 23; R83: "The instruction
set never uses this path"). -/
def Obligations.SourceParametersRead : Prop :=
  ∀ (s : State) (z : Size), (∀ r, s.readParam z (.reg r) = (s.getReg r, s)) ∧
    (∀ v, s.readParam z (.lit v) = (v, s)) ∧ (∀ c, s.readParam z (.calcl c) = (s.effective c, s)) ∧
    (∀ r, s.readParam z (.rega r) = s.dataRead (s.getReg r) z) ∧ (∀ v, s.readParam z (.lita v) = s.dataRead v z) ∧
    (∀ c, s.readParam z (.calca c) = s.dataRead (s.effective c) z) ∧
    (s.readParam z .stk).1 = (s.dataRead s.rsp z).1 ∧
    (s.readParam z .stk).2 = { (s.dataRead s.rsp z).2 with rsp := s.rsp + BitVec.ofNat 64 z.bytes } ∧
    (∀ addr off, routeOf s.platform addr = (s.platform.memId, off) →
      (off + z.bytes ≤ s.platform.memSize →
        s.dataRead addr z = (BitVec.ofNat 64 (beNat (memBytes s.mem off z.bytes)), s)) ∧
      (s.platform.memSize < off + z.bytes → s.dataRead addr z = (0, faulted s))) ∧
    (∀ addr dev off, routeOf s.platform addr = (dev, off) → dev ≠ s.platform.memId →
      s.dataRead addr z = (BitVec.ofNat 64 ((s.busRead dev off).1.toNat % 2 ^ z.bits), (s.busRead dev off).2) ∧
      (registryFind dev s.platform.registry = some .configuration → s.busRead dev off = s.cfgRead off) ∧
      (registryFind dev s.platform.registry = some .memory → s.busRead dev off = s.memDevRead off 8)) ∧
    (∀ p, p.fits z = true → (∀ r, p ≠ .reg r) → (∀ c, p ≠ .calcl c) → (s.readParam z p).1.toNat < 2 ^ z.bits)

/-- R171, R173, R175: a register destination is replaced whole; a memory destination receives the low bytes of the word, most
significant first, and no other byte changes; a stack destination moves RSP down first and stores at the new RSP; out of range
nothing is stored, one HardwareFault is raised, and RSP has still moved; a device other than Memory receives the low bytes as a
whole word (R81), as the configuration device (R393) does.  That Memory may be written under another id too, by its 8-byte
word, is the model's choice (assumption 23; R83: "The instruction set never uses this path"). -/
def Obligations.DestinationsReceiveTheWord : Prop :=
  ∀ (s : State) (z : Size) (v : Word), Memory.wf s.platform.memSize s.mem = true →
    (∀ r, (s.writeLoc z (.reg r) v).getReg r = v ∧
      (∀ q, q ≠ r → (s.writeLoc z (.reg r) v).getReg q = s.getReg q) ∧ (s.writeLoc z (.reg r) v).mem = s.mem ∧
      (s.writeLoc z (.reg r) v).queue = s.queue) ∧
    (∀ addr off, routeOf s.platform addr = (s.platform.memId, off) →
      (off + z.bytes ≤ s.platform.memSize →
        memBytes (s.writeLoc z (.mem addr) v).mem off z.bytes = beBytes z.bytes v.toNat ∧
        (∀ x, (x < off ∨ off + z.bytes ≤ x) → memGet (s.writeLoc z (.mem addr) v).mem x = memGet s.mem x) ∧
        s.writeLoc z (.mem addr) v = { s with mem := (s.writeLoc z (.mem addr) v).mem }) ∧
      (s.platform.memSize < off + z.bytes → s.writeLoc z (.mem addr) v = faulted s)) ∧
    (∀ addr dev off, routeOf s.platform addr = (dev, off) → dev ≠ s.platform.memId →
      s.writeLoc z (.mem addr) v = s.busWrite dev off (BitVec.ofNat 64 (v.toNat % 2 ^ z.bits)) ∧
      (registryFind dev s.platform.registry = some .configuration → ∀ w, s.busWrite dev off w = s.cfgWrite off w) ∧
      (registryFind dev s.platform.registry = some .memory → ∀ w, s.busWrite dev off w = s.memDevWrite off 8 w.toNat)) ∧
    (∀ off, routeOf s.platform (s.rsp - BitVec.ofNat 64 z.bytes) = (s.platform.memId, off) →
      (off + z.bytes ≤ s.platform.memSize →
        memBytes (s.writeLoc z .stk v).mem off z.bytes = beBytes z.bytes v.toNat ∧
        (∀ x, (x < off ∨ off + z.bytes ≤ x) → memGet (s.writeLoc z .stk v).mem x = memGet s.mem x) ∧
        s.writeLoc z .stk v
          = { s with rsp := s.rsp - BitVec.ofNat 64 z.bytes, mem := (s.writeLoc z .stk v).mem }) ∧
      (s.platform.memSize < off + z.bytes →
        s.writeLoc z .stk v = { faulted s with rsp := s.rsp - BitVec.ofNat 64 z.bytes })) ∧
    (∀ dev off, routeOf s.platform (s.rsp - BitVec.ofNat 64 z.bytes) = (dev, off) → dev ≠ s.platform.memId →
      s.writeLoc z .stk v
        = State.busWrite { s with rsp := s.rsp - BitVec.ofNat 64 z.bytes } dev off (BitVec.ofNat 64 (v.toNat % 2 ^ z.bits)))

/-- R196: PUSH of a parameter is MOV of it to the stack; POP is MOV from the stack unless the destination's locator reads
RSP. -/
def Obligations.PushAndPopAreMovesOfTheStack : Prop :=
  ∀ (s : State) (z : Size) (p : Param), exec (.push z p) s = exec (.mov z p .stk) s ∧
    (p.writable = true → locatorReadsRsp p = false → exec (.pop z p) s = exec (.mov z .stk p) s)

/-! # Data movement and control: where each instruction completes -/

/-- R191: MOV. -/
def Obligations.MovCopiesTheValue : Prop :=
  ∀ (s : State) (z : Size) (p q : Param), Encoded (.mov z p q) 0x01 [.s, .d] ∧ (q.writable = true →
    exec (.mov z p q) s
      = .next (delivered z q (s.lengthOf (.mov z p q)) (after1 s z p) (after1 s z p) (val1 s z p)))

/-- R192: XCHG reads both values before it writes either, `dst(1)` first. -/
def Obligations.XchgSwapsTheValues : Prop :=
  ∀ (s : State) (z : Size) (p q : Param), Encoded (.xchg z p q) 0x02 [.x, .x] ∧ (p.writable = true → q.writable = true →
    exec (.xchg z p q) s
      = .next ((((after2 s z p q).writeLoc z (s.locate p) (val2 s z p q)).writeLoc z ((after1 s z p).locate q)
          (val1 s z p)).advance (s.lengthOf (.xchg z p q))))

/-- R194, R195: PUSH reads, moves RSP down and stores; POP locates, loads, moves RSP up and writes. -/
def Obligations.PushStoresAndPopLoads : Prop :=
  ∀ (s : State) (z : Size) (p : Param), Encoded (.push z p) 0x03 [.s] ∧ Encoded (.pop z p) 0x04 [.d] ∧
    exec (.push z p) s
      = .next (((State.dataWrite { (after1 s z p) with rsp := (after1 s z p).rsp - BitVec.ofNat 64 z.bytes }
          ((after1 s z p).rsp - BitVec.ofNat 64 z.bytes) z (val1 s z p))).advance (s.lengthOf (.push z p))) ∧
    (p.writable = true →
      exec (.pop z p) s
        = .next ((State.writeLoc { (s.dataRead s.rsp z).2 with rsp := s.rsp + BitVec.ofNat 64 z.bytes } z (s.locate p)
            (s.dataRead s.rsp z).1).advance (s.lengthOf (.pop z p))))

/-- R211, R212, R213: JMP, and JZ and JNZ taken and not taken; both parameters of a conditional jump are resolved either
way. -/
def Obligations.JumpsSetRipToTheTarget : Prop :=
  ∀ (s : State) (z : Size) (p q : Param),
    Encoded (.jmp z p) 0x10 [.s] ∧ Encoded (.jz z p q) 0x11 [.s, .s] ∧ Encoded (.jnz z p q) 0x12 [.s, .s] ∧
    exec (.jmp z p) s = .next { (after1 s z p) with rip := val1 s z p } ∧
    (val1 s z p = 0 → exec (.jz z p q) s = .next { (after2 s z p q) with rip := val2 s z p q }) ∧
    (val1 s z p ≠ 0 → exec (.jz z p q) s = .next ((after2 s z p q).advance (s.lengthOf (.jz z p q)))) ∧
    (val1 s z p ≠ 0 → exec (.jnz z p q) s = .next { (after2 s z p q) with rip := val2 s z p q }) ∧
    (val1 s z p = 0 → exec (.jnz z p q) s = .next ((after2 s z p q).advance (s.lengthOf (.jnz z p q))))

/-! # Interrupt control, debug and miscellaneous -/

/-- R221, R222: INT enqueues its operand if it is a cause number, and InvalidInstruction otherwise; RIP advances. -/
def Obligations.IntEnqueuesItsCause : Prop :=
  ∀ (s : State) (z : Size) (p : Param), Encoded (.int z p) 0x20 [.s] ∧
    (∀ c : Cause, (val1 s z p).toNat = c.val →
      exec (.int z p) s = .next { (after1 s z p) with
        queue := (after1 s z p).queue ++ [c], rip := s.rip + BitVec.ofNat 64 (s.lengthOf (.int z p)) }) ∧
    (254 < (val1 s z p).toNat →
      exec (.int z p) s = .next { (after1 s z p) with
        queue := (after1 s z p).queue ++ [s.platform.causes.invalidInstruction], rip := s.rip + BitVec.ofNat 64 (s.lengthOf (.int z p)) })

/-- R224, R225, R226: EINT restores RIP and clears both service flags; INTE and INTD write IE; nothing else changes. -/
def Obligations.InterruptControlInstructions : Prop :=
  ∀ (s : State) (z : Size),
    Encoded (.eint z) 0x21 [] ∧ Encoded (.inte z) 0x22 [] ∧ Encoded (.intd z) 0x23 [] ∧
    exec (.eint z) s = .next { s with rip := s.rsip, isr := false, pisr := false } ∧
    exec (.inte z) s = .next { s with ie := true, rip := s.rip + 8 } ∧
    exec (.intd z) s = .next { s with ie := false, rip := s.rip + 8 }

/-- R227, R342, R343: HLT asks the host for a wait and changes no machine state; PAU pauses and raises the breakpoint event;
NOP only advances RIP. -/
def Obligations.HltPauAndNop : Prop :=
  ∀ (s : State) (z : Size),
    Encoded (.hlt z) 0x24 [] ∧ Encoded (.pau z) 0x71 [] ∧ Encoded (.nop z) 0x00 [] ∧
    exec (.hlt z) s = .next { s with events := s.events ++ [.quantumWait] } ∧
    exec (.pau z) s = .next { s with paused := true, events := s.events ++ [.breakpoint], rip := s.rip + 8 } ∧
    exec (.nop z) s = .next { s with rip := s.rip + 8 }

/-- R341: DBG writes a fresh free clock word to its destination (the word's value is free: assumption 5). -/
def Obligations.DbgWritesAFreshClockWord : Prop :=
  ∀ (s : State) (z : Size) (d : Param), Encoded (.dbg z d) 0x70 [.d] ∧ (d.writable = true →
    exec (.dbg z d) s
      = .next (delivered z d (s.lengthOf (.dbg z d)) s { s with clockDraws := s.clockDraws + 1 }
          (Config.clock s.clockDraws)))

/-! # Integer arithmetic -/

/-- R241, R242, R245: ADD, SUB (`b - a`) and MUL. -/
def Obligations.AddSubMulResults : Prop :=
  ∀ (s : State) (z : Size) (p q d : Param), d.writable = true →
    let a := (val1 s z p).toNat
    let b := (val2 s z p q).toNat
    let s2 := after2 s z p q
    Encoded (.add z p q d) 0x30 [.s, .s, .d] ∧ Encoded (.sub z p q d) 0x31 [.s, .s, .d] ∧
    Encoded (.mul z p q d) 0x34 [.s, .s, .d] ∧
    exec (.add z p q d) s
      = .next (delivered z d (s.lengthOf (.add z p q d)) s2 (rcSetWhen (2 ^ z.bits - 1 < a + b) s2)
          (BitVec.ofNat 64 ((a + b) % 2 ^ z.bits))) ∧
    exec (.sub z p q d) s
      = .next (delivered z d (s.lengthOf (.sub z p q d)) s2 (rcSetWhen (b < a) s2)
          (BitVec.ofInt 64 (((b : Int) - (a : Int)) % 2 ^ z.bits))) ∧
    exec (.mul z p q d) s
      = .next (delivered z d (s.lengthOf (.mul z p q d)) s2 (rcSetWhen (2 ^ z.bits - 1 < a * b) s2)
          (BitVec.ofNat 64 (a * b % 2 ^ z.bits)))

/-- R243, R244: ADC and SBB; the carry is 1 only when RC is all ones, it is added to `a`, and where it alone overflows the
destination receives the mask. -/
def Obligations.AdcSbbResults : Prop :=
  ∀ (s : State) (z : Size) (p q d : Param), d.writable = true →
    let a := (val1 s z p).toNat
    let b := (val2 s z p q).toNat
    let s2 := after2 s z p q
    let c := if s.rc = allOnes then 1 else 0
    Encoded (.adc z p q d) 0x32 [.s, .s, .d] ∧ Encoded (.sbb z p q d) 0x33 [.s, .s, .d] ∧
    (c = 1 ∧ 2 ^ z.bits - 1 < a + 1 →
      exec (.adc z p q d) s
        = .next (delivered z d (s.lengthOf (.adc z p q d)) s2 { s2 with rc := allOnes } (BitVec.ofNat 64 (2 ^ z.bits - 1))) ∧
      exec (.sbb z p q d) s
        = .next (delivered z d (s.lengthOf (.sbb z p q d)) s2 { s2 with rc := allOnes }
            (BitVec.ofNat 64 (2 ^ z.bits - 1)))) ∧
    (¬(c = 1 ∧ 2 ^ z.bits - 1 < a + 1) →
      exec (.adc z p q d) s
        = .next (delivered z d (s.lengthOf (.adc z p q d)) s2 (rcSetWhen (2 ^ z.bits - 1 < a + c + b) s2)
            (BitVec.ofNat 64 ((a + c + b) % 2 ^ z.bits))) ∧
      exec (.sbb z p q d) s
        = .next (delivered z d (s.lengthOf (.sbb z p q d)) s2 (rcSetWhen (b < a + c) s2)
            (BitVec.ofInt 64 (((b : Int) - ((a : Int) + c)) % 2 ^ z.bits))))

/-- R246, R247: DIV and MOD divide parameter 2 by parameter 1; a zero divisor enqueues DivideByZero, writes nothing and RIP
advances. -/
def Obligations.DivModResults : Prop :=
  ∀ (s : State) (z : Size) (p q d : Param), d.writable = true →
    let a := (val1 s z p).toNat
    let b := (val2 s z p q).toNat
    let s2 := after2 s z p q
    Encoded (.div z p q d) 0x35 [.s, .s, .d] ∧ Encoded (.mod z p q d) 0x36 [.s, .s, .d] ∧
    (a ≠ 0 →
      exec (.div z p q d) s
        = .next (delivered z d (s.lengthOf (.div z p q d)) s2 s2 (BitVec.ofNat 64 (b / a % 2 ^ z.bits))) ∧
      exec (.mod z p q d) s
        = .next (delivered z d (s.lengthOf (.mod z p q d)) s2 s2 (BitVec.ofNat 64 (b % a % 2 ^ z.bits)))) ∧
    (a = 0 →
      exec (.div z p q d) s = .next { s2 with
        queue := s2.queue ++ [s.platform.causes.divideByZero], rip := s2.rip + BitVec.ofNat 64 (s.lengthOf (.div z p q d)) } ∧
      exec (.mod z p q d) s = .next { s2 with
        queue := s2.queue ++ [s.platform.causes.divideByZero], rip := s2.rip + BitVec.ofNat 64 (s.lengthOf (.mod z p q d)) })

/-- R248, R249, R250: INC, DEC, and NEG, which toggles bit `8s - 1` and no other and leaves RC alone. -/
def Obligations.IncDecNegResults : Prop :=
  ∀ (s : State) (z : Size) (p d : Param), d.writable = true →
    let a := (val1 s z p).toNat
    let s1 := after1 s z p
    Encoded (.inc z p d) 0x37 [.s, .d] ∧ Encoded (.dec z p d) 0x38 [.s, .d] ∧ Encoded (.neg z p d) 0x39 [.s, .d] ∧
    exec (.inc z p d) s
      = .next (delivered z d (s.lengthOf (.inc z p d)) s1 (rcSetWhen (2 ^ z.bits - 1 < a + 1) s1)
          (BitVec.ofNat 64 ((a + 1) % 2 ^ z.bits))) ∧
    exec (.dec z p d) s
      = .next (delivered z d (s.lengthOf (.dec z p d)) s1 (rcSetWhen (a = 0) s1)
          (BitVec.ofInt 64 (((a : Int) - 1) % 2 ^ z.bits))) ∧
    ∃ w : Word, (∀ k, k < 64 → (w.getLsbD k = if k = z.bits - 1 then !(val1 s z p).getLsbD k else (val1 s z p).getLsbD k)) ∧
      exec (.neg z p d) s = .next (delivered z d (s.lengthOf (.neg z p d)) s1 s1 w)

/-- R251 (b): for a divisor that is not zero and operands within the mask, dividend = divisor * quotient + remainder, and the
remainder is below the divisor. -/
def Obligations.QuotientAndRemainderAgree : Prop :=
  ∀ (s t u : State) (z : Size) (p q : Param) (n k : Fin 16), val1 s z p ≠ 0 → (val1 s z p).toNat < 2 ^ z.bits →
    (val2 s z p q).toNat < 2 ^ z.bits → exec (.div z p q (.reg (.gpr n))) s = .next t →
    exec (.mod z p q (.reg (.gpr k))) s = .next u →
    (val2 s z p q).toNat
        = (val1 s z p).toNat * (t.getReg (.gpr n)).toNat + (u.getReg (.gpr k)).toNat ∧
      (u.getReg (.gpr k)).toNat < (val1 s z p).toNat

/-! # Floating point -/

/-- R273, R274, R275: ADF, SBF (`b - a`) and MLF write the binary64 result, and some NaN pattern where the result is a NaN
(which one is free: assumption 6). -/
def Obligations.FloatAddSubMulResults : Prop :=
  ∀ (s : State) (z : Size) (p q d : Param), d.writable = true →
    let a := val1 s z p
    let b := val2 s z p q
    let s2 := after2 s z p q
    ∀ mk opc f, (mk, opc, f) ∈ [(Instr.adf, 0x40, fnum.add a b), (Instr.sbf, 0x41, fnum.sub b a),
        (Instr.mlf, 0x42, fnum.mul a b)] →
      Encoded (mk z p q d) opc [.s, .s, .d] ∧
      (∀ w, f = some w → exec (mk z p q d) s = .next (delivered z d (s.lengthOf (mk z p q d)) s2 s2 w)) ∧
      (f = none → ∃ w, fIsNaN w = true ∧
        exec (mk z p q d) s
          = .next (delivered z d (s.lengthOf (mk z p q d)) s2 { s2 with nanDraws := s2.nanDraws + 1 } w))

/-- R276, R277: DVF and MDF divide parameter 2 by parameter 1; a divisor whose value is zero, of either sign, enqueues
DivideByZero, writes nothing and RIP advances. -/
def Obligations.FloatDivRemResults : Prop :=
  ∀ (s : State) (z : Size) (p q d : Param), d.writable = true →
    let a := val1 s z p
    let b := val2 s z p q
    let s2 := after2 s z p q
    ∀ mk opc f, (mk, opc, f) ∈ [(Instr.dvf, 0x43, fnum.div b a), (Instr.mdf, 0x44, fnum.rem b a)] →
      Encoded (mk z p q d) opc [.s, .s, .d] ∧
      (a ≠ 0 → a ≠ 0x8000000000000000#64 →
        (∀ w, f = some w → exec (mk z p q d) s = .next (delivered z d (s.lengthOf (mk z p q d)) s2 s2 w)) ∧
        (f = none → ∃ w, fIsNaN w = true ∧
          exec (mk z p q d) s
            = .next (delivered z d (s.lengthOf (mk z p q d)) s2 { s2 with nanDraws := s2.nanDraws + 1 } w))) ∧
      (a = 0 ∨ a = 0x8000000000000000#64 →
        exec (mk z p q d) s = .next { s2 with
          queue := s2.queue ++ [s.platform.causes.divideByZero], rip := s2.rip + BitVec.ofNat 64 (s.lengthOf (mk z p q d)) })

/-- R271: rounding is to nearest, ties to even, with overflow to infinity from `2^1024 - 2^970` on; and of finite operands
each operation answers its exact result, rounded, with its sign, an exact zero's sign included (the sign of a zero is the
standard's, assumption 18); a remainder is exact. -/
def Obligations.FloatRoundingIsToNearestEven : Prop :=
  (∀ n d : Nat, 0 < d → RoundsTo n d (roundLow n d)) ∧
  ∀ x y : Word, IsFinite x → IsFinite y →
    RoundsToSigned (fUnits x + fUnits y) (fSign x && fSign y) (fnum.add x y) ∧
    RoundsToSigned (fUnits x - fUnits y) (fSign x && !fSign y) (fnum.sub x y) ∧
    RoundsToMagnitude (fMag x * fMag y) (2 ^ 1074) (fSign x != fSign y) (fnum.mul x y) ∧
    (fIsZero y = false →
      RoundsToMagnitude (fMag x * 2 ^ 1074) (fMag y) (fSign x != fSign y) (fnum.div x y) ∧
      ∃ w, fnum.rem x y = some w ∧ IsFinite w ∧ fMag w = fMag x % fMag y ∧ fSign w = fSign x)

/-- R270: `bits64` undoes `f64`: a finite value rounds to its own pattern, signed zeros and subnormals included. -/
def Obligations.FinitePatternsRoundToThemselves : Prop :=
  ∀ w : Word, IsFinite w → fPack (fSign w) (roundLow (fMag w) 1) = w

/-- R271: a result is a NaN exactly where an input is one or the operation is invalid, no other result is a NaN pattern,
and the free draw is exactly of the NaN patterns; and what an infinite operand gives where the operation is valid (the
standard's conventions, assumption 18). -/
def Obligations.NanResultsExactlyWhereInvalid : Prop :=
  (∀ raw : Word, fIsNaN (nanFrom raw) = true) ∧ (∀ w : Word, fIsNaN w = true → ∃ raw, nanFrom raw = w) ∧
  ∀ x y : Word,
    (fnum.add x y = none ↔ fIsNaN x = true ∨ fIsNaN y = true ∨
      (fIsInf x = true ∧ fIsInf y = true ∧ fSign x ≠ fSign y)) ∧
    (fnum.sub x y = none ↔ fIsNaN x = true ∨ fIsNaN y = true ∨
      (fIsInf x = true ∧ fIsInf y = true ∧ fSign x = fSign y)) ∧
    (fnum.mul x y = none ↔ fIsNaN x = true ∨ fIsNaN y = true ∨
      (fIsInf x = true ∧ fIsZero y = true) ∨ (fIsZero x = true ∧ fIsInf y = true)) ∧
    (fIsZero y = false → (fnum.div x y = none ↔ fIsNaN x = true ∨ fIsNaN y = true ∨
      (fIsInf x = true ∧ fIsInf y = true))) ∧
    (fIsZero y = false → (fnum.rem x y = none ↔ fIsNaN x = true ∨ fIsNaN y = true ∨ fIsInf x = true)) ∧
    (∀ w, fnum.add x y = some w ∨ fnum.sub x y = some w ∨ fnum.mul x y = some w ∨ fnum.div x y = some w ∨
      fnum.rem x y = some w → fIsNaN w = false) ∧
    (fIsNaN x = false → fIsNaN y = false →
      (fIsInf x = true → (fIsInf y = false ∨ fSign x = fSign y) → fnum.add x y = some x) ∧
      (fIsInf x = false → fIsInf y = true → fnum.add x y = some y) ∧
      (fIsInf x = true → (fIsInf y = false ∨ fSign x ≠ fSign y) → fnum.sub x y = some x) ∧
      (fIsInf x = false → fIsInf y = true → fnum.sub x y = some (fPack (!fSign y) fInfLow)) ∧
      (fIsInf x = true ∨ fIsInf y = true → fIsZero x = false → fIsZero y = false →
        fnum.mul x y = some (fPack (fSign x != fSign y) fInfLow)) ∧
      (fIsInf x = true → fIsInf y = false → fnum.div x y = some (fPack (fSign x != fSign y) fInfLow)) ∧
      (fIsInf x = false → fIsInf y = true →
        fnum.div x y = some (fPack (fSign x != fSign y) 0) ∧ fnum.rem x y = some x)) ∧
    (∀ b, fIsInf (fPack b fInfLow) = true ∧ fSign (fPack b fInfLow) = b ∧ fIsZero (fPack b 0) = true ∧
      fSign (fPack b 0) = b)

/-! # Bitwise, shifts, rotates, comparisons -/

/-- R291 to R297: each bitwise instruction is over all 64 bits of the resolved words, at every size. -/
def Obligations.BitwiseResults : Prop :=
  ∀ (s : State) (z : Size) (p q d : Param), d.writable = true →
    let a := val1 s z p
    let b := val2 s z p q
    let s1 := after1 s z p
    let s2 := after2 s z p q
    Encoded (.and z p q d) 0x50 [.s, .s, .d] ∧ Encoded (.or z p q d) 0x51 [.s, .s, .d] ∧
    Encoded (.xor z p q d) 0x52 [.s, .s, .d] ∧ Encoded (.nand z p q d) 0x53 [.s, .s, .d] ∧
    Encoded (.nor z p q d) 0x54 [.s, .s, .d] ∧ Encoded (.nxor z p q d) 0x55 [.s, .s, .d] ∧
    Encoded (.not z p d) 0x56 [.s, .d] ∧
    exec (.and z p q d) s = .next (delivered z d (s.lengthOf (.and z p q d)) s2 s2 (a &&& b)) ∧
    exec (.or z p q d) s = .next (delivered z d (s.lengthOf (.or z p q d)) s2 s2 (a ||| b)) ∧
    exec (.xor z p q d) s = .next (delivered z d (s.lengthOf (.xor z p q d)) s2 s2 (a ^^^ b)) ∧
    exec (.nand z p q d) s = .next (delivered z d (s.lengthOf (.nand z p q d)) s2 s2 (allOnes - (a &&& b))) ∧
    exec (.nor z p q d) s = .next (delivered z d (s.lengthOf (.nor z p q d)) s2 s2 (allOnes - (a ||| b))) ∧
    exec (.nxor z p q d) s = .next (delivered z d (s.lengthOf (.nxor z p q d)) s2 s2 (allOnes - (a ^^^ b))) ∧
    exec (.not z p d) s = .next (delivered z d (s.lengthOf (.not z p d)) s1 s1 (allOnes - a))

/-- R301 to R304: shifts are logical on the value reduced to the declared width, with 0 at a count of the width or more;
rotates are those of the declared width, the count reduced modulo it; the count is the low byte of parameter 1. -/
def Obligations.ShiftAndRotateResults : Prop :=
  ∀ (s : State) (z : Size) (p q d : Param), d.writable = true →
    let n := (val1 s z p).toNat % 256
    let v : BitVec z.bits := BitVec.ofNat z.bits (val2 s z p q).toNat
    let s2 := after2 s z p q
    Encoded (.sr z p q d) 0x58 [.s, .s, .d] ∧ Encoded (.sl z p q d) 0x59 [.s, .s, .d] ∧
    Encoded (.rr z p q d) 0x5A [.s, .s, .d] ∧ Encoded (.rl z p q d) 0x5B [.s, .s, .d] ∧
    exec (.sr z p q d) s = .next (delivered z d (s.lengthOf (.sr z p q d)) s2 s2 ((v >>> n).setWidth 64)) ∧
    exec (.sl z p q d) s = .next (delivered z d (s.lengthOf (.sl z p q d)) s2 s2 ((v <<< n).setWidth 64)) ∧
    exec (.rr z p q d) s = .next (delivered z d (s.lengthOf (.rr z p q d)) s2 s2 ((v.rotateRight n).setWidth 64)) ∧
    exec (.rl z p q d) s = .next (delivered z d (s.lengthOf (.rl z p q d)) s2 s2 ((v.rotateLeft n).setWidth 64))

/-- R321 to R326: each comparison is `b <op> a`, unsigned and on whole words; RC is set when it holds and left alone when
not, and the destination receives all ones or 0. -/
def Obligations.ComparisonResults : Prop :=
  ∀ (s : State) (z : Size) (p q d : Param), d.writable = true →
    let a := val1 s z p
    let b := val2 s z p q
    let s2 := after2 s z p q
    ∀ mk opc t, (mk, opc, t) ∈ [(Instr.gt, 0x60, BitVec.ult a b), (Instr.gte, 0x61, BitVec.ule a b),
        (Instr.lt, 0x62, BitVec.ult b a), (Instr.lte, 0x63, BitVec.ule b a), (Instr.eq, 0x64, b == a),
        (Instr.neq, 0x65, b != a)] →
      Encoded (mk z p q d) opc [.s, .s, .d] ∧
      exec (mk z p q d) s
        = .next (delivered z d (s.lengthOf (mk z p q d)) s2 (rcSetWhen (t = true) s2) (if t = true then allOnes else 0))

/-! # Frames -/

/-- What ADD, SUB, ADC, SBB, MUL and the comparisons leave unchanged. -/
def Obligations.RcSettingInstructionsFrame : Prop :=
  ∀ mk ∈ rcForms, ∀ (s t : State) (z : Size) (p q d : Param), Memory.wf s.platform.memSize s.mem = true →
    exec (mk z p q d) s = .next t →
    let l := (after2 s z p q).locate d
    SameRegistersBut (fun r => r = .rc ∨ l = .reg r ∨ (r = .rsp ∧ (p = .stk ∨ q = .stk ∨ d = .stk))) s t ∧
    (l ≠ .reg .rc → t.rc = s.rc ∨ t.rc = allOnes) ∧
    SameControl s t ∧ SameRecord s t ∧ t.nanDraws = s.nanDraws ∧ t.platform = s.platform ∧ OnlyHardwareFaults s t ∧
    OnlyStoresAt z (storeAddress z (after2 s z p q) l).toList s t

/-- What DIV, MOD, the three-parameter bitwise instructions and the shifts and rotates leave unchanged, RC among it; DIV and
MOD append DivideByZero last where they divide by zero. -/
def Obligations.PlainInstructionsFrame : Prop :=
  ∀ mk ∈ plainForms, ∀ (s t : State) (z : Size) (p q d : Param), Memory.wf s.platform.memSize s.mem = true →
    exec (mk z p q d) s = .next t →
    let l := (after2 s z p q).locate d
    SameRegistersBut (fun r => l = .reg r ∨ (r = .rsp ∧ (p = .stk ∨ q = .stk ∨ d = .stk))) s t ∧
    SameControl s t ∧ SameRecord s t ∧ t.nanDraws = s.nanDraws ∧ t.platform = s.platform ∧
    (OnlyHardwareFaults s t ∨ ((mk = .div ∨ mk = .mod) ∧ val1 s z p = 0 ∧ DividedByZero s t)) ∧
    OnlyStoresAt z (storeAddress z (after2 s z p q) l).toList s t

/-- What the floating instructions leave unchanged, RC among it; DVF and MDF append DivideByZero last where they divide by a
zero of either sign. -/
def Obligations.FloatInstructionsFrame : Prop :=
  ∀ mk ∈ floatForms, ∀ (s t : State) (z : Size) (p q d : Param), Memory.wf s.platform.memSize s.mem = true →
    exec (mk z p q d) s = .next t →
    let l := (after2 s z p q).locate d
    SameRegistersBut (fun r => l = .reg r ∨ (r = .rsp ∧ (p = .stk ∨ q = .stk ∨ d = .stk))) s t ∧
    SameControl s t ∧ SameRecord s t ∧ t.platform = s.platform ∧
    (OnlyHardwareFaults s t ∨ ((mk = .dvf ∨ mk = .mdf) ∧ (val1 s z p = 0 ∨ val1 s z p = 0x8000000000000000#64) ∧
      DividedByZero s t)) ∧
    OnlyStoresAt z (storeAddress z (after2 s z p q) l).toList s t

/-- What MOV, NEG and NOT leave unchanged, RC among it, and INC and DEC, which may set RC. -/
def Obligations.TwoParameterInstructionsFrame : Prop :=
  ∀ mk ∈ [Instr.mov, Instr.neg, Instr.not, Instr.inc, Instr.dec], ∀ (s t : State) (z : Size) (p d : Param),
    Memory.wf s.platform.memSize s.mem = true → exec (mk z p d) s = .next t →
    let l := (after1 s z p).locate d
    SameRegistersBut (fun r => (r = .rc ∧ setsRc (mk z p d) = true) ∨ l = .reg r ∨
      (r = .rsp ∧ (p = .stk ∨ d = .stk))) s t ∧
    (l ≠ .reg .rc → t.rc = s.rc ∨ t.rc = allOnes) ∧
    SameControl s t ∧ SameRecord s t ∧ t.nanDraws = s.nanDraws ∧ t.platform = s.platform ∧ OnlyHardwareFaults s t ∧
    OnlyStoresAt z (storeAddress z (after1 s z p) l).toList s t

/-- What XCHG, PUSH, POP and DBG leave unchanged: XCHG writes its two locations, PUSH stores below RSP, POP and DBG write
their destination; a push through a `STK` destination stores below the RSP it finds. -/
def Obligations.StackAndExchangeFrame : Prop :=
  ∀ (s t : State) (z : Size) (p q : Param), Memory.wf s.platform.memSize s.mem = true →
    (exec (.push z p) s = .next t →
      SameRegistersBut (fun r => r = .rsp) s t ∧ SameControl s t ∧ SameRecord s t ∧ t.nanDraws = s.nanDraws ∧
      t.platform = s.platform ∧ OnlyHardwareFaults s t ∧
      OnlyStoresAt z [(after1 s z p).rsp - BitVec.ofNat 64 z.bytes] s t) ∧
    (exec (.pop z p) s = .next t →
      SameRegistersBut (fun r => r = .rsp ∨ s.locate p = .reg r) s t ∧ SameControl s t ∧ SameRecord s t ∧
      t.nanDraws = s.nanDraws ∧ t.platform = s.platform ∧ OnlyHardwareFaults s t ∧
      OnlyStoresAt z (storeAddress z (s.pop z).2 (s.locate p)).toList s t) ∧
    (exec (.dbg z p) s = .next t →
      SameRegistersBut (fun r => s.locate p = .reg r ∨ (r = .rsp ∧ p = .stk)) s t ∧ SameControl s t ∧
      t.events = s.events ∧ t.nanDraws = s.nanDraws ∧ t.platform = s.platform ∧ OnlyHardwareFaults s t ∧
      OnlyStoresAt z (storeAddress z s (s.locate p)).toList s t) ∧
    (exec (.xchg z p q) s = .next t →
      let l1 := s.locate p
      let l2 := (after1 s z p).locate q
      let w1 := (after2 s z p q).writeLoc z l1 (val2 s z p q)
      SameRegistersBut (fun r => l1 = .reg r ∨ l2 = .reg r ∨ (r = .rsp ∧ (p = .stk ∨ q = .stk))) s t ∧ SameControl s t ∧
      SameRecord s t ∧ t.nanDraws = s.nanDraws ∧ t.platform = s.platform ∧ OnlyHardwareFaults s t ∧
      OnlyStoresAt z ((storeAddress z (after2 s z p q) l1).toList ++ (storeAddress z w1 l2).toList) s t)

/-- What JMP, JZ, JNZ and INT leave unchanged: everything but RIP, the queue, and RSP where a parameter is popped. -/
def Obligations.JumpsAndIntFrame : Prop :=
  ∀ (s t : State) (z : Size) (p q : Param) (i : Instr),
    (i = .jmp z p ∨ i = .jz z p q ∨ i = .jnz z p q ∨ i = .int z p) → exec i s = .next t →
    SameRegistersBut (fun r => r = .rsp ∧ .stk ∈ i.params) s t ∧ SameControl s t ∧ SameRecord s t ∧
    t.nanDraws = s.nanDraws ∧ t.platform = s.platform ∧ SameDevice s t ∧ t.mem = s.mem ∧
    (OnlyHardwareFaults s t ∨ ∃ c n, i = .int z p ∧ t.queue = s.queue ++ List.replicate n s.platform.causes.hardwareFault ++ [c])
end

