-- ==== Sys2Proof/Laws/Memory.lean ====
section
/-!
SUPPORT. Laws of byte order and of the memory list: the canonical form is kept, a read after a write gives the value
written, and a write leaves every other place alone.
-/

namespace Sys2Proof.Machine

/-! ## Byte order -/

@[simp] theorem beBytes_length (n v : Nat) : (beBytes n v).length = n := by
  induction n with
  | zero => rfl
  | succ n ih => simp [beBytes, ih]

/-- Bytes stand for an integer below `256^n`. -/
theorem beNat_lt (bs : List Byte) : beNat bs < 256 ^ bs.length := by
  induction bs with
  | nil => simp [beNat]
  | cons b bs ih =>
    have hb : b.toNat < 256 := b.isLt
    have h : b.toNat * 256 ^ bs.length ≤ 255 * 256 ^ bs.length := Nat.mul_le_mul_right _ (by omega)
    simp only [beNat, List.length_cons, pow_succ]
    omega

/-- Reading back the low `n` bytes of `v` gives `v mod 256^n`. -/
@[simp] theorem beNat_beBytes (n v : Nat) : beNat (beBytes n v) = v % 256 ^ n := by
  induction n with
  | zero => simp [beBytes, beNat, Nat.mod_one]
  | succ n ih =>
    have h : v % 256 ^ (n + 1) = v % 256 ^ n + 256 ^ n * (v / 256 ^ n % 256) := by rw [pow_succ, Nat.mod_mul]
    simp only [beBytes, beNat, beBytes_length, ih, BitVec.toNat_ofNat, h]
    rw [Nat.mul_comm, Nat.add_comm]

/-- `256^n` at an operand size is `2^W`. -/
theorem pow_bytes_bits (z : Size) : 256 ^ z.bytes = 2 ^ z.bits := by cases z <;> rfl

/-! ## One byte -/

/-- Below every listed address memory reads as 0. -/
theorem memGet_below {lo hi : Nat} {m : Memory} (h : memWfFrom lo hi m = true) {a : Nat} (ha : a < lo) : memGet m a = 0 := by
  induction m generalizing lo with
  | nil => rfl
  | cons e rest ih =>
    obtain ⟨k, b⟩ := e
    simp only [memWfFrom, Bool.and_eq_true, decide_eq_true_eq] at h
    rw [memGet, if_neg (by omega)]
    exact ih h.2 (by omega)

/-- The canonical form from a bound on is one from every lower bound on. -/
theorem memWfFrom_mono {lo lo' hi : Nat} {m : Memory} (h : memWfFrom lo hi m = true) (hl : lo' ≤ lo) :
    memWfFrom lo' hi m = true := by
  cases m with
  | nil => rfl
  | cons e rest =>
    simp only [memWfFrom, Bool.and_eq_true, decide_eq_true_eq] at h ⊢
    exact ⟨⟨⟨by omega, h.1.1.2⟩, h.1.2⟩, h.2⟩

/-- What one byte's write does to every byte's read. -/
theorem memGet_memSet {lo hi : Nat} {m : Memory} (h : memWfFrom lo hi m = true) (a : Nat) (v : Byte) (x : Nat) :
    memGet (memSet m a v) x = if x = a then v else memGet m x := by
  induction m generalizing lo with
  | nil =>
    by_cases hv : v = 0
    · simp [memSet, memGet, hv]
    · rw [memSet, if_neg hv, memGet]
      simp only [memGet, eq_comm]
  | cons e rest ih =>
    obtain ⟨k, b⟩ := e
    simp only [memWfFrom, Bool.and_eq_true, decide_eq_true_eq] at h
    have hlow : ∀ y, y ≤ k → memGet rest y = 0 := fun y hy => memGet_below h.2 (by omega)
    rw [memSet]
    split
    · rename_i hak
      by_cases hv : v = 0 <;> by_cases hx : x = a <;> simp only [hv, hx, if_true, if_false, memGet]
      · rw [if_neg (by omega)]; exact hlow a (by omega)
      · rw [if_neg (fun h => hx h.symm)]
    · split
      · rename_i hak
        subst hak
        by_cases hv : v = 0 <;> by_cases hx : x = a <;> simp only [hv, hx, if_true, if_false, memGet]
        · exact hlow a (Nat.le_refl _)
        · rw [if_neg (fun h => hx h.symm)]
        · rw [if_neg (fun h => hx h.symm), if_neg (fun h => hx h.symm)]
      · rename_i h1 h2
        rw [memGet, ih h.2, memGet]
        by_cases hx : x = a
        · rw [hx, if_neg (fun h => h2 h.symm), if_pos rfl, if_pos rfl]
        · rw [if_neg hx, if_neg hx]

/-- A write within the device keeps the canonical form. -/
theorem memSet_wf {lo hi : Nat} {m : Memory} (h : memWfFrom lo hi m = true) {a : Nat} (hl : lo ≤ a) (hh : a < hi) (v : Byte) :
    memWfFrom lo hi (memSet m a v) = true := by
  induction m generalizing lo with
  | nil =>
    rw [memSet]
    split
    · rfl
    · rename_i hv
      simp only [memWfFrom, Bool.and_eq_true, decide_eq_true_eq]
      exact ⟨⟨⟨hl, hh⟩, hv⟩, trivial⟩
  | cons e rest ih =>
    obtain ⟨k, b⟩ := e
    have h' := h
    simp only [memWfFrom, Bool.and_eq_true, decide_eq_true_eq] at h'
    obtain ⟨⟨⟨hlk, hkh⟩, hb⟩, hr⟩ := h'
    rw [memSet]
    split
    · split
      · exact h
      · rename_i hak hv
        simp only [memWfFrom, Bool.and_eq_true, decide_eq_true_eq]
        exact ⟨⟨⟨hl, hh⟩, hv⟩, ⟨⟨⟨by omega, hkh⟩, hb⟩, hr⟩⟩
    · split
      · rename_i hak
        subst hak
        split
        · exact memWfFrom_mono hr (by omega)
        · rename_i hv
          simp only [memWfFrom, Bool.and_eq_true, decide_eq_true_eq]
          exact ⟨⟨⟨hl, hh⟩, hv⟩, hr⟩
      · simp only [memWfFrom, Bool.and_eq_true, decide_eq_true_eq]
        exact ⟨⟨⟨hlk, hkh⟩, hb⟩, ih hr (by omega)⟩

/-! ## Consecutive bytes -/

@[simp] theorem memBytes_length (m : Memory) (a n : Nat) : (memBytes m a n).length = n := by
  induction n generalizing a with
  | zero => rfl
  | succ n ih => simp [memBytes, ih]

/-- A store within the device keeps the canonical form. -/
theorem memStore_wf {hi : Nat} {m : Memory} (h : memWfFrom 0 hi m = true) {a : Nat} {bs : List Byte}
    (hr : a + bs.length ≤ hi) : memWfFrom 0 hi (memStore m a bs) = true := by
  induction bs generalizing m a with
  | nil => exact h
  | cons b bs ih =>
    simp only [List.length_cons] at hr
    exact ih (memSet_wf h (Nat.zero_le _) (by omega) b) (by omega)

/-- A store leaves every byte outside it alone. -/
theorem memGet_memStore_outside {hi : Nat} {m : Memory} (h : memWfFrom 0 hi m = true) {a : Nat} {bs : List Byte}
    (hr : a + bs.length ≤ hi) {x : Nat} (hx : x < a ∨ a + bs.length ≤ x) : memGet (memStore m a bs) x = memGet m x := by
  induction bs generalizing m a with
  | nil => rfl
  | cons b bs ih =>
    simp only [List.length_cons] at hr hx
    rw [memStore, ih (memSet_wf h (Nat.zero_le _) (by omega) b) (by omega) (by omega), memGet_memSet h, if_neg (by omega)]

/-- The bytes stored are the bytes read back. -/
theorem memBytes_memStore {hi : Nat} {m : Memory} (h : memWfFrom 0 hi m = true) {a : Nat} {bs : List Byte}
    (hr : a + bs.length ≤ hi) : memBytes (memStore m a bs) a bs.length = bs := by
  induction bs generalizing m a with
  | nil => rfl
  | cons b bs ih =>
    simp only [List.length_cons] at hr
    have hw := memSet_wf h (Nat.zero_le a) (by omega) b
    rw [List.length_cons, memBytes, memStore, ih hw (by omega), memGet_memStore_outside hw (by omega) (Or.inl (by omega)),
      memGet_memSet h, if_pos rfl]

/-- Bytes read alike where every byte reads alike. -/
theorem memBytes_congr {m m' : Memory} {a n : Nat} (h : ∀ x, a ≤ x → x < a + n → memGet m x = memGet m' x) :
    memBytes m a n = memBytes m' a n := by
  induction n generalizing a with
  | zero => rfl
  | succ n ih =>
    rw [memBytes, memBytes, h a (Nat.le_refl _) (by omega), ih fun x h1 h2 => h x (by omega) (by omega)]

/-- A store leaves bytes read outside it alone. -/
theorem memBytes_memStore_outside {hi : Nat} {m : Memory} (h : memWfFrom 0 hi m = true) {a : Nat} {bs : List Byte}
    (hr : a + bs.length ≤ hi) {x n : Nat} (hx : x + n ≤ a ∨ a + bs.length ≤ x) :
    memBytes (memStore m a bs) x n = memBytes m x n :=
  memBytes_congr fun _ h1 h2 => memGet_memStore_outside h hr (by omega)

/-- The `i`-th of `n` consecutive bytes. -/
theorem memBytes_getElem (m : Memory) (a n i : Nat) (h : i < (memBytes m a n).length) :
    (memBytes m a n)[i] = memGet m (a + i) := by
  induction n generalizing a i with
  | zero => simp [memBytes] at h
  | succ n ih =>
    cases i with
    | zero => rfl
    | succ i =>
      simp only [memBytes, List.getElem_cons_succ]
      rw [ih, Nat.add_assoc, Nat.add_comm 1 i]

/-- A piece of consecutive bytes is consecutive bytes. -/
theorem memBytes_drop_take (m : Memory) (a n off k : Nat) (h : off + k ≤ n) :
    ((memBytes m a n).drop off).take k = memBytes m (a + off) k := by
  apply List.ext_getElem
  · simp; omega
  · intro i h1 h2
    rw [List.getElem_take, List.getElem_drop, memBytes_getElem, memBytes_getElem, Nat.add_assoc]

end Sys2Proof.Machine
end

