-- ==== Sys2Proof/Laws/Codec.lean ====
section
/-!
SUPPORT. Laws of the codec's parts: the tables read back what they write, the pieces of the decoder answer what the
pieces of the encoder wrote, and every fetch of the decoder lies within what it has consumed.
-/

namespace Sys2Proof

open Sys2Proof.Machine (beBytes_length beNat_lt beNat_beBytes pow_bytes_bits)

/-! ## Tables -/

theorem mem_allOps (o : Op) : o ∈ allOps := by cases o <;> decide

theorem mem_allTypes (t : ParamType) : t ∈ allTypes := by cases t <;> decide

theorem mem_allRegs (r : Reg) : r ∈ allRegs := by
  cases r with
  | gpr n => revert n; decide
  | _ => decide

theorem mem_allSizes (z : Size) : z ∈ allSizes := by cases z <;> decide

/-- What an admissible encoding satisfies: every number fits its field and names what it is the number of. -/
theorem Encoding.ok_tables {e : Encoding} (h : e.ok = true) :
    (∀ o, numberOf o e.opcodes < 256 ∧ opOfCode e (numberOf o e.opcodes) = some o) ∧
    (∀ t, typeNumber e t < 8 ∧ typeOfCode e (typeNumber e t) = some t) ∧
    (∀ r, regNumber e r < 2 ^ e.registerSize.bits ∧ regOfNumber e (regNumber e r) = some r) ∧
    (∀ z, sizeOfCode e (sizeCode e z) = z) ∧ e.sizeShift ≤ 45 ∧ e.layout.ok = true := by
  simp only [Encoding.ok, Bool.and_eq_true, List.all_eq_true, decide_eq_true_eq] at h
  obtain ⟨⟨⟨⟨⟨h1, h2⟩, h3⟩, h4⟩, h5⟩, h6⟩ := h
  exact ⟨fun o => h1 o (mem_allOps o), fun t => h2 t (mem_allTypes t), fun r => h3 r (mem_allRegs r),
    fun z => h4 z (mem_allSizes z), h5, h6⟩

/-- The spec's own encoding is admissible. -/
theorem standardEncoding_ok : standardEncoding.ok = true := by decide

/-- Every register's number names that register. -/
theorem regOfNumber_regNumber {e : Encoding} (h : e.ok = true) (r : Reg) : regOfNumber e (regNumber e r) = some r :=
  ((Encoding.ok_tables h).2.2.1 r).2

/-- A register's number fits its payload. -/
theorem regNumber_lt {e : Encoding} (h : e.ok = true) (r : Reg) : regNumber e r < 256 ^ e.registerSize.bytes := by
  rw [pow_bytes_bits]
  exact ((Encoding.ok_tables h).2.2.1 r).1

theorem sizeOfCode_sizeCode {e : Encoding} (h : e.ok = true) (z : Size) : sizeOfCode e (sizeCode e z) = z :=
  (Encoding.ok_tables h).2.2.2.1 z

theorem sizeCode_lt (e : Encoding) (z : Size) : sizeCode e z < 4 := by
  unfold sizeCode
  split_ifs <;> omega

theorem typeField_lt {e : Encoding} (h : e.ok = true) (ps : List Param) (n : Nat) : typeField e ps n < 8 := by
  induction ps generalizing n with
  | nil => simp [typeField]
  | cons p ps ih =>
    cases n with
    | zero => exact ((Encoding.ok_tables h).2.1 p.type).1
    | succ n => exact ih n

theorem opcodeOf_lt {e : Encoding} (h : e.ok = true) (i : Instr) : opcodeOf e i < 256 := ((Encoding.ok_tables h).1 i.op).1

theorem opOfCode_opcodeOf {e : Encoding} (h : e.ok = true) (i : Instr) : opOfCode e (opcodeOf e i) = some i.op :=
  ((Encoding.ok_tables h).1 i.op).2

theorem bytes_pos (z : Size) : 0 < z.bytes := by cases z <;> decide

theorem bytes_le (z : Size) : z.bytes ≤ 8 := by cases z <;> decide

/-! ## The header word -/

/-- The size field is below bit 47. -/
theorem sizeField_lt {e : Encoding} (h : e.ok = true) (z : Size) : sizeCode e z * 2 ^ e.sizeShift < 2 ^ 47 := by
  have h1 := sizeCode_lt e z
  have h2 : 2 ^ e.sizeShift ≤ 2 ^ 45 := Nat.pow_le_pow_right (by decide) (Encoding.ok_tables h).2.2.2.2.1
  calc sizeCode e z * 2 ^ e.sizeShift ≤ 3 * 2 ^ 45 := Nat.mul_le_mul (by omega) h2
    _ < 2 ^ 47 := by decide

/-- A header word is below `2^64`. -/
theorem headerWord_lt {e : Encoding} (h : e.ok = true) (i : Instr) : headerWord e i < 256 ^ 8 := by
  have h1 := opcodeOf_lt h i
  have h2 := typeField_lt h i.params 0
  have h3 := typeField_lt h i.params 1
  have h4 := typeField_lt h i.params 2
  have h5 := sizeField_lt h i.size
  simp only [headerWord]
  omega

/-- The size field reads back through whatever stands above bit 46. -/
theorem sizeField_div {k c n : Nat} (hk : k ≤ 45) (hc : c < 4) : (n * 2 ^ 47 + c * 2 ^ k) / 2 ^ k % 4 = c := by
  have e : n * 2 ^ 47 = n * 2 ^ (45 - k) * 4 * 2 ^ k := by
    rw [show (47 : Nat) = (45 - k) + 2 + k by omega, pow_add, pow_add]
    ring
  rw [e, ← Nat.add_mul, Nat.mul_div_cancel _ (Nat.two_pow_pos k)]
  omega

/-- The five fields of a header word are what the encoder put there. -/
theorem headerWord_fields {e : Encoding} (h : e.ok = true) (i : Instr) :
    headerOpcode (headerWord e i) = opcodeOf e i ∧ headerType1 (headerWord e i) = typeField e i.params 0 ∧
    headerType2 (headerWord e i) = typeField e i.params 1 ∧ headerType3 (headerWord e i) = typeField e i.params 2 ∧
    headerSize e (headerWord e i) = i.size := by
  have h1 := opcodeOf_lt h i
  have h2 := typeField_lt h i.params 0
  have h3 := typeField_lt h i.params 1
  have h4 := typeField_lt h i.params 2
  have h5 := sizeField_lt h i.size
  have hs : headerWord e i / 2 ^ e.sizeShift % 4 = sizeCode e i.size := by
    have hn : headerWord e i = (opcodeOf e i * 512 + typeField e i.params 0 * 64 + typeField e i.params 1 * 8
        + typeField e i.params 2) * 2 ^ 47 + sizeCode e i.size * 2 ^ e.sizeShift := by
      simp only [headerWord]
      omega
    rw [hn, sizeField_div (Encoding.ok_tables h).2.2.2.2.1 (sizeCode_lt e i.size)]
  refine ⟨?_, ?_, ?_, ?_, ?_⟩
  · simp only [headerOpcode, headerWord]; omega
  · simp only [headerType1, headerWord]; omega
  · simp only [headerType2, headerWord]; omega
  · simp only [headerType3, headerWord]; omega
  · rw [headerSize, hs, sizeOfCode_sizeCode h]

/-! ## Running the decoder's pieces -/

/-- A decoder that answers is followed by the next. -/
theorem decThen_ok {α β : Type} {m : Decoder α} {f : α → Decoder β} {c c' : Cursor} {a : α} (h : m c = (.ok a, c')) :
    decThen m f c = f a c' := by rw [decThen, h]

/-- Two decoders in a row answer exactly when both do. -/
theorem decThen_eq_ok {α β : Type} {m : Decoder α} {f : α → Decoder β} {c c'' : Cursor} {b : β} :
    decThen m f c = (.ok b, c'') ↔ ∃ a c', m c = (.ok a, c') ∧ f a c' = (.ok b, c'') := by
  rw [decThen]
  rcases h : m c with ⟨e | a, c'⟩
  · simp
  · simp

/-- A reader shows these bytes from this offset on. -/
def ReaderShows (rd : FetchReader) (off : Nat) (bs : List Byte) : Prop :=
  ∀ k n, k + n ≤ bs.length → rd (off + k) n = beNat ((bs.drop k).take n)

/-- A reader that shows two runs of bytes shows the first. -/
theorem ReaderShows.left {rd : FetchReader} {off : Nat} {as bs : List Byte} (h : ReaderShows rd off (as ++ bs)) :
    ReaderShows rd off as := by
  intro k n hk
  rw [h k n (by simp; omega), List.drop_append_of_le_length (by omega), List.take_append_of_le_length (by simp; omega)]

/-- A reader that shows two runs of bytes shows the second after the first. -/
theorem ReaderShows.right {rd : FetchReader} {off : Nat} {as bs : List Byte} (h : ReaderShows rd off (as ++ bs)) :
    ReaderShows rd (off + as.length) bs := by
  intro k n hk
  rw [Nat.add_assoc, h (as.length + k) n (by simp; omega), ← List.drop_drop, List.drop_left]

/-- A fetch of the bytes of a number gives the number. -/
theorem decFetch_shows {rd : FetchReader} {c : Cursor} {n v : Nat} (h : ReaderShows rd c.pos (beBytes n v))
    (hv : v < 256 ^ n) : decFetch rd n c = (.ok v, ⟨c.pos + n, c.log ++ [(c.pos, n)]⟩) := by
  have h0 := h 0 n (by simp)
  rw [Nat.add_zero, List.drop_zero, List.take_of_length_le (by simp), beNat_beBytes, Nat.mod_eq_of_lt hv] at h0
  rw [decFetch, h0]

/-- A register number decodes to its register. -/
theorem decRegister_shows {e : Encoding} (he : e.ok = true) {rd : FetchReader} {c : Cursor} {r : Reg}
    (h : ReaderShows rd c.pos (beBytes e.registerSize.bytes (regNumber e r))) :
    ∃ log, decRegister e rd c = (.ok r, ⟨c.pos + e.registerSize.bytes, log⟩) := by
  refine ⟨c.log ++ [(c.pos, e.registerSize.bytes)], ?_⟩
  rw [decRegister, decThen_ok (decFetch_shows h (regNumber_lt he r))]
  simp only [regOfNumber_regNumber he]
  rfl

/-- A literal that fits decodes to itself. -/
theorem decLiteral_shows {rd : FetchReader} {c : Cursor} {z : Size} {v : Word} (hf : literalFits z v = true)
    (h : ReaderShows rd c.pos (beBytes z.bytes v.toNat)) :
    ∃ log, decLiteral rd z c = (.ok v, ⟨c.pos + z.bytes, log⟩) := by
  have hv : v.toNat < 256 ^ z.bytes := by
    rw [pow_bytes_bits]
    simpa [literalFits] using hf
  refine ⟨c.log ++ [(c.pos, z.bytes)], ?_⟩
  rw [decLiteral, decThen_ok (decFetch_shows h hv)]
  simp only [BitVec.ofNat_toNat, BitVec.setWidth_eq]
  rfl

/-- A sub-parameter that fits decodes to itself. -/
theorem decSub_shows {e : Encoding} (he : e.ok = true) {rd : FetchReader} {c : Cursor} {z : Size} {u : Sub}
    (hf : u.fits z = true) (h : ReaderShows rd c.pos (encodeSub e z u)) :
    ∃ log, decSub e rd z u.isLiteral c = (.ok u, ⟨c.pos + subLength e z u, log⟩) := by
  cases u with
  | sreg r =>
    obtain ⟨log, hl⟩ := decRegister_shows he h
    exact ⟨log, by rw [Sub.isLiteral, decSub, if_neg (by decide), decThen_ok hl]; rfl⟩
  | slit v =>
    obtain ⟨log, hl⟩ := decLiteral_shows (z := z) hf h
    exact ⟨log, by rw [Sub.isLiteral, decSub, if_pos rfl, decThen_ok hl]; rfl⟩

/-- A sub-parameter that may be absent decodes to itself, whatever kind an absent one is given. -/
theorem decOptSub_shows {e : Encoding} (he : e.ok = true) {rd : FetchReader} {c : Cursor} {z : Size} {u : Option Sub} {l : Bool}
    (hl : ∀ v, u = some v → l = v.isLiteral) (hf : optSubFits z u = true) (h : ReaderShows rd c.pos (encodeOptSub e z u)) :
    ∃ log, decOptSub e rd z u.isSome l c = (.ok u, ⟨c.pos + optSubLength e z u, log⟩) := by
  cases u with
  | none => exact ⟨c.log, rfl⟩
  | some u =>
    obtain ⟨log, e1⟩ := decSub_shows he (z := z) hf h
    exact ⟨log, by rw [decOptSub, Option.isSome_some, if_pos rfl, hl u rfl, decThen_ok e1]; rfl⟩

/-! ## Calculated operands -/

/-- The length in bytes of one component. -/
def partLength (e : Encoding) (z : Size) (c : Calc) : CalcPart → Nat
  | .base => subLength e z c.base
  | .index => optSubLength e z c.index
  | .scale => optSubLength e z c.scale
  | .offset => optSubLength e z c.offset

/-- A component as an optional sub-parameter. -/
def calcPart (c : Calc) : CalcPart → Option Sub
  | .base => some c.base
  | .index => c.index
  | .scale => c.scale
  | .offset => c.offset

/-- Calculated operands with the same components and sign are equal. -/
theorem calc_ext {a b : Calc} (h : ∀ p, calcPart a p = calcPart b p) (hs : a.sign = b.sign) : a = b := by
  cases a
  cases b
  have h1 := h .base
  have h2 := h .index
  have h3 := h .scale
  have h4 := h .offset
  simp_all [calcPart]

/-- What an admissible layout satisfies. -/
theorem CalcLayout.ok_parts {l : CalcLayout} (h : l.ok = true) :
    l.places.Nodup ∧ (∀ k ∈ l.places, k < l.descriptorSize.bits) ∧ l.order.Perm [.base, .index, .scale, .offset] := by
  simp only [CalcLayout.ok, Bool.and_eq_true, decide_eq_true_eq, List.all_eq_true, List.isPerm_iff] at h
  exact ⟨h.1.1, h.1.2, h.2⟩

/-- The payload length is the descriptor's and the components' lengths, in an admissible order. -/
theorem order_sum {e : Encoding} (h : e.layout.ok = true) (z : Size) (c : Calc) :
    e.layout.descriptorSize.bytes + (e.layout.order.map (partLength e z c)).sum = calcLength e z c := by
  rw [((CalcLayout.ok_parts h).2.2.map _).sum_eq]
  simp only [List.map_cons, List.map_nil, List.sum_cons, List.sum_nil, partLength, calcLength]
  omega

/-- An admissible order names every component, and none twice. -/
theorem order_complete {l : CalcLayout} (h : l.ok = true) : (∀ p, p ∈ l.order) ∧ l.order.Nodup := by
  have hp := (CalcLayout.ok_parts h).2.2
  exact ⟨fun p => hp.mem_iff.2 (by cases p <;> decide), hp.nodup_iff.2 (by decide)⟩

/-- A bit of an encoded number. -/
@[simp] theorem bitAt_testBit (b : Bool) (k j : Nat) : (bitAt b k).testBit j = (b && decide (k = j)) := by
  cases b <;> simp [bitAt, Nat.testBit_two_pow]

/-- A bit at a place of a field lies within the field. -/
theorem bitAt_lt (b : Bool) {k n : Nat} (h : k < n) : bitAt b k < 2 ^ n := by
  unfold bitAt
  split
  · exact Nat.pow_lt_pow_right (by decide) h
  · exact Nat.two_pow_pos n

/-- A flag whose bit was put at its place reads back, in either polarity. -/
theorem DescriptorBit.holds_of_testBit {b : DescriptorBit} {d : Nat} {f : Bool} (h : d.testBit b.place = (f == b.value)) :
    b.holds d = f := by
  rw [DescriptorBit.holds, h]
  cases f <;> cases b.value <;> rfl

/-- The kind of a component that is present reads back. -/
theorem DescriptorBit.holds_of_kind {b : DescriptorBit} {d : Nat} {u : Option Sub} (h : d.testBit b.place = b.kind u) :
    ∀ v, u = some v → b.holds d = v.isLiteral := by
  rintro v rfl
  exact DescriptorBit.holds_of_testBit h

/-- The flags of a descriptor are what the encoder put there; the kind of an absent component is none. -/
theorem descriptor_flags {l : CalcLayout} (h : l.ok = true) (c : Calc) :
    descriptor l c < 2 ^ l.descriptorSize.bits ∧ l.sign.holds (descriptor l c) = decide (c.sign = .minus) ∧
    l.indexPresent.holds (descriptor l c) = c.index.isSome ∧ l.scalePresent.holds (descriptor l c) = c.scale.isSome ∧
    l.offsetPresent.holds (descriptor l c) = c.offset.isSome ∧ l.baseKind.holds (descriptor l c) = c.base.isLiteral ∧
    (∀ u, c.index = some u → l.indexKind.holds (descriptor l c) = u.isLiteral) ∧
    (∀ u, c.scale = some u → l.scaleKind.holds (descriptor l c) = u.isLiteral) ∧
    (∀ u, c.offset = some u → l.offsetKind.holds (descriptor l c) = u.isLiteral) := by
  obtain ⟨hn, hlt, -⟩ := CalcLayout.ok_parts h
  simp only [CalcLayout.places, List.mem_cons, List.not_mem_nil, or_false, forall_eq_or_imp, forall_eq] at hlt
  simp only [CalcLayout.places, List.nodup_cons, List.mem_cons, List.not_mem_nil, or_false, not_or, not_false_eq_true,
    List.nodup_nil, and_true] at hn
  obtain ⟨n1, n2, n3, n4, n5, n6, n7⟩ := hn
  refine ⟨?_, DescriptorBit.holds_of_testBit ?_, DescriptorBit.holds_of_testBit ?_, DescriptorBit.holds_of_testBit ?_,
    DescriptorBit.holds_of_testBit ?_, DescriptorBit.holds_of_kind (u := some c.base) ?_ _ rfl,
    DescriptorBit.holds_of_kind ?_, DescriptorBit.holds_of_kind ?_, DescriptorBit.holds_of_kind ?_⟩
  · unfold descriptor
    refine Nat.or_lt_two_pow (Nat.or_lt_two_pow (Nat.or_lt_two_pow (Nat.or_lt_two_pow (Nat.or_lt_two_pow (Nat.or_lt_two_pow
      (Nat.or_lt_two_pow ?_ ?_) ?_) ?_) ?_) ?_) ?_) ?_ <;> exact bitAt_lt _ (by simp [hlt])
  all_goals
    simp only [descriptor, Nat.testBit_or, bitAt_testBit]
    simp [n1, n2, n3, n4, n5, n6, n7, Ne.symm n1.1, Ne.symm n1.2.1, Ne.symm n1.2.2.1, Ne.symm n1.2.2.2.1,
      Ne.symm n1.2.2.2.2.1, Ne.symm n1.2.2.2.2.2.1, Ne.symm n1.2.2.2.2.2.2, Ne.symm n2.1, Ne.symm n2.2.1,
      Ne.symm n2.2.2.1, Ne.symm n2.2.2.2.1, Ne.symm n2.2.2.2.2.1, Ne.symm n2.2.2.2.2.2, Ne.symm n3.1, Ne.symm n3.2.1,
      Ne.symm n3.2.2.1, Ne.symm n3.2.2.2.1, Ne.symm n3.2.2.2.2, Ne.symm n4.1, Ne.symm n4.2.1, Ne.symm n4.2.2.1,
      Ne.symm n4.2.2.2, Ne.symm n5.1, Ne.symm n5.2.1, Ne.symm n5.2.2, Ne.symm n6.1, Ne.symm n6.2, Ne.symm n7]

/-- Every component of a calculated operand is representable. -/
def calcFits (z : Size) (k : Calc) : Bool :=
  k.base.fits z && optSubFits z k.index && optSubFits z k.scale && optSubFits z k.offset

/-- One component decodes to itself, and the others stay. -/
theorem decPart_shows {e : Encoding} (he : e.ok = true) {rd : FetchReader} {c : Cursor} {z : Size} {k k0 : Calc}
    (hf : calcFits z k = true) (p : CalcPart) (h : ReaderShows rd c.pos (encodePart e z k p)) :
    ∃ k1 log, decPart e rd z (descriptor e.layout k) k0 p c = (.ok k1, ⟨c.pos + partLength e z k p, log⟩) ∧
      calcPart k1 p = calcPart k p ∧ k1.sign = k0.sign ∧ ∀ q, q ≠ p → calcPart k1 q = calcPart k0 q := by
  obtain ⟨_, _, b6, b5, b4, b3, b2, b1, b0⟩ := descriptor_flags (Encoding.ok_tables he).2.2.2.2.2 k
  simp only [calcFits, Bool.and_eq_true] at hf
  cases p with
  | base =>
    obtain ⟨log, hl⟩ := decSub_shows he hf.1.1.1 h
    refine ⟨{ k0 with base := k.base }, log, by rw [decPart, b3, decThen_ok hl]; rfl, rfl, rfl, fun q hq => ?_⟩
    cases q <;> first | rfl | exact absurd rfl hq
  | index =>
    obtain ⟨log, hl⟩ := decOptSub_shows he b2 hf.1.1.2 h
    refine ⟨{ k0 with index := k.index }, log, by rw [decPart, b6, decThen_ok hl]; rfl, rfl, rfl, fun q hq => ?_⟩
    cases q <;> first | rfl | exact absurd rfl hq
  | scale =>
    obtain ⟨log, hl⟩ := decOptSub_shows he b1 hf.1.2 h
    refine ⟨{ k0 with scale := k.scale }, log, by rw [decPart, b5, decThen_ok hl]; rfl, rfl, rfl, fun q hq => ?_⟩
    cases q <;> first | rfl | exact absurd rfl hq
  | offset =>
    obtain ⟨log, hl⟩ := decOptSub_shows he b0 hf.2 h
    refine ⟨{ k0 with offset := k.offset }, log, by rw [decPart, b4, decThen_ok hl]; rfl, rfl, rfl, fun q hq => ?_⟩
    cases q <;> first | rfl | exact absurd rfl hq

@[simp] theorem encodeSub_length (e : Encoding) (z : Size) (u : Sub) : (encodeSub e z u).length = subLength e z u := by
  cases u <;> simp [encodeSub, subLength]

@[simp] theorem encodeOptSub_length (e : Encoding) (z : Size) (u : Option Sub) :
    (encodeOptSub e z u).length = optSubLength e z u := by
  cases u <;> simp [encodeOptSub, optSubLength]

@[simp] theorem encodePart_length (e : Encoding) (z : Size) (k : Calc) (p : CalcPart) :
    (encodePart e z k p).length = partLength e z k p := by cases p <;> simp [encodePart, partLength]

/-- Components in any order decode to themselves, and those the order does not name stay. -/
theorem decParts_shows {e : Encoding} (he : e.ok = true) {rd : FetchReader} {z : Size} {k : Calc}
    (hf : calcFits z k = true) (ps : List CalcPart) {k0 : Calc} {c : Cursor}
    (h : ReaderShows rd c.pos (ps.flatMap (encodePart e z k))) :
    ∃ k1 log, decParts e rd z (descriptor e.layout k) ps k0 c
        = (.ok k1, ⟨c.pos + (ps.map (partLength e z k)).sum, log⟩) ∧ k1.sign = k0.sign ∧
      (∀ q, q ∈ ps → calcPart k1 q = calcPart k q) ∧ ∀ q, q ∉ ps → calcPart k1 q = calcPart k0 q := by
  induction ps generalizing k0 c with
  | nil => exact ⟨k0, c.log, rfl, rfl, by simp, by simp⟩
  | cons p ps ih =>
    rw [List.flatMap_cons] at h
    obtain ⟨k1, l1, e1, p1, s1, o1⟩ := decPart_shows he (k0 := k0) hf p h.left
    have h2 := h.right
    rw [encodePart_length] at h2
    obtain ⟨k2, l2, e2, s2, i2, o2⟩ := ih (k0 := k1) (c := ⟨c.pos + partLength e z k p, l1⟩) h2
    refine ⟨k2, l2, ?_, s2.trans s1, fun q hq => ?_, fun q hq => ?_⟩
    · rw [decParts, decThen_ok e1, e2, List.map_cons, List.sum_cons, Nat.add_assoc]
    · by_cases hm : q ∈ ps
      · exact i2 q hm
      · have : q = p := by simpa [hm] using hq
        rw [o2 q hm, this, p1]
    · simp only [List.mem_cons, not_or] at hq
      rw [o2 q hq.2, o1 q hq.1]

/-- A calculated operand that fits decodes to itself. -/
theorem decCalc_shows {e : Encoding} (he : e.ok = true) {rd : FetchReader} {c : Cursor} {z : Size} {k : Calc}
    (hf : calcFits z k = true) (h : ReaderShows rd c.pos (encodeCalc e z k)) :
    ∃ log, decCalc e rd z c = (.ok k, ⟨c.pos + calcLength e z k, log⟩) := by
  have hl := (Encoding.ok_tables he).2.2.2.2.2
  obtain ⟨hd, b7, _⟩ := descriptor_flags hl k
  have hr := h.right
  rw [beBytes_length] at hr
  obtain ⟨k1, log, e1, s1, i1, _⟩ := decParts_shows he hf e.layout.order
    (k0 := emptyCalc (if e.layout.sign.holds (descriptor e.layout k) then .minus else .plus))
    (c := ⟨c.pos + e.layout.descriptorSize.bytes, c.log ++ [(c.pos, e.layout.descriptorSize.bytes)]⟩) hr
  have hk : k1 = k := by
    refine calc_ext (fun p => i1 p ((order_complete hl).1 p)) (s1.trans ?_)
    rw [b7, emptyCalc]
    cases k.sign <;> rfl
  refine ⟨log, ?_⟩
  rw [decCalc, decThen_ok (decFetch_shows h.left (by rw [pow_bytes_bits]; exact hd)), e1, hk]
  simp only [← order_sum hl, Nat.add_assoc]

/-- Every component has its length in bytes, so a calculated payload has its. -/
theorem encodeCalc_length {e : Encoding} (he : e.ok = true) (z : Size) (k : Calc) :
    (encodeCalc e z k).length = calcLength e z k := by
  rw [encodeCalc, List.length_append, beBytes_length, List.length_flatMap, ← order_sum (Encoding.ok_tables he).2.2.2.2.2]
  simp

theorem encodeParam_length {e : Encoding} (he : e.ok = true) (z : Size) (p : Param) :
    (encodeParam e z p).length = paramLength e z p := by
  cases p <;> simp [encodeParam, paramLength, encodeCalc_length he]

theorem encodeParams_length {e : Encoding} (he : e.ok = true) (z : Size) (ps : List Param) :
    (encodeParams e z ps).length = paramsLength e z ps := by
  induction ps with
  | nil => rfl
  | cons p ps ih => simp [encodeParams, paramsLength, ih, encodeParam_length he]

/-- A parameter that may stand in its position decodes to itself. -/
theorem decParam_shows {e : Encoding} (he : e.ok = true) {rd : FetchReader} {c : Cursor} {z : Size} {r : Role} {p : Param}
    (ha : p.allowed z r = true) (h : ReaderShows rd c.pos (encodeParam e z p)) :
    ∃ log, decParam e rd z r (typeNumber e p.type) c = (.ok p, ⟨c.pos + paramLength e z p, log⟩) := by
  have hw : (r.writes && !p.writable) = false := by
    simp only [Param.allowed, Bool.and_eq_true] at ha
    revert ha
    cases r.writes <;> cases p.writable <;> simp
  have hf : p.fits z = true := by
    simp only [Param.allowed, Bool.and_eq_true] at ha
    exact ha.1
  have key : ∃ log, decPayload e rd z (typeNumber e p.type) c = (.ok p, ⟨c.pos + paramLength e z p, log⟩) := by
    unfold decPayload
    rw [((Encoding.ok_tables he).2.1 p.type).2]
    cases p with
    | reg q => obtain ⟨l, e1⟩ := decRegister_shows he h; exact ⟨l, by simp only [Param.type]; rw [decThen_ok e1]; rfl⟩
    | rega q => obtain ⟨l, e1⟩ := decRegister_shows he h; exact ⟨l, by simp only [Param.type]; rw [decThen_ok e1]; rfl⟩
    | lit v => obtain ⟨l, e1⟩ := decLiteral_shows (z := z) hf h; exact ⟨l, by simp only [Param.type]; rw [decThen_ok e1]; rfl⟩
    | lita v => obtain ⟨l, e1⟩ := decLiteral_shows (z := z) hf h; exact ⟨l, by simp only [Param.type]; rw [decThen_ok e1]; rfl⟩
    | stk => exact ⟨c.log, rfl⟩
    | calca k => obtain ⟨l, e1⟩ := decCalc_shows he (k := k) hf h; exact ⟨l, by simp only [Param.type]; rw [decThen_ok e1]; rfl⟩
    | calcl k => obtain ⟨l, e1⟩ := decCalc_shows he (k := k) hf h; exact ⟨l, by simp only [Param.type]; rw [decThen_ok e1]; rfl⟩
  obtain ⟨l, e1⟩ := key
  refine ⟨l, ?_⟩
  rw [decParam, decThen_ok e1]
  simp [hw, decPure]

/-! ## The fetches -/

theorem fetchesAt_append (p : Nat) (as bs : List Nat) :
    fetchesAt p (as ++ bs) = fetchesAt p as ++ fetchesAt (p + as.sum) bs := by
  induction as generalizing p with
  | nil => rfl
  | cons a as ih => simp [fetchesAt, ih, Nat.add_assoc]

/-- Every fetch lies below the end of the last. -/
theorem fetchesAt_below {p : Nat} {ns : List Nat} {f : Nat × Nat} (h : f ∈ fetchesAt p ns) : f.1 + f.2 ≤ p + ns.sum := by
  induction ns generalizing p with
  | nil => simp [fetchesAt] at h
  | cons n ns ih =>
    simp only [fetchesAt, List.mem_cons, List.sum_cons] at h ⊢
    rcases h with rfl | h
    · simp only; omega
    · have := ih h; omega

/-- A piece of the decoder makes one fetch after another from where it stands, whether it answers or faults. -/
def Fetches {α : Type} (m : Decoder α) : Prop :=
  ∀ c, ∃ ns, (m c).2 = ⟨c.pos + ns.sum, c.log ++ fetchesAt c.pos ns⟩

theorem decPure_fetches {α : Type} (a : α) : Fetches (decPure a) := fun c => ⟨[], by simp [decPure, fetchesAt]⟩

theorem decFail_fetches {α : Type} (x : DecodeFault) : Fetches (decFail (α := α) x) :=
  fun c => ⟨[], by simp [decFail, fetchesAt]⟩

theorem decFetch_fetches (rd : FetchReader) (n : Nat) : Fetches (decFetch rd n) :=
  fun c => ⟨[n], by simp [decFetch, fetchesAt]⟩

theorem decThen_fetches {α β : Type} {m : Decoder α} {f : α → Decoder β} (hm : Fetches m) (hf : ∀ a, Fetches (f a)) :
    Fetches (decThen m f) := by
  intro c
  obtain ⟨n1, h1⟩ := hm c
  rw [decThen]
  rcases hc : m c with ⟨x | a, c'⟩
  · rw [hc] at h1; exact ⟨n1, h1⟩
  · rw [hc] at h1
    simp only at h1
    obtain ⟨n2, h2⟩ := hf a c'
    refine ⟨n1 ++ n2, ?_⟩
    subst h1
    simp only [h2, fetchesAt_append, List.sum_append, List.append_assoc, Nat.add_assoc]

theorem decRegister_fetches (e : Encoding) (rd : FetchReader) : Fetches (decRegister e rd) := by
  refine decThen_fetches (decFetch_fetches rd _) fun n => ?_
  rcases regOfNumber e n with _ | r
  · exact decFail_fetches _
  · exact decPure_fetches _

theorem decLiteral_fetches (rd : FetchReader) (z : Size) : Fetches (decLiteral rd z) :=
  decThen_fetches (decFetch_fetches rd _) fun _ => decPure_fetches _

theorem decSub_fetches (e : Encoding) (rd : FetchReader) (z : Size) (l : Bool) : Fetches (decSub e rd z l) := by
  unfold decSub
  split
  · exact decThen_fetches (decLiteral_fetches rd z) fun _ => decPure_fetches _
  · exact decThen_fetches (decRegister_fetches e rd) fun _ => decPure_fetches _

theorem decOptSub_fetches (e : Encoding) (rd : FetchReader) (z : Size) (p l : Bool) : Fetches (decOptSub e rd z p l) := by
  unfold decOptSub
  split
  · exact decThen_fetches (decSub_fetches e rd z l) fun _ => decPure_fetches _
  · exact decPure_fetches _

theorem decPart_fetches (e : Encoding) (rd : FetchReader) (z : Size) (d : Nat) (k : Calc) (p : CalcPart) :
    Fetches (decPart e rd z d k p) := by
  cases p
  · exact decThen_fetches (decSub_fetches e rd z _) fun _ => decPure_fetches _
  all_goals exact decThen_fetches (decOptSub_fetches e rd z _ _) fun _ => decPure_fetches _

theorem decParts_fetches (e : Encoding) (rd : FetchReader) (z : Size) (d : Nat) (ps : List CalcPart) (k : Calc) :
    Fetches (decParts e rd z d ps k) := by
  induction ps generalizing k with
  | nil => exact decPure_fetches _
  | cons p ps ih => exact decThen_fetches (decPart_fetches e rd z d k p) fun _ => ih _

theorem decCalc_fetches (e : Encoding) (rd : FetchReader) (z : Size) : Fetches (decCalc e rd z) :=
  decThen_fetches (decFetch_fetches rd _) fun _ => decParts_fetches e rd z _ _ _

theorem decParam_fetches (e : Encoding) (rd : FetchReader) (z : Size) (r : Role) (t : Nat) :
    Fetches (decParam e rd z r t) := by
  refine decThen_fetches ?_ fun p => ?_
  · unfold decPayload
    split
    · exact decThen_fetches (decRegister_fetches e rd) fun _ => decPure_fetches _
    · exact decThen_fetches (decRegister_fetches e rd) fun _ => decPure_fetches _
    · exact decThen_fetches (decLiteral_fetches rd z) fun _ => decPure_fetches _
    · exact decThen_fetches (decLiteral_fetches rd z) fun _ => decPure_fetches _
    · exact decPure_fetches _
    · exact decThen_fetches (decCalc_fetches e rd z) fun _ => decPure_fetches _
    · exact decThen_fetches (decCalc_fetches e rd z) fun _ => decPure_fetches _
    · exact decFail_fetches _
  · split
    · exact decFail_fetches _
    · exact decPure_fetches _

theorem decForm_fetches (e : Encoding) (rd : FetchReader) (h : Nat) (f : OpForm) : Fetches (decForm e rd h f) := by
  cases f with
  | p0 mk => exact decPure_fetches _
  | p1 r1 mk => exact decThen_fetches (decParam_fetches _ _ _ _ _) fun _ => decPure_fetches _
  | p2 r1 r2 mk =>
    exact decThen_fetches (decParam_fetches _ _ _ _ _) fun _ =>
      decThen_fetches (decParam_fetches _ _ _ _ _) fun _ => decPure_fetches _
  | p3 r1 r2 r3 mk =>
    exact decThen_fetches (decParam_fetches _ _ _ _ _) fun _ =>
      decThen_fetches (decParam_fetches _ _ _ _ _) fun _ =>
      decThen_fetches (decParam_fetches _ _ _ _ _) fun _ => decPure_fetches _

/-- The decoder makes one fetch after another, whether it answers or faults. -/
theorem decodeWith_fetches (e : Encoding) (rd : FetchReader) : Fetches (decodeWith e rd) := by
  refine decThen_fetches (decFetch_fetches rd 8) fun h => ?_
  rcases opOfCode e (headerOpcode h) with _ | o
  · exact decFail_fetches _
  · exact decForm_fetches e rd h o.form

/-! ## What any answer of the decoder's pieces satisfies -/

/-- A reader whose `n`-byte fetches are `n`-byte numbers. -/
def ReaderBounded (rd : FetchReader) : Prop := ∀ off n, rd off n < 256 ^ n

/-- What a piece of the decoder satisfies when it answers `a`: it has made the fetches `lens a` and `a` is `ok`. -/
def Decodes {α : Type} (m : Decoder α) (lens : α → List Nat) (ok : α → Bool) : Prop :=
  ∀ c a c', m c = (.ok a, c') → c' = ⟨c.pos + (lens a).sum, c.log ++ fetchesAt c.pos (lens a)⟩ ∧ ok a = true

theorem decRegister_decodes (e : Encoding) (rd : FetchReader) :
    Decodes (decRegister e rd) (fun _ => [e.registerSize.bytes]) (fun _ => true) := by
  intro c a c' h
  rw [decRegister, decThen_eq_ok] at h
  obtain ⟨n, c1, h1, h2⟩ := h
  simp only [decFetch, Prod.mk.injEq] at h1
  obtain ⟨_, rfl⟩ := h1
  rcases hr : regOfNumber e n with _ | r
  · simp [hr, decFail] at h2
  · rw [hr] at h2
    simp only [decPure, Prod.mk.injEq] at h2
    obtain ⟨_, rfl⟩ := h2
    exact ⟨rfl, rfl⟩

theorem decLiteral_decodes {rd : FetchReader} (hb : ReaderBounded rd) (z : Size) :
    Decodes (decLiteral rd z) (fun _ => [z.bytes]) (literalFits z) := by
  intro c a c' h
  rw [decLiteral, decThen_eq_ok] at h
  obtain ⟨n, c1, h1, h2⟩ := h
  simp only [decFetch, Prod.mk.injEq, Except.ok.injEq] at h1
  obtain ⟨rfl, rfl⟩ := h1
  simp only [decPure, Prod.mk.injEq, Except.ok.injEq] at h2
  obtain ⟨rfl, rfl⟩ := h2
  have := hb c.pos z.bytes
  rw [pow_bytes_bits] at this
  refine ⟨rfl, ?_⟩
  simp only [literalFits, BitVec.toNat_ofNat, decide_eq_true_eq]
  exact Nat.lt_of_le_of_lt (Nat.mod_le _ _) this

theorem decSub_decodes (e : Encoding) {rd : FetchReader} (hb : ReaderBounded rd) (z : Size) (l : Bool) :
    Decodes (decSub e rd z l) (fun u => [subLength e z u]) (Sub.fits z) := by
  intro c a c' h
  cases l
  · rw [decSub, if_neg (by decide), decThen_eq_ok] at h
    obtain ⟨r, c1, h1, h2⟩ := h
    simp only [decPure, Prod.mk.injEq, Except.ok.injEq] at h2
    obtain ⟨rfl, rfl⟩ := h2
    exact ⟨(decRegister_decodes e rd _ _ _ h1).1, rfl⟩
  · rw [decSub, if_pos rfl, decThen_eq_ok] at h
    obtain ⟨r, c1, h1, h2⟩ := h
    simp only [decPure, Prod.mk.injEq, Except.ok.injEq] at h2
    obtain ⟨rfl, rfl⟩ := h2
    exact decLiteral_decodes hb z _ _ _ h1

theorem decOptSub_decodes (e : Encoding) {rd : FetchReader} (hb : ReaderBounded rd) (z : Size) (p l : Bool) :
    Decodes (decOptSub e rd z p l) (optSubFetches e z) (optSubFits z) := by
  intro c a c' h
  cases p
  · rw [decOptSub, if_neg (by decide)] at h
    simp only [decPure, Prod.mk.injEq, Except.ok.injEq] at h
    obtain ⟨rfl, rfl⟩ := h
    exact ⟨by simp [optSubFetches, fetchesAt], rfl⟩
  · rw [decOptSub, if_pos rfl, decThen_eq_ok] at h
    obtain ⟨r, c1, h1, h2⟩ := h
    simp only [decPure, Prod.mk.injEq, Except.ok.injEq] at h2
    obtain ⟨rfl, rfl⟩ := h2
    exact decSub_decodes e hb z l _ _ _ h1

/-- One component, when it is answered: it has made its fetches, it is representable, and the others stay. -/
theorem decPart_decodes (e : Encoding) {rd : FetchReader} (hb : ReaderBounded rd) (z : Size) (d : Nat) {k k1 : Calc}
    (p : CalcPart) {c c' : Cursor} (h : decPart e rd z d k p c = (.ok k1, c')) :
    c' = ⟨c.pos + (partFetches e z k1 p).sum, c.log ++ fetchesAt c.pos (partFetches e z k1 p)⟩ ∧
    (∀ q, q ≠ p → calcPart k1 q = calcPart k q) ∧ (calcFits z k = true → calcFits z k1 = true) := by
  cases p <;>
    (simp only [decPart, decThen_eq_ok, decPure, Prod.mk.injEq, Except.ok.injEq] at h
     obtain ⟨u, c1, h1, rfl, rfl⟩ := h)
  · have := decSub_decodes e hb z _ _ _ _ h1
    refine ⟨this.1, fun q hq => ?_, fun hf => ?_⟩
    · cases q <;> first | rfl | exact absurd rfl hq
    · simp only [calcFits, Bool.and_eq_true] at hf ⊢; exact ⟨⟨⟨this.2, hf.1.1.2⟩, hf.1.2⟩, hf.2⟩
  · have := decOptSub_decodes e hb z _ _ _ _ _ h1
    refine ⟨this.1, fun q hq => ?_, fun hf => ?_⟩
    · cases q <;> first | rfl | exact absurd rfl hq
    · simp only [calcFits, Bool.and_eq_true] at hf ⊢; exact ⟨⟨⟨hf.1.1.1, this.2⟩, hf.1.2⟩, hf.2⟩
  · have := decOptSub_decodes e hb z _ _ _ _ _ h1
    refine ⟨this.1, fun q hq => ?_, fun hf => ?_⟩
    · cases q <;> first | rfl | exact absurd rfl hq
    · simp only [calcFits, Bool.and_eq_true] at hf ⊢; exact ⟨⟨hf.1.1, this.2⟩, hf.2⟩
  · have := decOptSub_decodes e hb z _ _ _ _ _ h1
    refine ⟨this.1, fun q hq => ?_, fun hf => ?_⟩
    · cases q <;> first | rfl | exact absurd rfl hq
    · simp only [calcFits, Bool.and_eq_true] at hf ⊢; exact ⟨hf.1, this.2⟩

/-- The fetches of a component depend on that component alone. -/
theorem partFetches_congr (e : Encoding) (z : Size) {a b : Calc} {p : CalcPart} (h : calcPart a p = calcPart b p) :
    partFetches e z a p = partFetches e z b p := by
  cases p <;> simp_all [calcPart, partFetches]

/-- Components, when they are answered: their fetches in their order, where no component stands twice. -/
theorem decParts_decodes (e : Encoding) {rd : FetchReader} (hb : ReaderBounded rd) (z : Size) (d : Nat)
    (ps : List CalcPart) {k k1 : Calc} {c c' : Cursor} (h : decParts e rd z d ps k c = (.ok k1, c')) :
    (calcFits z k = true → calcFits z k1 = true) ∧ (∀ q, q ∉ ps → calcPart k1 q = calcPart k q) ∧
    (ps.Nodup → c' = ⟨c.pos + (ps.flatMap (partFetches e z k1)).sum,
      c.log ++ fetchesAt c.pos (ps.flatMap (partFetches e z k1))⟩) := by
  induction ps generalizing k c with
  | nil =>
    simp only [decParts, decPure, Prod.mk.injEq, Except.ok.injEq] at h
    obtain ⟨rfl, rfl⟩ := h
    exact ⟨id, fun _ _ => rfl, fun _ => by simp [fetchesAt]⟩
  | cons p ps ih =>
    rw [decParts, decThen_eq_ok] at h
    obtain ⟨k2, c2, h1, h2⟩ := h
    obtain ⟨e1, o1, f1⟩ := decPart_decodes e hb z d p h1
    obtain ⟨f2, o2, e2⟩ := ih h2
    refine ⟨fun hf => f2 (f1 hf), fun q hq => ?_, fun hn => ?_⟩
    · simp only [List.mem_cons, not_or] at hq
      rw [o2 q hq.2, o1 q hq.1]
    · rw [List.nodup_cons] at hn
      rw [e2 hn.2, e1, partFetches_congr e z (o2 p hn.1).symm, List.flatMap_cons, List.sum_append, fetchesAt_append,
        List.append_assoc, Nat.add_assoc]

/-- A parameter the decoder answers may stand in its position, and has made its fetches. -/
theorem decParam_decodes (e : Encoding) {rd : FetchReader} (hb : ReaderBounded rd) (z : Size) (r : Role) (t : Nat)
    {c c' : Cursor} {p : Param} (h : decParam e rd z r t c = (.ok p, c')) :
    p.allowed z r = true ∧
    (e.ok = true → c' = ⟨c.pos + (paramFetches e z p).sum, c.log ++ fetchesAt c.pos (paramFetches e z p)⟩) := by
  rw [decParam, decThen_eq_ok] at h
  obtain ⟨q, c1, h1, h2⟩ := h
  split at h2
  · simp [decFail] at h2
  · rename_i hw
    simp only [decPure, Prod.mk.injEq, Except.ok.injEq] at h2
    obtain ⟨rfl, rfl⟩ := h2
    have key : q.fits z = true ∧
        (e.ok = true → c1 = ⟨c.pos + (paramFetches e z q).sum, c.log ++ fetchesAt c.pos (paramFetches e z q)⟩) := by
      have hcalc : ∀ {k : Calc} {c2 : Cursor}, decCalc e rd z c = (.ok k, c2) → calcFits z k = true ∧
          (e.ok = true → c2 = ⟨c.pos + (e.layout.descriptorSize.bytes :: e.layout.order.flatMap (partFetches e z k)).sum,
            c.log ++ fetchesAt c.pos (e.layout.descriptorSize.bytes :: e.layout.order.flatMap (partFetches e z k))⟩) := by
        intro k c2 hc
        rw [decCalc, decThen_eq_ok] at hc
        obtain ⟨d, c3, h3, h4⟩ := hc
        simp only [decFetch, Prod.mk.injEq] at h3
        obtain ⟨_, rfl⟩ := h3
        obtain ⟨f, _, he⟩ := decParts_decodes e hb z d _ h4
        refine ⟨f (by cases z <;> rfl), fun ho => ?_⟩
        rw [he (order_complete (Encoding.ok_tables ho).2.2.2.2.2).2]
        simp [fetchesAt, Nat.add_assoc]
      rw [decPayload] at h1
      rcases ht : typeOfCode e t with _ | y <;> simp only [ht] at h1
      · simp [decFail] at h1
      cases y <;> simp only at h1
      case stk =>
        simp only [decPure, Prod.mk.injEq, Except.ok.injEq] at h1
        obtain ⟨rfl, rfl⟩ := h1
        exact ⟨rfl, fun _ => by simp [paramFetches, fetchesAt]⟩
      all_goals
        rw [decThen_eq_ok] at h1
        obtain ⟨x, c2, h3, h4⟩ := h1
        simp only [decPure, Prod.mk.injEq, Except.ok.injEq] at h4
        obtain ⟨rfl, rfl⟩ := h4
        first
        | exact ⟨rfl, fun _ => (decRegister_decodes e rd _ _ _ h3).1⟩
        | exact ⟨(decLiteral_decodes hb z _ _ _ h3).2, fun _ => (decLiteral_decodes hb z _ _ _ h3).1⟩
        | exact hcalc h3
    refine ⟨?_, key.2⟩
    simp only [Param.allowed, key.1, Bool.true_and]
    revert hw
    cases r.writes <;> cases q.writable <;> simp

/-- The fetches of a parameter have its length. -/
theorem paramFetches_sum {e : Encoding} (he : e.ok = true) (z : Size) (p : Param) :
    (paramFetches e z p).sum = paramLength e z p := by
  have hpart : ∀ k q, (partFetches e z k q).sum = partLength e z k q := by
    intro k q
    have ho : ∀ u, (optSubFetches e z u).sum = optSubLength e z u := by
      intro u
      cases u <;> simp [optSubFetches, optSubLength]
    cases q <;> simp [partFetches, partLength, ho]
  have hc : ∀ k : Calc, (e.layout.descriptorSize.bytes :: e.layout.order.flatMap (partFetches e z k)).sum = calcLength e z k := by
    intro k
    rw [← order_sum (Encoding.ok_tables he).2.2.2.2.2, List.sum_cons]
    congr 1
    induction e.layout.order with
    | nil => rfl
    | cons q qs ih => simp [ih, hpart]
  cases p <;> simp only [paramFetches, paramLength, hc] <;> simp

end Sys2Proof
end

