-- ==== Sys2Proof/Laws/State.lean ====
section
/-!
SUPPORT. What each update of State does to each field: one lemma per field per update.
-/

namespace Sys2Proof.Machine

variable (s : State)

/-! ## Register writes -/

@[simp] theorem setReg_gpr_gpr (n : Fin 16) (v : Word) : (s.setReg (.gpr n) v).gpr = s.gpr.set n v := rfl
@[simp] theorem setReg_gpr_rip (n : Fin 16) (v : Word) : (s.setReg (.gpr n) v).rip = s.rip := rfl
@[simp] theorem setReg_gpr_rsp (n : Fin 16) (v : Word) : (s.setReg (.gpr n) v).rsp = s.rsp := rfl
@[simp] theorem setReg_gpr_rsip (n : Fin 16) (v : Word) : (s.setReg (.gpr n) v).rsip = s.rsip := rfl
@[simp] theorem setReg_gpr_rc (n : Fin 16) (v : Word) : (s.setReg (.gpr n) v).rc = s.rc := rfl
@[simp] theorem setReg_gpr_ie (n : Fin 16) (v : Word) : (s.setReg (.gpr n) v).ie = s.ie := rfl
@[simp] theorem setReg_gpr_isr (n : Fin 16) (v : Word) : (s.setReg (.gpr n) v).isr = s.isr := rfl
@[simp] theorem setReg_gpr_pisr (n : Fin 16) (v : Word) : (s.setReg (.gpr n) v).pisr = s.pisr := rfl
@[simp] theorem setReg_gpr_run (n : Fin 16) (v : Word) : (s.setReg (.gpr n) v).run = s.run := rfl
@[simp] theorem setReg_gpr_paused (n : Fin 16) (v : Word) : (s.setReg (.gpr n) v).paused = s.paused := rfl
@[simp] theorem setReg_gpr_queue (n : Fin 16) (v : Word) : (s.setReg (.gpr n) v).queue = s.queue := rfl
@[simp] theorem setReg_gpr_vec (n : Fin 16) (v : Word) : (s.setReg (.gpr n) v).vec = s.vec := rfl
@[simp] theorem setReg_gpr_prot (n : Fin 16) (v : Word) : (s.setReg (.gpr n) v).prot = s.prot := rfl
@[simp] theorem setReg_gpr_tick (n : Fin 16) (v : Word) : (s.setReg (.gpr n) v).tick = s.tick := rfl
@[simp] theorem setReg_gpr_cacheEn (n : Fin 16) (v : Word) : (s.setReg (.gpr n) v).cacheEn = s.cacheEn := rfl
@[simp] theorem setReg_gpr_mem (n : Fin 16) (v : Word) : (s.setReg (.gpr n) v).mem = s.mem := rfl
@[simp] theorem setReg_gpr_events (n : Fin 16) (v : Word) : (s.setReg (.gpr n) v).events = s.events := rfl
@[simp] theorem setReg_gpr_clockDraws (n : Fin 16) (v : Word) : (s.setReg (.gpr n) v).clockDraws = s.clockDraws := rfl
@[simp] theorem setReg_gpr_nanDraws (n : Fin 16) (v : Word) : (s.setReg (.gpr n) v).nanDraws = s.nanDraws := rfl
@[simp] theorem setReg_gpr_platform (n : Fin 16) (v : Word) : (s.setReg (.gpr n) v).platform = s.platform := rfl
@[simp] theorem setReg_rip_gpr (v : Word) : (s.setReg .rip v).gpr = s.gpr := rfl
@[simp] theorem setReg_rip_rip (v : Word) : (s.setReg .rip v).rip = v := rfl
@[simp] theorem setReg_rip_rsp (v : Word) : (s.setReg .rip v).rsp = s.rsp := rfl
@[simp] theorem setReg_rip_rsip (v : Word) : (s.setReg .rip v).rsip = s.rsip := rfl
@[simp] theorem setReg_rip_rc (v : Word) : (s.setReg .rip v).rc = s.rc := rfl
@[simp] theorem setReg_rip_ie (v : Word) : (s.setReg .rip v).ie = s.ie := rfl
@[simp] theorem setReg_rip_isr (v : Word) : (s.setReg .rip v).isr = s.isr := rfl
@[simp] theorem setReg_rip_pisr (v : Word) : (s.setReg .rip v).pisr = s.pisr := rfl
@[simp] theorem setReg_rip_run (v : Word) : (s.setReg .rip v).run = s.run := rfl
@[simp] theorem setReg_rip_paused (v : Word) : (s.setReg .rip v).paused = s.paused := rfl
@[simp] theorem setReg_rip_queue (v : Word) : (s.setReg .rip v).queue = s.queue := rfl
@[simp] theorem setReg_rip_vec (v : Word) : (s.setReg .rip v).vec = s.vec := rfl
@[simp] theorem setReg_rip_prot (v : Word) : (s.setReg .rip v).prot = s.prot := rfl
@[simp] theorem setReg_rip_tick (v : Word) : (s.setReg .rip v).tick = s.tick := rfl
@[simp] theorem setReg_rip_cacheEn (v : Word) : (s.setReg .rip v).cacheEn = s.cacheEn := rfl
@[simp] theorem setReg_rip_mem (v : Word) : (s.setReg .rip v).mem = s.mem := rfl
@[simp] theorem setReg_rip_events (v : Word) : (s.setReg .rip v).events = s.events := rfl
@[simp] theorem setReg_rip_clockDraws (v : Word) : (s.setReg .rip v).clockDraws = s.clockDraws := rfl
@[simp] theorem setReg_rip_nanDraws (v : Word) : (s.setReg .rip v).nanDraws = s.nanDraws := rfl
@[simp] theorem setReg_rip_platform (v : Word) : (s.setReg .rip v).platform = s.platform := rfl
@[simp] theorem setReg_rsp_gpr (v : Word) : (s.setReg .rsp v).gpr = s.gpr := rfl
@[simp] theorem setReg_rsp_rip (v : Word) : (s.setReg .rsp v).rip = s.rip := rfl
@[simp] theorem setReg_rsp_rsp (v : Word) : (s.setReg .rsp v).rsp = v := rfl
@[simp] theorem setReg_rsp_rsip (v : Word) : (s.setReg .rsp v).rsip = s.rsip := rfl
@[simp] theorem setReg_rsp_rc (v : Word) : (s.setReg .rsp v).rc = s.rc := rfl
@[simp] theorem setReg_rsp_ie (v : Word) : (s.setReg .rsp v).ie = s.ie := rfl
@[simp] theorem setReg_rsp_isr (v : Word) : (s.setReg .rsp v).isr = s.isr := rfl
@[simp] theorem setReg_rsp_pisr (v : Word) : (s.setReg .rsp v).pisr = s.pisr := rfl
@[simp] theorem setReg_rsp_run (v : Word) : (s.setReg .rsp v).run = s.run := rfl
@[simp] theorem setReg_rsp_paused (v : Word) : (s.setReg .rsp v).paused = s.paused := rfl
@[simp] theorem setReg_rsp_queue (v : Word) : (s.setReg .rsp v).queue = s.queue := rfl
@[simp] theorem setReg_rsp_vec (v : Word) : (s.setReg .rsp v).vec = s.vec := rfl
@[simp] theorem setReg_rsp_prot (v : Word) : (s.setReg .rsp v).prot = s.prot := rfl
@[simp] theorem setReg_rsp_tick (v : Word) : (s.setReg .rsp v).tick = s.tick := rfl
@[simp] theorem setReg_rsp_cacheEn (v : Word) : (s.setReg .rsp v).cacheEn = s.cacheEn := rfl
@[simp] theorem setReg_rsp_mem (v : Word) : (s.setReg .rsp v).mem = s.mem := rfl
@[simp] theorem setReg_rsp_events (v : Word) : (s.setReg .rsp v).events = s.events := rfl
@[simp] theorem setReg_rsp_clockDraws (v : Word) : (s.setReg .rsp v).clockDraws = s.clockDraws := rfl
@[simp] theorem setReg_rsp_nanDraws (v : Word) : (s.setReg .rsp v).nanDraws = s.nanDraws := rfl
@[simp] theorem setReg_rsp_platform (v : Word) : (s.setReg .rsp v).platform = s.platform := rfl
@[simp] theorem setReg_rsip_gpr (v : Word) : (s.setReg .rsip v).gpr = s.gpr := rfl
@[simp] theorem setReg_rsip_rip (v : Word) : (s.setReg .rsip v).rip = s.rip := rfl
@[simp] theorem setReg_rsip_rsp (v : Word) : (s.setReg .rsip v).rsp = s.rsp := rfl
@[simp] theorem setReg_rsip_rsip (v : Word) : (s.setReg .rsip v).rsip = v := rfl
@[simp] theorem setReg_rsip_rc (v : Word) : (s.setReg .rsip v).rc = s.rc := rfl
@[simp] theorem setReg_rsip_ie (v : Word) : (s.setReg .rsip v).ie = s.ie := rfl
@[simp] theorem setReg_rsip_isr (v : Word) : (s.setReg .rsip v).isr = s.isr := rfl
@[simp] theorem setReg_rsip_pisr (v : Word) : (s.setReg .rsip v).pisr = s.pisr := rfl
@[simp] theorem setReg_rsip_run (v : Word) : (s.setReg .rsip v).run = s.run := rfl
@[simp] theorem setReg_rsip_paused (v : Word) : (s.setReg .rsip v).paused = s.paused := rfl
@[simp] theorem setReg_rsip_queue (v : Word) : (s.setReg .rsip v).queue = s.queue := rfl
@[simp] theorem setReg_rsip_vec (v : Word) : (s.setReg .rsip v).vec = s.vec := rfl
@[simp] theorem setReg_rsip_prot (v : Word) : (s.setReg .rsip v).prot = s.prot := rfl
@[simp] theorem setReg_rsip_tick (v : Word) : (s.setReg .rsip v).tick = s.tick := rfl
@[simp] theorem setReg_rsip_cacheEn (v : Word) : (s.setReg .rsip v).cacheEn = s.cacheEn := rfl
@[simp] theorem setReg_rsip_mem (v : Word) : (s.setReg .rsip v).mem = s.mem := rfl
@[simp] theorem setReg_rsip_events (v : Word) : (s.setReg .rsip v).events = s.events := rfl
@[simp] theorem setReg_rsip_clockDraws (v : Word) : (s.setReg .rsip v).clockDraws = s.clockDraws := rfl
@[simp] theorem setReg_rsip_nanDraws (v : Word) : (s.setReg .rsip v).nanDraws = s.nanDraws := rfl
@[simp] theorem setReg_rsip_platform (v : Word) : (s.setReg .rsip v).platform = s.platform := rfl
@[simp] theorem setReg_rc_gpr (v : Word) : (s.setReg .rc v).gpr = s.gpr := rfl
@[simp] theorem setReg_rc_rip (v : Word) : (s.setReg .rc v).rip = s.rip := rfl
@[simp] theorem setReg_rc_rsp (v : Word) : (s.setReg .rc v).rsp = s.rsp := rfl
@[simp] theorem setReg_rc_rsip (v : Word) : (s.setReg .rc v).rsip = s.rsip := rfl
@[simp] theorem setReg_rc_rc (v : Word) : (s.setReg .rc v).rc = v := rfl
@[simp] theorem setReg_rc_ie (v : Word) : (s.setReg .rc v).ie = s.ie := rfl
@[simp] theorem setReg_rc_isr (v : Word) : (s.setReg .rc v).isr = s.isr := rfl
@[simp] theorem setReg_rc_pisr (v : Word) : (s.setReg .rc v).pisr = s.pisr := rfl
@[simp] theorem setReg_rc_run (v : Word) : (s.setReg .rc v).run = s.run := rfl
@[simp] theorem setReg_rc_paused (v : Word) : (s.setReg .rc v).paused = s.paused := rfl
@[simp] theorem setReg_rc_queue (v : Word) : (s.setReg .rc v).queue = s.queue := rfl
@[simp] theorem setReg_rc_vec (v : Word) : (s.setReg .rc v).vec = s.vec := rfl
@[simp] theorem setReg_rc_prot (v : Word) : (s.setReg .rc v).prot = s.prot := rfl
@[simp] theorem setReg_rc_tick (v : Word) : (s.setReg .rc v).tick = s.tick := rfl
@[simp] theorem setReg_rc_cacheEn (v : Word) : (s.setReg .rc v).cacheEn = s.cacheEn := rfl
@[simp] theorem setReg_rc_mem (v : Word) : (s.setReg .rc v).mem = s.mem := rfl
@[simp] theorem setReg_rc_events (v : Word) : (s.setReg .rc v).events = s.events := rfl
@[simp] theorem setReg_rc_clockDraws (v : Word) : (s.setReg .rc v).clockDraws = s.clockDraws := rfl
@[simp] theorem setReg_rc_nanDraws (v : Word) : (s.setReg .rc v).nanDraws = s.nanDraws := rfl
@[simp] theorem setReg_rc_platform (v : Word) : (s.setReg .rc v).platform = s.platform := rfl

/-! ## The fields no register write touches -/

@[simp] theorem setReg_ie (r : Reg) (v : Word) : (s.setReg r v).ie = s.ie := by cases r <;> rfl
@[simp] theorem setReg_isr (r : Reg) (v : Word) : (s.setReg r v).isr = s.isr := by cases r <;> rfl
@[simp] theorem setReg_pisr (r : Reg) (v : Word) : (s.setReg r v).pisr = s.pisr := by cases r <;> rfl
@[simp] theorem setReg_run (r : Reg) (v : Word) : (s.setReg r v).run = s.run := by cases r <;> rfl
@[simp] theorem setReg_paused (r : Reg) (v : Word) : (s.setReg r v).paused = s.paused := by cases r <;> rfl
@[simp] theorem setReg_queue (r : Reg) (v : Word) : (s.setReg r v).queue = s.queue := by cases r <;> rfl
@[simp] theorem setReg_vec (r : Reg) (v : Word) : (s.setReg r v).vec = s.vec := by cases r <;> rfl
@[simp] theorem setReg_prot (r : Reg) (v : Word) : (s.setReg r v).prot = s.prot := by cases r <;> rfl
@[simp] theorem setReg_tick (r : Reg) (v : Word) : (s.setReg r v).tick = s.tick := by cases r <;> rfl
@[simp] theorem setReg_cacheEn (r : Reg) (v : Word) : (s.setReg r v).cacheEn = s.cacheEn := by cases r <;> rfl
@[simp] theorem setReg_mem (r : Reg) (v : Word) : (s.setReg r v).mem = s.mem := by cases r <;> rfl
@[simp] theorem setReg_events (r : Reg) (v : Word) : (s.setReg r v).events = s.events := by cases r <;> rfl
@[simp] theorem setReg_clockDraws (r : Reg) (v : Word) : (s.setReg r v).clockDraws = s.clockDraws := by cases r <;> rfl
@[simp] theorem setReg_nanDraws (r : Reg) (v : Word) : (s.setReg r v).nanDraws = s.nanDraws := by cases r <;> rfl
@[simp] theorem setReg_platform (r : Reg) (v : Word) : (s.setReg r v).platform = s.platform := by cases r <;> rfl

/-! ## setIe -/

@[simp] theorem setIe_gpr (b : Bool) : (s.setIe b).gpr = s.gpr := rfl
@[simp] theorem setIe_rip (b : Bool) : (s.setIe b).rip = s.rip := rfl
@[simp] theorem setIe_rsp (b : Bool) : (s.setIe b).rsp = s.rsp := rfl
@[simp] theorem setIe_rsip (b : Bool) : (s.setIe b).rsip = s.rsip := rfl
@[simp] theorem setIe_rc (b : Bool) : (s.setIe b).rc = s.rc := rfl
@[simp] theorem setIe_ie (b : Bool) : (s.setIe b).ie = b := rfl
@[simp] theorem setIe_isr (b : Bool) : (s.setIe b).isr = s.isr := rfl
@[simp] theorem setIe_pisr (b : Bool) : (s.setIe b).pisr = s.pisr := rfl
@[simp] theorem setIe_run (b : Bool) : (s.setIe b).run = s.run := rfl
@[simp] theorem setIe_paused (b : Bool) : (s.setIe b).paused = s.paused := rfl
@[simp] theorem setIe_queue (b : Bool) : (s.setIe b).queue = s.queue := rfl
@[simp] theorem setIe_vec (b : Bool) : (s.setIe b).vec = s.vec := rfl
@[simp] theorem setIe_prot (b : Bool) : (s.setIe b).prot = s.prot := rfl
@[simp] theorem setIe_tick (b : Bool) : (s.setIe b).tick = s.tick := rfl
@[simp] theorem setIe_cacheEn (b : Bool) : (s.setIe b).cacheEn = s.cacheEn := rfl
@[simp] theorem setIe_mem (b : Bool) : (s.setIe b).mem = s.mem := rfl
@[simp] theorem setIe_events (b : Bool) : (s.setIe b).events = s.events := rfl
@[simp] theorem setIe_clockDraws (b : Bool) : (s.setIe b).clockDraws = s.clockDraws := rfl
@[simp] theorem setIe_nanDraws (b : Bool) : (s.setIe b).nanDraws = s.nanDraws := rfl
@[simp] theorem setIe_platform (b : Bool) : (s.setIe b).platform = s.platform := rfl

/-! ## setService -/

@[simp] theorem setService_gpr (i p : Bool) : (s.setService i p).gpr = s.gpr := rfl
@[simp] theorem setService_rip (i p : Bool) : (s.setService i p).rip = s.rip := rfl
@[simp] theorem setService_rsp (i p : Bool) : (s.setService i p).rsp = s.rsp := rfl
@[simp] theorem setService_rsip (i p : Bool) : (s.setService i p).rsip = s.rsip := rfl
@[simp] theorem setService_rc (i p : Bool) : (s.setService i p).rc = s.rc := rfl
@[simp] theorem setService_ie (i p : Bool) : (s.setService i p).ie = s.ie := rfl
@[simp] theorem setService_isr (i p : Bool) : (s.setService i p).isr = i := rfl
@[simp] theorem setService_pisr (i p : Bool) : (s.setService i p).pisr = p := rfl
@[simp] theorem setService_run (i p : Bool) : (s.setService i p).run = s.run := rfl
@[simp] theorem setService_paused (i p : Bool) : (s.setService i p).paused = s.paused := rfl
@[simp] theorem setService_queue (i p : Bool) : (s.setService i p).queue = s.queue := rfl
@[simp] theorem setService_vec (i p : Bool) : (s.setService i p).vec = s.vec := rfl
@[simp] theorem setService_prot (i p : Bool) : (s.setService i p).prot = s.prot := rfl
@[simp] theorem setService_tick (i p : Bool) : (s.setService i p).tick = s.tick := rfl
@[simp] theorem setService_cacheEn (i p : Bool) : (s.setService i p).cacheEn = s.cacheEn := rfl
@[simp] theorem setService_mem (i p : Bool) : (s.setService i p).mem = s.mem := rfl
@[simp] theorem setService_events (i p : Bool) : (s.setService i p).events = s.events := rfl
@[simp] theorem setService_clockDraws (i p : Bool) : (s.setService i p).clockDraws = s.clockDraws := rfl
@[simp] theorem setService_nanDraws (i p : Bool) : (s.setService i p).nanDraws = s.nanDraws := rfl
@[simp] theorem setService_platform (i p : Bool) : (s.setService i p).platform = s.platform := rfl

/-! ## setRun -/

@[simp] theorem setRun_gpr (b : Bool) : (s.setRun b).gpr = s.gpr := rfl
@[simp] theorem setRun_rip (b : Bool) : (s.setRun b).rip = s.rip := rfl
@[simp] theorem setRun_rsp (b : Bool) : (s.setRun b).rsp = s.rsp := rfl
@[simp] theorem setRun_rsip (b : Bool) : (s.setRun b).rsip = s.rsip := rfl
@[simp] theorem setRun_rc (b : Bool) : (s.setRun b).rc = s.rc := rfl
@[simp] theorem setRun_ie (b : Bool) : (s.setRun b).ie = s.ie := rfl
@[simp] theorem setRun_isr (b : Bool) : (s.setRun b).isr = s.isr := rfl
@[simp] theorem setRun_pisr (b : Bool) : (s.setRun b).pisr = s.pisr := rfl
@[simp] theorem setRun_run (b : Bool) : (s.setRun b).run = b := rfl
@[simp] theorem setRun_paused (b : Bool) : (s.setRun b).paused = s.paused := rfl
@[simp] theorem setRun_queue (b : Bool) : (s.setRun b).queue = s.queue := rfl
@[simp] theorem setRun_vec (b : Bool) : (s.setRun b).vec = s.vec := rfl
@[simp] theorem setRun_prot (b : Bool) : (s.setRun b).prot = s.prot := rfl
@[simp] theorem setRun_tick (b : Bool) : (s.setRun b).tick = s.tick := rfl
@[simp] theorem setRun_cacheEn (b : Bool) : (s.setRun b).cacheEn = s.cacheEn := rfl
@[simp] theorem setRun_mem (b : Bool) : (s.setRun b).mem = s.mem := rfl
@[simp] theorem setRun_events (b : Bool) : (s.setRun b).events = s.events := rfl
@[simp] theorem setRun_clockDraws (b : Bool) : (s.setRun b).clockDraws = s.clockDraws := rfl
@[simp] theorem setRun_nanDraws (b : Bool) : (s.setRun b).nanDraws = s.nanDraws := rfl
@[simp] theorem setRun_platform (b : Bool) : (s.setRun b).platform = s.platform := rfl

/-! ## setPaused -/

@[simp] theorem setPaused_gpr (b : Bool) : (s.setPaused b).gpr = s.gpr := rfl
@[simp] theorem setPaused_rip (b : Bool) : (s.setPaused b).rip = s.rip := rfl
@[simp] theorem setPaused_rsp (b : Bool) : (s.setPaused b).rsp = s.rsp := rfl
@[simp] theorem setPaused_rsip (b : Bool) : (s.setPaused b).rsip = s.rsip := rfl
@[simp] theorem setPaused_rc (b : Bool) : (s.setPaused b).rc = s.rc := rfl
@[simp] theorem setPaused_ie (b : Bool) : (s.setPaused b).ie = s.ie := rfl
@[simp] theorem setPaused_isr (b : Bool) : (s.setPaused b).isr = s.isr := rfl
@[simp] theorem setPaused_pisr (b : Bool) : (s.setPaused b).pisr = s.pisr := rfl
@[simp] theorem setPaused_run (b : Bool) : (s.setPaused b).run = s.run := rfl
@[simp] theorem setPaused_paused (b : Bool) : (s.setPaused b).paused = b := rfl
@[simp] theorem setPaused_queue (b : Bool) : (s.setPaused b).queue = s.queue := rfl
@[simp] theorem setPaused_vec (b : Bool) : (s.setPaused b).vec = s.vec := rfl
@[simp] theorem setPaused_prot (b : Bool) : (s.setPaused b).prot = s.prot := rfl
@[simp] theorem setPaused_tick (b : Bool) : (s.setPaused b).tick = s.tick := rfl
@[simp] theorem setPaused_cacheEn (b : Bool) : (s.setPaused b).cacheEn = s.cacheEn := rfl
@[simp] theorem setPaused_mem (b : Bool) : (s.setPaused b).mem = s.mem := rfl
@[simp] theorem setPaused_events (b : Bool) : (s.setPaused b).events = s.events := rfl
@[simp] theorem setPaused_clockDraws (b : Bool) : (s.setPaused b).clockDraws = s.clockDraws := rfl
@[simp] theorem setPaused_nanDraws (b : Bool) : (s.setPaused b).nanDraws = s.nanDraws := rfl
@[simp] theorem setPaused_platform (b : Bool) : (s.setPaused b).platform = s.platform := rfl

/-! ## setQueue -/

@[simp] theorem setQueue_gpr (q : List Cause) : (s.setQueue q).gpr = s.gpr := rfl
@[simp] theorem setQueue_rip (q : List Cause) : (s.setQueue q).rip = s.rip := rfl
@[simp] theorem setQueue_rsp (q : List Cause) : (s.setQueue q).rsp = s.rsp := rfl
@[simp] theorem setQueue_rsip (q : List Cause) : (s.setQueue q).rsip = s.rsip := rfl
@[simp] theorem setQueue_rc (q : List Cause) : (s.setQueue q).rc = s.rc := rfl
@[simp] theorem setQueue_ie (q : List Cause) : (s.setQueue q).ie = s.ie := rfl
@[simp] theorem setQueue_isr (q : List Cause) : (s.setQueue q).isr = s.isr := rfl
@[simp] theorem setQueue_pisr (q : List Cause) : (s.setQueue q).pisr = s.pisr := rfl
@[simp] theorem setQueue_run (q : List Cause) : (s.setQueue q).run = s.run := rfl
@[simp] theorem setQueue_paused (q : List Cause) : (s.setQueue q).paused = s.paused := rfl
@[simp] theorem setQueue_queue (q : List Cause) : (s.setQueue q).queue = q := rfl
@[simp] theorem setQueue_vec (q : List Cause) : (s.setQueue q).vec = s.vec := rfl
@[simp] theorem setQueue_prot (q : List Cause) : (s.setQueue q).prot = s.prot := rfl
@[simp] theorem setQueue_tick (q : List Cause) : (s.setQueue q).tick = s.tick := rfl
@[simp] theorem setQueue_cacheEn (q : List Cause) : (s.setQueue q).cacheEn = s.cacheEn := rfl
@[simp] theorem setQueue_mem (q : List Cause) : (s.setQueue q).mem = s.mem := rfl
@[simp] theorem setQueue_events (q : List Cause) : (s.setQueue q).events = s.events := rfl
@[simp] theorem setQueue_clockDraws (q : List Cause) : (s.setQueue q).clockDraws = s.clockDraws := rfl
@[simp] theorem setQueue_nanDraws (q : List Cause) : (s.setQueue q).nanDraws = s.nanDraws := rfl
@[simp] theorem setQueue_platform (q : List Cause) : (s.setQueue q).platform = s.platform := rfl

/-! ## setVec -/

@[simp] theorem setVec_gpr (c : Cause) (w : Word) : (s.setVec c w).gpr = s.gpr := rfl
@[simp] theorem setVec_rip (c : Cause) (w : Word) : (s.setVec c w).rip = s.rip := rfl
@[simp] theorem setVec_rsp (c : Cause) (w : Word) : (s.setVec c w).rsp = s.rsp := rfl
@[simp] theorem setVec_rsip (c : Cause) (w : Word) : (s.setVec c w).rsip = s.rsip := rfl
@[simp] theorem setVec_rc (c : Cause) (w : Word) : (s.setVec c w).rc = s.rc := rfl
@[simp] theorem setVec_ie (c : Cause) (w : Word) : (s.setVec c w).ie = s.ie := rfl
@[simp] theorem setVec_isr (c : Cause) (w : Word) : (s.setVec c w).isr = s.isr := rfl
@[simp] theorem setVec_pisr (c : Cause) (w : Word) : (s.setVec c w).pisr = s.pisr := rfl
@[simp] theorem setVec_run (c : Cause) (w : Word) : (s.setVec c w).run = s.run := rfl
@[simp] theorem setVec_paused (c : Cause) (w : Word) : (s.setVec c w).paused = s.paused := rfl
@[simp] theorem setVec_queue (c : Cause) (w : Word) : (s.setVec c w).queue = s.queue := rfl
@[simp] theorem setVec_vec (c : Cause) (w : Word) : (s.setVec c w).vec = s.vec.set c w := rfl
@[simp] theorem setVec_prot (c : Cause) (w : Word) : (s.setVec c w).prot = s.prot := rfl
@[simp] theorem setVec_tick (c : Cause) (w : Word) : (s.setVec c w).tick = s.tick := rfl
@[simp] theorem setVec_cacheEn (c : Cause) (w : Word) : (s.setVec c w).cacheEn = s.cacheEn := rfl
@[simp] theorem setVec_mem (c : Cause) (w : Word) : (s.setVec c w).mem = s.mem := rfl
@[simp] theorem setVec_events (c : Cause) (w : Word) : (s.setVec c w).events = s.events := rfl
@[simp] theorem setVec_clockDraws (c : Cause) (w : Word) : (s.setVec c w).clockDraws = s.clockDraws := rfl
@[simp] theorem setVec_nanDraws (c : Cause) (w : Word) : (s.setVec c w).nanDraws = s.nanDraws := rfl
@[simp] theorem setVec_platform (c : Cause) (w : Word) : (s.setVec c w).platform = s.platform := rfl

/-! ## setProt -/

@[simp] theorem setProt_gpr (b : Byte) : (s.setProt b).gpr = s.gpr := rfl
@[simp] theorem setProt_rip (b : Byte) : (s.setProt b).rip = s.rip := rfl
@[simp] theorem setProt_rsp (b : Byte) : (s.setProt b).rsp = s.rsp := rfl
@[simp] theorem setProt_rsip (b : Byte) : (s.setProt b).rsip = s.rsip := rfl
@[simp] theorem setProt_rc (b : Byte) : (s.setProt b).rc = s.rc := rfl
@[simp] theorem setProt_ie (b : Byte) : (s.setProt b).ie = s.ie := rfl
@[simp] theorem setProt_isr (b : Byte) : (s.setProt b).isr = s.isr := rfl
@[simp] theorem setProt_pisr (b : Byte) : (s.setProt b).pisr = s.pisr := rfl
@[simp] theorem setProt_run (b : Byte) : (s.setProt b).run = s.run := rfl
@[simp] theorem setProt_paused (b : Byte) : (s.setProt b).paused = s.paused := rfl
@[simp] theorem setProt_queue (b : Byte) : (s.setProt b).queue = s.queue := rfl
@[simp] theorem setProt_vec (b : Byte) : (s.setProt b).vec = s.vec := rfl
@[simp] theorem setProt_prot (b : Byte) : (s.setProt b).prot = b := rfl
@[simp] theorem setProt_tick (b : Byte) : (s.setProt b).tick = s.tick := rfl
@[simp] theorem setProt_cacheEn (b : Byte) : (s.setProt b).cacheEn = s.cacheEn := rfl
@[simp] theorem setProt_mem (b : Byte) : (s.setProt b).mem = s.mem := rfl
@[simp] theorem setProt_events (b : Byte) : (s.setProt b).events = s.events := rfl
@[simp] theorem setProt_clockDraws (b : Byte) : (s.setProt b).clockDraws = s.clockDraws := rfl
@[simp] theorem setProt_nanDraws (b : Byte) : (s.setProt b).nanDraws = s.nanDraws := rfl
@[simp] theorem setProt_platform (b : Byte) : (s.setProt b).platform = s.platform := rfl

/-! ## setTick -/

@[simp] theorem setTick_gpr (b : Byte) : (s.setTick b).gpr = s.gpr := rfl
@[simp] theorem setTick_rip (b : Byte) : (s.setTick b).rip = s.rip := rfl
@[simp] theorem setTick_rsp (b : Byte) : (s.setTick b).rsp = s.rsp := rfl
@[simp] theorem setTick_rsip (b : Byte) : (s.setTick b).rsip = s.rsip := rfl
@[simp] theorem setTick_rc (b : Byte) : (s.setTick b).rc = s.rc := rfl
@[simp] theorem setTick_ie (b : Byte) : (s.setTick b).ie = s.ie := rfl
@[simp] theorem setTick_isr (b : Byte) : (s.setTick b).isr = s.isr := rfl
@[simp] theorem setTick_pisr (b : Byte) : (s.setTick b).pisr = s.pisr := rfl
@[simp] theorem setTick_run (b : Byte) : (s.setTick b).run = s.run := rfl
@[simp] theorem setTick_paused (b : Byte) : (s.setTick b).paused = s.paused := rfl
@[simp] theorem setTick_queue (b : Byte) : (s.setTick b).queue = s.queue := rfl
@[simp] theorem setTick_vec (b : Byte) : (s.setTick b).vec = s.vec := rfl
@[simp] theorem setTick_prot (b : Byte) : (s.setTick b).prot = s.prot := rfl
@[simp] theorem setTick_tick (b : Byte) : (s.setTick b).tick = b := rfl
@[simp] theorem setTick_cacheEn (b : Byte) : (s.setTick b).cacheEn = s.cacheEn := rfl
@[simp] theorem setTick_mem (b : Byte) : (s.setTick b).mem = s.mem := rfl
@[simp] theorem setTick_events (b : Byte) : (s.setTick b).events = s.events := rfl
@[simp] theorem setTick_clockDraws (b : Byte) : (s.setTick b).clockDraws = s.clockDraws := rfl
@[simp] theorem setTick_nanDraws (b : Byte) : (s.setTick b).nanDraws = s.nanDraws := rfl
@[simp] theorem setTick_platform (b : Byte) : (s.setTick b).platform = s.platform := rfl

/-! ## setCacheEn -/

@[simp] theorem setCacheEn_gpr (b : Bool) : (s.setCacheEn b).gpr = s.gpr := rfl
@[simp] theorem setCacheEn_rip (b : Bool) : (s.setCacheEn b).rip = s.rip := rfl
@[simp] theorem setCacheEn_rsp (b : Bool) : (s.setCacheEn b).rsp = s.rsp := rfl
@[simp] theorem setCacheEn_rsip (b : Bool) : (s.setCacheEn b).rsip = s.rsip := rfl
@[simp] theorem setCacheEn_rc (b : Bool) : (s.setCacheEn b).rc = s.rc := rfl
@[simp] theorem setCacheEn_ie (b : Bool) : (s.setCacheEn b).ie = s.ie := rfl
@[simp] theorem setCacheEn_isr (b : Bool) : (s.setCacheEn b).isr = s.isr := rfl
@[simp] theorem setCacheEn_pisr (b : Bool) : (s.setCacheEn b).pisr = s.pisr := rfl
@[simp] theorem setCacheEn_run (b : Bool) : (s.setCacheEn b).run = s.run := rfl
@[simp] theorem setCacheEn_paused (b : Bool) : (s.setCacheEn b).paused = s.paused := rfl
@[simp] theorem setCacheEn_queue (b : Bool) : (s.setCacheEn b).queue = s.queue := rfl
@[simp] theorem setCacheEn_vec (b : Bool) : (s.setCacheEn b).vec = s.vec := rfl
@[simp] theorem setCacheEn_prot (b : Bool) : (s.setCacheEn b).prot = s.prot := rfl
@[simp] theorem setCacheEn_tick (b : Bool) : (s.setCacheEn b).tick = s.tick := rfl
@[simp] theorem setCacheEn_cacheEn (b : Bool) : (s.setCacheEn b).cacheEn = b := rfl
@[simp] theorem setCacheEn_mem (b : Bool) : (s.setCacheEn b).mem = s.mem := rfl
@[simp] theorem setCacheEn_events (b : Bool) : (s.setCacheEn b).events = s.events := rfl
@[simp] theorem setCacheEn_clockDraws (b : Bool) : (s.setCacheEn b).clockDraws = s.clockDraws := rfl
@[simp] theorem setCacheEn_nanDraws (b : Bool) : (s.setCacheEn b).nanDraws = s.nanDraws := rfl
@[simp] theorem setCacheEn_platform (b : Bool) : (s.setCacheEn b).platform = s.platform := rfl

/-! ## setMem -/

@[simp] theorem setMem_gpr (m : Memory) : (s.setMem m).gpr = s.gpr := rfl
@[simp] theorem setMem_rip (m : Memory) : (s.setMem m).rip = s.rip := rfl
@[simp] theorem setMem_rsp (m : Memory) : (s.setMem m).rsp = s.rsp := rfl
@[simp] theorem setMem_rsip (m : Memory) : (s.setMem m).rsip = s.rsip := rfl
@[simp] theorem setMem_rc (m : Memory) : (s.setMem m).rc = s.rc := rfl
@[simp] theorem setMem_ie (m : Memory) : (s.setMem m).ie = s.ie := rfl
@[simp] theorem setMem_isr (m : Memory) : (s.setMem m).isr = s.isr := rfl
@[simp] theorem setMem_pisr (m : Memory) : (s.setMem m).pisr = s.pisr := rfl
@[simp] theorem setMem_run (m : Memory) : (s.setMem m).run = s.run := rfl
@[simp] theorem setMem_paused (m : Memory) : (s.setMem m).paused = s.paused := rfl
@[simp] theorem setMem_queue (m : Memory) : (s.setMem m).queue = s.queue := rfl
@[simp] theorem setMem_vec (m : Memory) : (s.setMem m).vec = s.vec := rfl
@[simp] theorem setMem_prot (m : Memory) : (s.setMem m).prot = s.prot := rfl
@[simp] theorem setMem_tick (m : Memory) : (s.setMem m).tick = s.tick := rfl
@[simp] theorem setMem_cacheEn (m : Memory) : (s.setMem m).cacheEn = s.cacheEn := rfl
@[simp] theorem setMem_mem (m : Memory) : (s.setMem m).mem = m := rfl
@[simp] theorem setMem_events (m : Memory) : (s.setMem m).events = s.events := rfl
@[simp] theorem setMem_clockDraws (m : Memory) : (s.setMem m).clockDraws = s.clockDraws := rfl
@[simp] theorem setMem_nanDraws (m : Memory) : (s.setMem m).nanDraws = s.nanDraws := rfl
@[simp] theorem setMem_platform (m : Memory) : (s.setMem m).platform = s.platform := rfl

/-! ## emit -/

@[simp] theorem emit_gpr (e : HostEvent) : (s.emit e).gpr = s.gpr := rfl
@[simp] theorem emit_rip (e : HostEvent) : (s.emit e).rip = s.rip := rfl
@[simp] theorem emit_rsp (e : HostEvent) : (s.emit e).rsp = s.rsp := rfl
@[simp] theorem emit_rsip (e : HostEvent) : (s.emit e).rsip = s.rsip := rfl
@[simp] theorem emit_rc (e : HostEvent) : (s.emit e).rc = s.rc := rfl
@[simp] theorem emit_ie (e : HostEvent) : (s.emit e).ie = s.ie := rfl
@[simp] theorem emit_isr (e : HostEvent) : (s.emit e).isr = s.isr := rfl
@[simp] theorem emit_pisr (e : HostEvent) : (s.emit e).pisr = s.pisr := rfl
@[simp] theorem emit_run (e : HostEvent) : (s.emit e).run = s.run := rfl
@[simp] theorem emit_paused (e : HostEvent) : (s.emit e).paused = s.paused := rfl
@[simp] theorem emit_queue (e : HostEvent) : (s.emit e).queue = s.queue := rfl
@[simp] theorem emit_vec (e : HostEvent) : (s.emit e).vec = s.vec := rfl
@[simp] theorem emit_prot (e : HostEvent) : (s.emit e).prot = s.prot := rfl
@[simp] theorem emit_tick (e : HostEvent) : (s.emit e).tick = s.tick := rfl
@[simp] theorem emit_cacheEn (e : HostEvent) : (s.emit e).cacheEn = s.cacheEn := rfl
@[simp] theorem emit_mem (e : HostEvent) : (s.emit e).mem = s.mem := rfl
@[simp] theorem emit_events (e : HostEvent) : (s.emit e).events = s.events ++ [e] := rfl
@[simp] theorem emit_clockDraws (e : HostEvent) : (s.emit e).clockDraws = s.clockDraws := rfl
@[simp] theorem emit_nanDraws (e : HostEvent) : (s.emit e).nanDraws = s.nanDraws := rfl
@[simp] theorem emit_platform (e : HostEvent) : (s.emit e).platform = s.platform := rfl

/-! ## countClock -/

@[simp] theorem countClock_gpr : s.countClock.gpr = s.gpr := rfl
@[simp] theorem countClock_rip : s.countClock.rip = s.rip := rfl
@[simp] theorem countClock_rsp : s.countClock.rsp = s.rsp := rfl
@[simp] theorem countClock_rsip : s.countClock.rsip = s.rsip := rfl
@[simp] theorem countClock_rc : s.countClock.rc = s.rc := rfl
@[simp] theorem countClock_ie : s.countClock.ie = s.ie := rfl
@[simp] theorem countClock_isr : s.countClock.isr = s.isr := rfl
@[simp] theorem countClock_pisr : s.countClock.pisr = s.pisr := rfl
@[simp] theorem countClock_run : s.countClock.run = s.run := rfl
@[simp] theorem countClock_paused : s.countClock.paused = s.paused := rfl
@[simp] theorem countClock_queue : s.countClock.queue = s.queue := rfl
@[simp] theorem countClock_vec : s.countClock.vec = s.vec := rfl
@[simp] theorem countClock_prot : s.countClock.prot = s.prot := rfl
@[simp] theorem countClock_tick : s.countClock.tick = s.tick := rfl
@[simp] theorem countClock_cacheEn : s.countClock.cacheEn = s.cacheEn := rfl
@[simp] theorem countClock_mem : s.countClock.mem = s.mem := rfl
@[simp] theorem countClock_events : s.countClock.events = s.events := rfl
@[simp] theorem countClock_clockDraws : s.countClock.clockDraws = s.clockDraws + 1 := rfl
@[simp] theorem countClock_nanDraws : s.countClock.nanDraws = s.nanDraws := rfl
@[simp] theorem countClock_platform : s.countClock.platform = s.platform := rfl

/-! ## countNan -/

@[simp] theorem countNan_gpr : s.countNan.gpr = s.gpr := rfl
@[simp] theorem countNan_rip : s.countNan.rip = s.rip := rfl
@[simp] theorem countNan_rsp : s.countNan.rsp = s.rsp := rfl
@[simp] theorem countNan_rsip : s.countNan.rsip = s.rsip := rfl
@[simp] theorem countNan_rc : s.countNan.rc = s.rc := rfl
@[simp] theorem countNan_ie : s.countNan.ie = s.ie := rfl
@[simp] theorem countNan_isr : s.countNan.isr = s.isr := rfl
@[simp] theorem countNan_pisr : s.countNan.pisr = s.pisr := rfl
@[simp] theorem countNan_run : s.countNan.run = s.run := rfl
@[simp] theorem countNan_paused : s.countNan.paused = s.paused := rfl
@[simp] theorem countNan_queue : s.countNan.queue = s.queue := rfl
@[simp] theorem countNan_vec : s.countNan.vec = s.vec := rfl
@[simp] theorem countNan_prot : s.countNan.prot = s.prot := rfl
@[simp] theorem countNan_tick : s.countNan.tick = s.tick := rfl
@[simp] theorem countNan_cacheEn : s.countNan.cacheEn = s.cacheEn := rfl
@[simp] theorem countNan_mem : s.countNan.mem = s.mem := rfl
@[simp] theorem countNan_events : s.countNan.events = s.events := rfl
@[simp] theorem countNan_clockDraws : s.countNan.clockDraws = s.clockDraws := rfl
@[simp] theorem countNan_nanDraws : s.countNan.nanDraws = s.nanDraws + 1 := rfl
@[simp] theorem countNan_platform : s.countNan.platform = s.platform := rfl

/-! ## enqueue -/

@[simp] theorem enqueue_gpr (c : Cause) : (s.enqueue c).gpr = s.gpr := rfl
@[simp] theorem enqueue_rip (c : Cause) : (s.enqueue c).rip = s.rip := rfl
@[simp] theorem enqueue_rsp (c : Cause) : (s.enqueue c).rsp = s.rsp := rfl
@[simp] theorem enqueue_rsip (c : Cause) : (s.enqueue c).rsip = s.rsip := rfl
@[simp] theorem enqueue_rc (c : Cause) : (s.enqueue c).rc = s.rc := rfl
@[simp] theorem enqueue_ie (c : Cause) : (s.enqueue c).ie = s.ie := rfl
@[simp] theorem enqueue_isr (c : Cause) : (s.enqueue c).isr = s.isr := rfl
@[simp] theorem enqueue_pisr (c : Cause) : (s.enqueue c).pisr = s.pisr := rfl
@[simp] theorem enqueue_run (c : Cause) : (s.enqueue c).run = s.run := rfl
@[simp] theorem enqueue_paused (c : Cause) : (s.enqueue c).paused = s.paused := rfl
@[simp] theorem enqueue_queue (c : Cause) : (s.enqueue c).queue = s.queue ++ [c] := rfl
@[simp] theorem enqueue_vec (c : Cause) : (s.enqueue c).vec = s.vec := rfl
@[simp] theorem enqueue_prot (c : Cause) : (s.enqueue c).prot = s.prot := rfl
@[simp] theorem enqueue_tick (c : Cause) : (s.enqueue c).tick = s.tick := rfl
@[simp] theorem enqueue_cacheEn (c : Cause) : (s.enqueue c).cacheEn = s.cacheEn := rfl
@[simp] theorem enqueue_mem (c : Cause) : (s.enqueue c).mem = s.mem := rfl
@[simp] theorem enqueue_events (c : Cause) : (s.enqueue c).events = s.events := rfl
@[simp] theorem enqueue_clockDraws (c : Cause) : (s.enqueue c).clockDraws = s.clockDraws := rfl
@[simp] theorem enqueue_nanDraws (c : Cause) : (s.enqueue c).nanDraws = s.nanDraws := rfl
@[simp] theorem enqueue_platform (c : Cause) : (s.enqueue c).platform = s.platform := rfl

/-! ## raise -/

@[simp] theorem number_invalidInstruction (n : CauseNumbers) : n.number .invalidInstruction = n.invalidInstruction := rfl
@[simp] theorem number_divideByZero (n : CauseNumbers) : n.number .divideByZero = n.divideByZero := rfl
@[simp] theorem number_hardwareFault (n : CauseNumbers) : n.number .hardwareFault = n.hardwareFault := rfl

@[simp] theorem raise_gpr (x : CauseName) : (s.raise x).gpr = s.gpr := rfl
@[simp] theorem raise_rip (x : CauseName) : (s.raise x).rip = s.rip := rfl
@[simp] theorem raise_rsp (x : CauseName) : (s.raise x).rsp = s.rsp := rfl
@[simp] theorem raise_rsip (x : CauseName) : (s.raise x).rsip = s.rsip := rfl
@[simp] theorem raise_rc (x : CauseName) : (s.raise x).rc = s.rc := rfl
@[simp] theorem raise_ie (x : CauseName) : (s.raise x).ie = s.ie := rfl
@[simp] theorem raise_isr (x : CauseName) : (s.raise x).isr = s.isr := rfl
@[simp] theorem raise_pisr (x : CauseName) : (s.raise x).pisr = s.pisr := rfl
@[simp] theorem raise_run (x : CauseName) : (s.raise x).run = s.run := rfl
@[simp] theorem raise_paused (x : CauseName) : (s.raise x).paused = s.paused := rfl
@[simp] theorem raise_queue (x : CauseName) : (s.raise x).queue = s.queue ++ [s.platform.causes.number x] := rfl
@[simp] theorem raise_vec (x : CauseName) : (s.raise x).vec = s.vec := rfl
@[simp] theorem raise_prot (x : CauseName) : (s.raise x).prot = s.prot := rfl
@[simp] theorem raise_tick (x : CauseName) : (s.raise x).tick = s.tick := rfl
@[simp] theorem raise_cacheEn (x : CauseName) : (s.raise x).cacheEn = s.cacheEn := rfl
@[simp] theorem raise_mem (x : CauseName) : (s.raise x).mem = s.mem := rfl
@[simp] theorem raise_events (x : CauseName) : (s.raise x).events = s.events := rfl
@[simp] theorem raise_clockDraws (x : CauseName) : (s.raise x).clockDraws = s.clockDraws := rfl
@[simp] theorem raise_nanDraws (x : CauseName) : (s.raise x).nanDraws = s.nanDraws := rfl
@[simp] theorem raise_platform (x : CauseName) : (s.raise x).platform = s.platform := rfl

/-! ## advance -/

@[simp] theorem advance_gpr (n : Nat) : (s.advance n).gpr = s.gpr := rfl
@[simp] theorem advance_rip (n : Nat) : (s.advance n).rip = s.rip + BitVec.ofNat 64 n := rfl
@[simp] theorem advance_rsp (n : Nat) : (s.advance n).rsp = s.rsp := rfl
@[simp] theorem advance_rsip (n : Nat) : (s.advance n).rsip = s.rsip := rfl
@[simp] theorem advance_rc (n : Nat) : (s.advance n).rc = s.rc := rfl
@[simp] theorem advance_ie (n : Nat) : (s.advance n).ie = s.ie := rfl
@[simp] theorem advance_isr (n : Nat) : (s.advance n).isr = s.isr := rfl
@[simp] theorem advance_pisr (n : Nat) : (s.advance n).pisr = s.pisr := rfl
@[simp] theorem advance_run (n : Nat) : (s.advance n).run = s.run := rfl
@[simp] theorem advance_paused (n : Nat) : (s.advance n).paused = s.paused := rfl
@[simp] theorem advance_queue (n : Nat) : (s.advance n).queue = s.queue := rfl
@[simp] theorem advance_vec (n : Nat) : (s.advance n).vec = s.vec := rfl
@[simp] theorem advance_prot (n : Nat) : (s.advance n).prot = s.prot := rfl
@[simp] theorem advance_tick (n : Nat) : (s.advance n).tick = s.tick := rfl
@[simp] theorem advance_cacheEn (n : Nat) : (s.advance n).cacheEn = s.cacheEn := rfl
@[simp] theorem advance_mem (n : Nat) : (s.advance n).mem = s.mem := rfl
@[simp] theorem advance_events (n : Nat) : (s.advance n).events = s.events := rfl
@[simp] theorem advance_clockDraws (n : Nat) : (s.advance n).clockDraws = s.clockDraws := rfl
@[simp] theorem advance_nanDraws (n : Nat) : (s.advance n).nanDraws = s.nanDraws := rfl
@[simp] theorem advance_platform (n : Nat) : (s.advance n).platform = s.platform := rfl

/-! ## takeInterrupt -/

@[simp] theorem takeInterrupt_gpr (c : Cause) : (s.takeInterrupt c).gpr = s.gpr := rfl
@[simp] theorem takeInterrupt_rip (c : Cause) : (s.takeInterrupt c).rip = s.vec[c] := rfl
@[simp] theorem takeInterrupt_rsp (c : Cause) : (s.takeInterrupt c).rsp = s.rsp := rfl
@[simp] theorem takeInterrupt_rsip (c : Cause) : (s.takeInterrupt c).rsip = s.rip := rfl
@[simp] theorem takeInterrupt_rc (c : Cause) : (s.takeInterrupt c).rc = s.rc := rfl
@[simp] theorem takeInterrupt_ie (c : Cause) : (s.takeInterrupt c).ie = s.ie := rfl
@[simp] theorem takeInterrupt_isr (c : Cause) : (s.takeInterrupt c).isr = (s.isr || !s.isProtected c) := rfl
@[simp] theorem takeInterrupt_pisr (c : Cause) : (s.takeInterrupt c).pisr = (s.pisr || s.isProtected c) := rfl
@[simp] theorem takeInterrupt_run (c : Cause) : (s.takeInterrupt c).run = s.run := rfl
@[simp] theorem takeInterrupt_paused (c : Cause) : (s.takeInterrupt c).paused = s.paused := rfl
@[simp] theorem takeInterrupt_queue (c : Cause) : (s.takeInterrupt c).queue = s.queue := rfl
@[simp] theorem takeInterrupt_vec (c : Cause) : (s.takeInterrupt c).vec = s.vec := rfl
@[simp] theorem takeInterrupt_prot (c : Cause) : (s.takeInterrupt c).prot = s.prot := rfl
@[simp] theorem takeInterrupt_tick (c : Cause) : (s.takeInterrupt c).tick = s.tick := rfl
@[simp] theorem takeInterrupt_cacheEn (c : Cause) : (s.takeInterrupt c).cacheEn = s.cacheEn := rfl
@[simp] theorem takeInterrupt_mem (c : Cause) : (s.takeInterrupt c).mem = s.mem := rfl
@[simp] theorem takeInterrupt_events (c : Cause) : (s.takeInterrupt c).events = s.events := rfl
@[simp] theorem takeInterrupt_clockDraws (c : Cause) : (s.takeInterrupt c).clockDraws = s.clockDraws := rfl
@[simp] theorem takeInterrupt_nanDraws (c : Cause) : (s.takeInterrupt c).nanDraws = s.nanDraws := rfl
@[simp] theorem takeInterrupt_platform (c : Cause) : (s.takeInterrupt c).platform = s.platform := rfl

/-! ## returnFromInterrupt -/

@[simp] theorem returnFromInterrupt_gpr : s.returnFromInterrupt.gpr = s.gpr := rfl
@[simp] theorem returnFromInterrupt_rip : s.returnFromInterrupt.rip = s.rsip := rfl
@[simp] theorem returnFromInterrupt_rsp : s.returnFromInterrupt.rsp = s.rsp := rfl
@[simp] theorem returnFromInterrupt_rsip : s.returnFromInterrupt.rsip = s.rsip := rfl
@[simp] theorem returnFromInterrupt_rc : s.returnFromInterrupt.rc = s.rc := rfl
@[simp] theorem returnFromInterrupt_ie : s.returnFromInterrupt.ie = s.ie := rfl
@[simp] theorem returnFromInterrupt_isr : s.returnFromInterrupt.isr = false := rfl
@[simp] theorem returnFromInterrupt_pisr : s.returnFromInterrupt.pisr = false := rfl
@[simp] theorem returnFromInterrupt_run : s.returnFromInterrupt.run = s.run := rfl
@[simp] theorem returnFromInterrupt_paused : s.returnFromInterrupt.paused = s.paused := rfl
@[simp] theorem returnFromInterrupt_queue : s.returnFromInterrupt.queue = s.queue := rfl
@[simp] theorem returnFromInterrupt_vec : s.returnFromInterrupt.vec = s.vec := rfl
@[simp] theorem returnFromInterrupt_prot : s.returnFromInterrupt.prot = s.prot := rfl
@[simp] theorem returnFromInterrupt_tick : s.returnFromInterrupt.tick = s.tick := rfl
@[simp] theorem returnFromInterrupt_cacheEn : s.returnFromInterrupt.cacheEn = s.cacheEn := rfl
@[simp] theorem returnFromInterrupt_mem : s.returnFromInterrupt.mem = s.mem := rfl
@[simp] theorem returnFromInterrupt_events : s.returnFromInterrupt.events = s.events := rfl
@[simp] theorem returnFromInterrupt_clockDraws : s.returnFromInterrupt.clockDraws = s.clockDraws := rfl
@[simp] theorem returnFromInterrupt_nanDraws : s.returnFromInterrupt.nanDraws = s.nanDraws := rfl
@[simp] theorem returnFromInterrupt_platform : s.returnFromInterrupt.platform = s.platform := rfl

/-! ## Register reads -/

@[simp] theorem getReg_gpr (n : Fin 16) : s.getReg (.gpr n) = s.gpr[n] := rfl
@[simp] theorem getReg_rip : s.getReg .rip = s.rip := rfl
@[simp] theorem getReg_rsp : s.getReg .rsp = s.rsp := rfl
@[simp] theorem getReg_rsip : s.getReg .rsip = s.rsip := rfl
@[simp] theorem getReg_rc : s.getReg .rc = s.rc := rfl

/-- A register reads as the word last written to it. -/
@[simp] theorem getReg_setReg_same (r : Reg) (v : Word) : (s.setReg r v).getReg r = v := by
  cases r <;> simp [State.getReg, State.setReg]

/-- A register write leaves every other register alone. -/
theorem getReg_setReg_ne {r q : Reg} (v : Word) (h : q ≠ r) : (s.setReg r v).getReg q = s.getReg q := by
  cases r <;> cases q <;> simp_all [State.getReg, State.setReg, Fin.ext_iff, Vector.getElem_set]
  omega

/-- Two states with the same registers read alike. -/
theorem getReg_congr {s t : State} (hg : t.gpr = s.gpr) (hi : t.rip = s.rip) (hp : t.rsp = s.rsp) (hs : t.rsip = s.rsip)
    (hc : t.rc = s.rc) (r : Reg) : t.getReg r = s.getReg r := by
  cases r <;> simp [hg, hi, hp, hs, hc]

/-! ## Reset -/

@[simp] theorem resetOn_gpr (p : Platform) : (State.resetOn p).gpr = Vector.replicate 16 0 := rfl
@[simp] theorem resetOn_rip (p : Platform) : (State.resetOn p).rip = p.entry := rfl
@[simp] theorem resetOn_rsp (p : Platform) : (State.resetOn p).rsp = 0 := rfl
@[simp] theorem resetOn_rsip (p : Platform) : (State.resetOn p).rsip = 0 := rfl
@[simp] theorem resetOn_rc (p : Platform) : (State.resetOn p).rc = 0 := rfl
@[simp] theorem resetOn_ie (p : Platform) : (State.resetOn p).ie = false := rfl
@[simp] theorem resetOn_isr (p : Platform) : (State.resetOn p).isr = false := rfl
@[simp] theorem resetOn_pisr (p : Platform) : (State.resetOn p).pisr = false := rfl
@[simp] theorem resetOn_run (p : Platform) : (State.resetOn p).run = false := rfl
@[simp] theorem resetOn_paused (p : Platform) : (State.resetOn p).paused = false := rfl
@[simp] theorem resetOn_queue (p : Platform) : (State.resetOn p).queue = [] := rfl
@[simp] theorem resetOn_vec (p : Platform) : (State.resetOn p).vec = Vector.replicate 255 0 := rfl
@[simp] theorem resetOn_prot (p : Platform) : (State.resetOn p).prot = 0 := rfl
@[simp] theorem resetOn_tick (p : Platform) : (State.resetOn p).tick = 0 := rfl
@[simp] theorem resetOn_cacheEn (p : Platform) : (State.resetOn p).cacheEn = false := rfl
@[simp] theorem resetOn_mem (p : Platform) : (State.resetOn p).mem = [] := rfl
@[simp] theorem resetOn_events (p : Platform) : (State.resetOn p).events = [] := rfl
@[simp] theorem resetOn_clockDraws (p : Platform) : (State.resetOn p).clockDraws = 0 := rfl
@[simp] theorem resetOn_nanDraws (p : Platform) : (State.resetOn p).nanDraws = 0 := rfl
@[simp] theorem resetOn_platform (p : Platform) : (State.resetOn p).platform = p := rfl

end Sys2Proof.Machine
end

