-- ==== Sys2Proof/Laws/Ops.lean ====
section
/-!
SUPPORT. One lemma per shared operation that says everything it can do, for proofs to cite instead of unfolding it.
-/

namespace Sys2Proof.Machine

/-! ## The Memory device -/

/-- A read of the Memory device: in range the big-endian value and nothing else, out of range 0 and HardwareFault. -/
theorem memDevRead_cases (s : State) (a n : Nat) :
    (a + n ≤ s.platform.memSize ∧ s.memDevRead a n = (BitVec.ofNat 64 (beNat (memBytes s.mem a n)), s)) ∨
    (s.platform.memSize < a + n ∧ s.memDevRead a n = (0, s.raise .hardwareFault)) := by
  by_cases h : a + n ≤ s.platform.memSize
  · exact .inl ⟨h, by simp [State.memDevRead, State.inRange, h]⟩
  · exact .inr ⟨by omega, by simp [State.memDevRead, State.inRange, h]⟩

/-- A write of the Memory device: in range the bytes stored, out of range HardwareFault and no byte stored. -/
theorem memDevWrite_cases (s : State) (a n v : Nat) :
    (a + n ≤ s.platform.memSize ∧ s.memDevWrite a n v = s.setMem (memStore s.mem a (beBytes n v))) ∨
    (s.platform.memSize < a + n ∧ s.memDevWrite a n v = s.raise .hardwareFault) := by
  by_cases h : a + n ≤ s.platform.memSize
  · exact .inl ⟨h, by simp [State.memDevWrite, State.inRange, h]⟩
  · exact .inr ⟨by omega, by simp [State.memDevWrite, State.inRange, h]⟩

/-! ## The configuration device -/

/-- A configuration address names a vector exactly from `0x100` to `0x1FE`. -/
theorem vecSlot_cases (k : Nat) :
    (∃ h : 0x100 ≤ k ∧ k ≤ 0x1FE, vecSlot k = some ⟨k - 0x100, by omega⟩) ∨
    (¬(0x100 ≤ k ∧ k ≤ 0x1FE) ∧ vecSlot k = none) := by
  by_cases h : 0x100 ≤ k ∧ k ≤ 0x1FE
  · exact .inl ⟨h, by rw [vecSlot, dif_pos h]⟩
  · exact .inr ⟨h, by rw [vecSlot, dif_neg h]⟩

/-- A read of the configuration device changes nothing, but for a HardwareFault out of its map. -/
theorem cfgRead_state (s : State) (k : Nat) : (s.cfgRead k).2 = s ∨ (s.cfgRead k).2 = s.raise .hardwareFault := by
  unfold State.cfgRead
  split_ifs <;> first | exact .inl rfl | skip
  all_goals
    split
    · exact .inl rfl
    · exact .inr rfl

/-- A write of the configuration device changes one of its fields, or nothing, or raises HardwareFault. -/
theorem cfgWrite_cases (s : State) (k : Nat) (w : Word) :
    s.cfgWrite k w = s ∨ s.cfgWrite k w = s.setProt (w.setWidth 8) ∨ s.cfgWrite k w = s.setTick (w.setWidth 8) ∨
    s.cfgWrite k w = s.setCacheEn (decide (w ≠ 0)) ∨ (∃ c, s.cfgWrite k w = s.setVec c w) ∨
    s.cfgWrite k w = s.raise .hardwareFault := by
  unfold State.cfgWrite
  split_ifs
  · simp
  · simp
  · simp
  · simp
  · simp
  · split
    · rename_i c _
      exact .inr (.inr (.inr (.inr (.inl ⟨c, rfl⟩))))
    · simp

/-! ## The bus and data accesses -/

/-- A bus read changes nothing, but for a HardwareFault. -/
theorem busRead_state (s : State) (dev off : Nat) :
    (s.busRead dev off).2 = s ∨ (s.busRead dev off).2 = s.raise .hardwareFault := by
  unfold State.busRead
  split
  · rcases memDevRead_cases s off 8 with ⟨_, h⟩ | ⟨_, h⟩ <;> simp [h]
  · exact cfgRead_state s off
  all_goals exact .inr rfl

/-- A data read changes nothing, but for a HardwareFault. -/
theorem dataRead_state (s : State) (addr : Word) (z : Size) :
    (s.dataRead addr z).2 = s ∨ (s.dataRead addr z).2 = s.raise .hardwareFault := by
  unfold State.dataRead
  split
  · rcases memDevRead_cases s (routeOf s.platform addr).2 z.bytes with ⟨_, h⟩ | ⟨_, h⟩ <;> simp [h]
  · exact busRead_state s _ _

/-- What a write through the bus or the data path can do: bytes of Memory stored in range, one configuration field
written, nothing, or HardwareFault raised. -/
inductive WriteEffect (s : State) : State → Prop where
  | stored (a n v : Nat) (h : a + n ≤ s.platform.memSize) : WriteEffect s (s.setMem (memStore s.mem a (beBytes n v)))
  | prot (b : Byte) : WriteEffect s (s.setProt b)
  | tick (b : Byte) : WriteEffect s (s.setTick b)
  | cacheEn (b : Bool) : WriteEffect s (s.setCacheEn b)
  | vec (c : Cause) (w : Word) : WriteEffect s (s.setVec c w)
  | dropped : WriteEffect s s
  | faulted : WriteEffect s (s.raise .hardwareFault)

/-- A write of the Memory device is one of the effects a write can have. -/
theorem memDevWrite_effect (s : State) (a n v : Nat) : WriteEffect s (s.memDevWrite a n v) := by
  rcases memDevWrite_cases s a n v with ⟨h, e⟩ | ⟨_, e⟩ <;> rw [e]
  · exact .stored a n v h
  · exact .faulted

/-- A write of the configuration device is one of the effects a write can have. -/
theorem cfgWrite_effect (s : State) (k : Nat) (w : Word) : WriteEffect s (s.cfgWrite k w) := by
  rcases cfgWrite_cases s k w with e | e | e | e | ⟨c, e⟩ | e <;> rw [e]
  · exact .dropped
  · exact .prot _
  · exact .tick _
  · exact .cacheEn _
  · exact .vec c w
  · exact .faulted

/-- A bus write is one of the effects a write can have. -/
theorem busWrite_effect (s : State) (dev off : Nat) (w : Word) : WriteEffect s (s.busWrite dev off w) := by
  unfold State.busWrite
  split
  · exact memDevWrite_effect s off 8 w.toNat
  · exact cfgWrite_effect s off w
  all_goals exact .faulted

/-- A data write is one of the effects a write can have. -/
theorem dataWrite_effect (s : State) (addr : Word) (z : Size) (v : Word) : WriteEffect s (s.dataWrite addr z v) := by
  unfold State.dataWrite
  split
  · exact memDevWrite_effect s _ _ _
  · exact busWrite_effect s _ _ _

/-- A write touches no register, no control flag, no record of the model and no parameter, and only appends to the
queue. -/
theorem WriteEffect.frame {s t : State} (h : WriteEffect s t) :
    t.gpr = s.gpr ∧ t.rip = s.rip ∧ t.rsp = s.rsp ∧ t.rsip = s.rsip ∧ t.rc = s.rc ∧ t.ie = s.ie ∧ t.isr = s.isr ∧
    t.pisr = s.pisr ∧ t.run = s.run ∧ t.paused = s.paused ∧ t.events = s.events ∧ t.clockDraws = s.clockDraws ∧
    t.nanDraws = s.nanDraws ∧ t.platform = s.platform ∧ (t.queue = s.queue ∨ t.queue = s.queue ++ [s.platform.causes.hardwareFault]) := by
  cases h <;> simp

/-- Every write keeps Memory's canonical form. -/
theorem WriteEffect.memory_wf {s t : State} (h : WriteEffect s t) (hw : Memory.wf s.platform.memSize s.mem = true) :
    Memory.wf t.platform.memSize t.mem = true := by
  cases h with
  | stored a n v h => exact memStore_wf hw (by simpa using h)
  | _ => exact hw

/-! ## Routing a data access -/

/-- A data read that `Route` sends to Memory, in range. -/
theorem dataRead_memory {s : State} {addr : Word} {z : Size} {off : Nat} (hr : routeOf s.platform addr = (s.platform.memId, off))
    (hin : off + z.bytes ≤ s.platform.memSize) :
    s.dataRead addr z = (BitVec.ofNat 64 (beNat (memBytes s.mem off z.bytes)), s) := by
  simp [State.dataRead, hr, State.memDevRead, State.inRange, hin]

/-- A data write that `Route` sends to Memory, in range. -/
theorem dataWrite_memory {s : State} {addr : Word} {z : Size} {off : Nat} (v : Word)
    (hr : routeOf s.platform addr = (s.platform.memId, off)) (hin : off + z.bytes ≤ s.platform.memSize) :
    s.dataWrite addr z v = s.setMem (memStore s.mem off (beBytes z.bytes (v.toNat % 2 ^ z.bits))) := by
  simp [State.dataWrite, hr, State.memDevWrite, State.inRange, hin]

/-! ## Operands -/

/-- The RSP after a parameter of this locator is read: a pop moves it, no other read does. -/
def rspAfterRead (s : State) (z : Size) : Locator → Word
  | .stk => s.rsp + sizeWord z
  | _ => s.rsp

/-- A read of a source parameter changes RSP if it is a pop, and the queue by at most one HardwareFault, and nothing else. -/
theorem readLoc_state (s : State) (z : Size) (l : Locator) :
    (s.readLoc z l).2 = s.setReg .rsp (rspAfterRead s z l) ∨
    (s.readLoc z l).2 = (s.setReg .rsp (rspAfterRead s z l)).raise .hardwareFault := by
  cases l with
  | reg r => exact .inl rfl
  | imm v => exact .inl rfl
  | mem addr => exact dataRead_state s addr z
  | stk =>
    simp only [State.readLoc, State.pop, rspAfterRead]
    rcases dataRead_state s s.rsp z with h | h <;> rw [h]
    · exact .inl rfl
    · exact .inr rfl

/-- What a read of a source parameter leaves unchanged: everything but RSP and the queue. -/
theorem readLoc_frame (s : State) (z : Size) (l : Locator) :
    let t := (s.readLoc z l).2
    t.gpr = s.gpr ∧ t.rip = s.rip ∧ t.rsp = rspAfterRead s z l ∧ t.rsip = s.rsip ∧ t.rc = s.rc ∧ t.ie = s.ie ∧
    t.isr = s.isr ∧ t.pisr = s.pisr ∧ t.run = s.run ∧ t.paused = s.paused ∧ t.vec = s.vec ∧ t.prot = s.prot ∧
    t.tick = s.tick ∧ t.cacheEn = s.cacheEn ∧ t.mem = s.mem ∧ t.events = s.events ∧ t.clockDraws = s.clockDraws ∧
    t.nanDraws = s.nanDraws ∧ t.platform = s.platform ∧
    (t.queue = s.queue ∨ t.queue = s.queue ++ [s.platform.causes.hardwareFault]) := by
  rcases readLoc_state s z l with h | h <;> rw [h] <;> simp

/-- A destination write through a register. -/
@[simp] theorem writeLoc_reg (s : State) (z : Size) (r : Reg) (v : Word) : s.writeLoc z (.reg r) v = s.setReg r v := rfl

/-- A destination write through a data address. -/
@[simp] theorem writeLoc_mem (s : State) (z : Size) (a v : Word) : s.writeLoc z (.mem a) v = s.dataWrite a z v := rfl

/-- A destination write through the stack: RSP first, then the store at the new RSP. -/
@[simp] theorem writeLoc_stk (s : State) (z : Size) (v : Word) :
    s.writeLoc z .stk v = (s.setReg .rsp (s.rsp - sizeWord z)).dataWrite (s.rsp - sizeWord z) z v := rfl

/-- What a destination write can do: write one register, or have one of a write's effects, after RSP moved for a push. -/
theorem writeLoc_cases (s : State) (z : Size) (l : Locator) (v : Word) :
    (∃ r, l = .reg r ∧ s.writeLoc z l v = s.setReg r v) ∨
    (∃ a, l = .mem a ∧ WriteEffect s (s.writeLoc z l v)) ∨
    (l = .stk ∧ WriteEffect (s.setReg .rsp (s.rsp - sizeWord z)) (s.writeLoc z l v)) ∨
    (∃ w, l = .imm w ∧ s.writeLoc z l v = s) := by
  cases l with
  | reg r => exact .inl ⟨r, rfl, rfl⟩
  | mem a => exact .inr (.inl ⟨a, rfl, dataWrite_effect s a z v⟩)
  | stk => exact .inr (.inr (.inl ⟨rfl, dataWrite_effect _ _ z v⟩))
  | imm w => exact .inr (.inr (.inr ⟨w, rfl, rfl⟩))

/-- A destination write touches no control flag, no record of the model and no parameter, and only appends to the queue. -/
theorem writeLoc_frame (s : State) (z : Size) (l : Locator) (v : Word) :
    let t := s.writeLoc z l v
    t.ie = s.ie ∧ t.isr = s.isr ∧ t.pisr = s.pisr ∧ t.run = s.run ∧ t.paused = s.paused ∧ t.events = s.events ∧
    t.clockDraws = s.clockDraws ∧ t.nanDraws = s.nanDraws ∧ t.platform = s.platform ∧
    (t.queue = s.queue ∨ t.queue = s.queue ++ [s.platform.causes.hardwareFault]) := by
  rcases writeLoc_cases s z l v with ⟨r, _, e⟩ | ⟨a, _, e⟩ | ⟨_, e⟩ | ⟨w, _, e⟩
  · simp [e]
  · obtain ⟨_, _, _, _, _, h⟩ := e.frame
    simp_all
  · obtain ⟨_, _, _, _, _, h⟩ := e.frame
    simp_all
  · simp [e]

/-- A destination write keeps Memory's canonical form. -/
theorem writeLoc_memory_wf (s : State) (z : Size) (l : Locator) (v : Word)
    (hw : Memory.wf s.platform.memSize s.mem = true) :
    Memory.wf (s.writeLoc z l v).platform.memSize (s.writeLoc z l v).mem = true := by
  rcases writeLoc_cases s z l v with ⟨r, _, e⟩ | ⟨a, _, e⟩ | ⟨_, e⟩ | ⟨w, _, e⟩
  · simpa [e] using hw
  · exact e.memory_wf hw
  · exact e.memory_wf (by simpa using hw)
  · simpa [e] using hw

/-- A destination write leaves a register alone that is not its destination, RSP apart where it is a push. -/
theorem writeLoc_getReg (s : State) (z : Size) {l : Locator} (v : Word) {r : Reg} (h : l ≠ .reg r)
    (h' : ¬(r = .rsp ∧ l = .stk)) : (s.writeLoc z l v).getReg r = s.getReg r := by
  rcases writeLoc_cases s z l v with ⟨q, hl, e⟩ | ⟨a, _, e⟩ | ⟨hl, e⟩ | ⟨w, _, e⟩
  · rw [e]; exact getReg_setReg_ne s _ (by rintro rfl; exact h hl)
  · have := e.frame
    cases r <;> simp [State.getReg, this]
  · have := e.frame
    cases r <;> simp_all [State.getReg]
  · rw [e]

/-- A write of the Memory device leaves every byte outside it alone. -/
theorem memDevWrite_outside (s : State) (a n v : Nat) {x : Nat} (hw : Memory.wf s.platform.memSize s.mem = true)
    (hx : x < a ∨ a + n ≤ x) : memGet (s.memDevWrite a n v).mem x = memGet s.mem x := by
  rcases memDevWrite_cases s a n v with ⟨h, e⟩ | ⟨_, e⟩ <;> rw [e]
  · exact memGet_memStore_outside hw (by simpa using h) (by simpa using hx)
  · rfl

/-- The flag update sets RC or changes nothing. -/
theorem setRcIf_cases (s : State) (c : Bool) :
    (c = true ∧ s.setRcIf c = s.setReg .rc allOnes) ∨ (c = false ∧ s.setRcIf c = s) := by
  cases c
  · exact .inr ⟨rfl, rfl⟩
  · exact .inl ⟨rfl, rfl⟩

/-! ## Shapes of instructions -/

/-- A two-parameter instruction with a writable destination completes, with the state of its steps. -/
theorem runUnary_next {z : Size} {p1 p2 : Param} {len : Nat} {h : Word → State → Handled} {s t : State} :
    runUnary z p1 p2 len h s = .next t ↔
      p2.writable = true ∧
      t = (finishWrite z ((s.readParam z p1).2.locate p2) (h (s.readParam z p1).1 (s.readParam z p1).2)).advance len := by
  by_cases hw : p2.writable = true
  · rw [runUnary, if_pos hw, Host.Outcome.next.injEq]
    exact ⟨fun h => ⟨hw, h.symm⟩, fun h => h.2.symm⟩
  · simp [runUnary, hw]

/-- A three-parameter instruction with a writable destination completes, with the state of its steps. -/
theorem runBinary_next {z : Size} {p1 p2 p3 : Param} {len : Nat} {h : Word → Word → State → Handled} {s t : State} :
    runBinary z p1 p2 p3 len h s = .next t ↔
      p3.writable = true ∧
      t = (finishWrite z (((s.readParam z p1).2.readParam z p2).2.locate p3)
            (h (s.readParam z p1).1 ((s.readParam z p1).2.readParam z p2).1 ((s.readParam z p1).2.readParam z p2).2)).advance
              len := by
  by_cases hw : p3.writable = true
  · rw [runBinary, if_pos hw, Host.Outcome.next.injEq]
    exact ⟨fun h => ⟨hw, h.symm⟩, fun h => h.2.symm⟩
  · simp [runBinary, hw]

/-! ## Fetching and dispatch -/

/-- The fetches' faults append one HardwareFault for each fetch out of range, and change nothing else. -/
theorem raiseFetchFaults_state (s : State) (a : Nat) (log : List (Nat × Nat)) :
    s.raiseFetchFaults a log = s.setQueue (s.queue ++
      List.replicate (log.countP fun e => decide (s.platform.memSize < a + e.1 + e.2)) s.platform.causes.hardwareFault) := by
  induction log generalizing s with
  | nil => simp [State.raiseFetchFaults, State.setQueue]
  | cons e rest ih =>
    obtain ⟨off, k⟩ := e
    rw [State.raiseFetchFaults, List.countP_cons]
    by_cases h : a + off + k ≤ s.platform.memSize
    · rw [if_pos (by simpa [State.inRange] using h), ih s, if_neg (by simp; omega)]
      rfl
    · rw [if_neg (by simpa [State.inRange] using h), ih (s.raise .hardwareFault), if_pos (by simp; omega)]
      simp [State.setQueue, State.raise, State.enqueue, List.replicate_succ]
      rfl

/-- Where every fetch is in range, no fault is raised. -/
theorem raiseFetchFaults_inRange (s : State) (a : Nat) (log : List (Nat × Nat))
    (h : ∀ e ∈ log, a + e.1 + e.2 ≤ s.platform.memSize) : s.raiseFetchFaults a log = s := by
  induction log with
  | nil => rfl
  | cons e rest ih =>
    obtain ⟨off, k⟩ := e
    have he : s.inRange (a + off) k = true := by simpa [State.inRange] using h (off, k) (by simp)
    rw [State.raiseFetchFaults, if_pos he]
    exact ih fun e' h' => h e' (by simp [h'])

/-- An instruction's length is the platform's alone. -/
theorem lengthOf_congr {s t : State} (h : t.platform = s.platform) (i : Instr) : t.lengthOf i = s.lengthOf i := by
  rw [State.lengthOf, State.lengthOf, h]

/-- The dispatch check takes the head of the queue, or does nothing. -/
theorem dispatchCheck_cases (s : State) :
    (∃ c rest, s.ie = true ∧ s.pisr = false ∧ s.queue = c :: rest ∧ s.dispatchCheck = (s.setQueue rest).takeInterrupt c) ∨
    ((s.ie = false ∨ s.pisr = true ∨ s.queue = []) ∧ s.dispatchCheck = s) := by
  unfold State.dispatchCheck
  split
  · rename_i h
    simp only [Bool.and_eq_true, Bool.not_eq_eq_eq_not, Bool.not_true] at h
    split
    · rename_i hq
      exact .inr ⟨.inr (.inr hq), rfl⟩
    · rename_i c rest hq
      exact .inl ⟨c, rest, h.1, h.2, hq, rfl⟩
  · rename_i h
    refine .inr ⟨?_, rfl⟩
    cases hi : s.ie <;> cases hp : s.pisr <;> simp_all

end Sys2Proof.Machine
end

