-- ==== Sys2Proof/Laws/Environment.lean ====
section
/-!
SUPPORT. What the host's block and bulk operations can do, one lemma for each, for proofs to cite instead of unfolding them.
-/

namespace Sys2Proof.Machine

/-! ## Words and bytes of a block -/

@[simp] theorem memWords_length (m : Memory) (a n : Nat) : (memWords m a n).length = n := by
  induction n generalizing a with
  | zero => rfl
  | succ n ih => simp [memWords, ih]

/-- The `k`-th of consecutive words is the big-endian value of its eight bytes. -/
theorem memWords_getElem (m : Memory) (a n k : Nat) (h : k < (memWords m a n).length) :
    (memWords m a n)[k] = BitVec.ofNat 64 (beNat (memBytes m (a + 8 * k) 8)) := by
  induction n generalizing a k with
  | zero => simp [memWords] at h
  | succ n ih =>
    cases k with
    | zero => rfl
    | succ k =>
      simp only [memWords, List.getElem_cons_succ]
      rw [ih, show a + 8 + 8 * k = a + 8 * (k + 1) by omega]

@[simp] theorem blockBytes_length (ws : List Word) : (blockBytes ws).length = 8 * ws.length := by
  induction ws with
  | nil => rfl
  | cons w ws ih =>
    simp only [blockBytes, List.flatMap_cons, List.length_append, beBytes_length, List.length_cons] at ih ⊢
    omega

/-- The `k`-th eight bytes of a block are those of its `k`-th word. -/
theorem blockBytes_word (ws : List Word) (k : Nat) (h : k < ws.length) :
    ((blockBytes ws).drop (8 * k)).take 8 = beBytes 8 ws[k].toNat := by
  induction ws generalizing k with
  | nil => simp at h
  | cons w ws ih =>
    cases k with
    | zero => simp [blockBytes]
    | succ k =>
      have hk := ih k (by simpa using h)
      simp only [blockBytes, List.flatMap_cons, List.getElem_cons_succ] at hk ⊢
      rw [← hk, show 8 * (k + 1) = (beBytes 8 w.toNat).length + 8 * k by simp; omega, List.drop_append,
        List.drop_eq_nil_of_le (by omega), List.nil_append, Nat.add_sub_cancel_left]

/-! ## Memory's overrides -/

/-- The block move: in range the bytes that were at the source stored at the target, else one HardwareFault. -/
theorem memMove_cases (s : State) (dst src len : Nat) :
    (src + len ≤ s.platform.memSize ∧ dst + len ≤ s.platform.memSize ∧
      s.memMove dst src len = s.setMem (memStore s.mem dst (memBytes s.mem src len))) ∨
    ((s.platform.memSize < src + len ∨ s.platform.memSize < dst + len) ∧
      s.memMove dst src len = s.raise .hardwareFault) := by
  by_cases h1 : src + len ≤ s.platform.memSize
  · by_cases h2 : dst + len ≤ s.platform.memSize
    · exact .inl ⟨h1, h2, by simp [State.memMove, State.inRange, h1, h2]⟩
    · exact .inr ⟨.inr (by omega), by simp [State.memMove, State.inRange, h2]⟩
  · exact .inr ⟨.inl (by omega), by simp [State.memMove, State.inRange, h1]⟩

/-- Memory's bulk Read: in range its words, else zeros and one HardwareFault. -/
theorem memBlockRead_cases (s : State) (a count : Nat) :
    (a + 8 * count ≤ s.platform.memSize ∧ s.memBlockRead a count = (memWords s.mem a count, s)) ∨
    (s.platform.memSize < a + 8 * count ∧
      s.memBlockRead a count = (List.replicate count 0, s.raise .hardwareFault)) := by
  by_cases h : a + 8 * count ≤ s.platform.memSize
  · exact .inl ⟨h, by simp [State.memBlockRead, State.inRange, h]⟩
  · exact .inr ⟨by omega, by simp [State.memBlockRead, State.inRange, h]⟩

/-- Memory's bulk Write: in range its bytes stored, else one HardwareFault. -/
theorem memBlockWrite_cases (s : State) (a : Nat) (ws : List Word) :
    (a + 8 * ws.length ≤ s.platform.memSize ∧ s.memBlockWrite a ws = s.setMem (memStore s.mem a (blockBytes ws))) ∨
    (s.platform.memSize < a + 8 * ws.length ∧ s.memBlockWrite a ws = s.raise .hardwareFault) := by
  by_cases h : a + 8 * ws.length ≤ s.platform.memSize
  · exact .inl ⟨h, by simp [State.memBlockWrite, State.inRange, h]⟩
  · exact .inr ⟨by omega, by simp [State.memBlockWrite, State.inRange, h]⟩

/-! ## Which form a bulk operation takes -/

theorem isMemoryId_iff (s : State) (dev : Nat) :
    s.isMemoryId dev = true ↔ registryFind dev s.platform.registry = some .memory := by simp [State.isMemoryId]

/-- A bulk Read is Memory's override, or the default. -/
theorem busReadBulk_cases (s : State) (dev off count : Nat) :
    (s.isMemoryId dev = true ∧ s.busReadBulk dev off count = s.memBlockRead off count) ∨
    (s.isMemoryId dev = false ∧ s.busReadBulk dev off count = s.busReadWords dev off count) := by
  cases h : s.isMemoryId dev <;> simp [State.busReadBulk, h]

/-- A bulk Write is Memory's override, or the default. -/
theorem busWriteBulk_cases (s : State) (dev off : Nat) (ws : List Word) :
    (s.isMemoryId dev = true ∧ s.busWriteBulk dev off ws = s.memBlockWrite off ws) ∨
    (s.isMemoryId dev = false ∧ s.busWriteBulk dev off ws = s.busWriteWords dev off ws) := by
  cases h : s.isMemoryId dev <;> simp [State.busWriteBulk, h]

/-- A bulk Copy is Memory's move where both ends are Memory, or the default. -/
theorem busCopyBulk_cases (s : State) (srcDev src dstDev dst count : Nat) :
    (s.isMemoryId srcDev = true ∧ s.isMemoryId dstDev = true ∧
      s.busCopyBulk srcDev src dstDev dst count = s.memMove dst src (8 * count)) ∨
    ((s.isMemoryId srcDev = false ∨ s.isMemoryId dstDev = false) ∧
      s.busCopyBulk srcDev src dstDev dst count = s.busCopyWords srcDev src dstDev dst count) := by
  cases h1 : s.isMemoryId srcDev <;> cases h2 : s.isMemoryId dstDev <;> simp [State.busCopyBulk, h1, h2]

end Sys2Proof.Machine
end

