-- ==== Sys2Proof/Laws/PerInstr.lean ====
section
/-!
SUPPORT. Statements about every instruction, one lemma per constructor.  `OpcodeRow`: the instruction-definition table's row
for an instruction's operation (spec/30_encoding.md R120) has the instruction's roles and builds the instruction from its
size and parameters.
-/

namespace Sys2Proof.Laws

/-- The roles a form's parameters have. -/
def formRoles : OpForm → List Role
  | .p0 _ => []
  | .p1 r1 _ => [r1]
  | .p2 r1 r2 _ => [r1, r2]
  | .p3 r1 r2 r3 _ => [r1, r2, r3]

/-- The instruction a form makes of a size and parameters, if their number is the form's. -/
def formBuild (z : Size) : OpForm → List Param → Option Instr
  | .p0 mk, [] => some (mk z)
  | .p1 _ mk, [a] => some (mk z a)
  | .p2 _ _ mk, [a, b] => some (mk z a b)
  | .p3 _ _ _ mk, [a, b, d] => some (mk z a b d)
  | _, _ => none

/-- The instruction-definition table's entry for the instruction's operation has its roles and builds the instruction, and the
spec's opcode byte names the operation. -/
def OpcodeRow.Statement (i : Instr) : Prop :=
  formRoles i.op.form = i.roles ∧ formBuild i.size i.op.form i.params = some i ∧
    opOfCode standardEncoding (opcodeOf standardEncoding i) = some i.op

theorem OpcodeRow.nop (z : Size) : OpcodeRow.Statement (.nop z) :=
  ⟨rfl, rfl, rfl⟩

theorem OpcodeRow.mov (z : Size) (p1 p2 : Param) : OpcodeRow.Statement (.mov z p1 p2) :=
  ⟨rfl, rfl, rfl⟩

theorem OpcodeRow.xchg (z : Size) (p1 p2 : Param) : OpcodeRow.Statement (.xchg z p1 p2) :=
  ⟨rfl, rfl, rfl⟩

theorem OpcodeRow.push (z : Size) (p1 : Param) : OpcodeRow.Statement (.push z p1) :=
  ⟨rfl, rfl, rfl⟩

theorem OpcodeRow.pop (z : Size) (p1 : Param) : OpcodeRow.Statement (.pop z p1) :=
  ⟨rfl, rfl, rfl⟩

theorem OpcodeRow.jmp (z : Size) (p1 : Param) : OpcodeRow.Statement (.jmp z p1) :=
  ⟨rfl, rfl, rfl⟩

theorem OpcodeRow.jz (z : Size) (p1 p2 : Param) : OpcodeRow.Statement (.jz z p1 p2) :=
  ⟨rfl, rfl, rfl⟩

theorem OpcodeRow.jnz (z : Size) (p1 p2 : Param) : OpcodeRow.Statement (.jnz z p1 p2) :=
  ⟨rfl, rfl, rfl⟩

theorem OpcodeRow.int (z : Size) (p1 : Param) : OpcodeRow.Statement (.int z p1) :=
  ⟨rfl, rfl, rfl⟩

theorem OpcodeRow.eint (z : Size) : OpcodeRow.Statement (.eint z) :=
  ⟨rfl, rfl, rfl⟩

theorem OpcodeRow.inte (z : Size) : OpcodeRow.Statement (.inte z) :=
  ⟨rfl, rfl, rfl⟩

theorem OpcodeRow.intd (z : Size) : OpcodeRow.Statement (.intd z) :=
  ⟨rfl, rfl, rfl⟩

theorem OpcodeRow.hlt (z : Size) : OpcodeRow.Statement (.hlt z) :=
  ⟨rfl, rfl, rfl⟩

theorem OpcodeRow.add (z : Size) (p1 p2 p3 : Param) : OpcodeRow.Statement (.add z p1 p2 p3) :=
  ⟨rfl, rfl, rfl⟩

theorem OpcodeRow.sub (z : Size) (p1 p2 p3 : Param) : OpcodeRow.Statement (.sub z p1 p2 p3) :=
  ⟨rfl, rfl, rfl⟩

theorem OpcodeRow.adc (z : Size) (p1 p2 p3 : Param) : OpcodeRow.Statement (.adc z p1 p2 p3) :=
  ⟨rfl, rfl, rfl⟩

theorem OpcodeRow.sbb (z : Size) (p1 p2 p3 : Param) : OpcodeRow.Statement (.sbb z p1 p2 p3) :=
  ⟨rfl, rfl, rfl⟩

theorem OpcodeRow.mul (z : Size) (p1 p2 p3 : Param) : OpcodeRow.Statement (.mul z p1 p2 p3) :=
  ⟨rfl, rfl, rfl⟩

theorem OpcodeRow.div (z : Size) (p1 p2 p3 : Param) : OpcodeRow.Statement (.div z p1 p2 p3) :=
  ⟨rfl, rfl, rfl⟩

theorem OpcodeRow.mod (z : Size) (p1 p2 p3 : Param) : OpcodeRow.Statement (.mod z p1 p2 p3) :=
  ⟨rfl, rfl, rfl⟩

theorem OpcodeRow.inc (z : Size) (p1 p2 : Param) : OpcodeRow.Statement (.inc z p1 p2) :=
  ⟨rfl, rfl, rfl⟩

theorem OpcodeRow.dec (z : Size) (p1 p2 : Param) : OpcodeRow.Statement (.dec z p1 p2) :=
  ⟨rfl, rfl, rfl⟩

theorem OpcodeRow.neg (z : Size) (p1 p2 : Param) : OpcodeRow.Statement (.neg z p1 p2) :=
  ⟨rfl, rfl, rfl⟩

theorem OpcodeRow.adf (z : Size) (p1 p2 p3 : Param) : OpcodeRow.Statement (.adf z p1 p2 p3) :=
  ⟨rfl, rfl, rfl⟩

theorem OpcodeRow.sbf (z : Size) (p1 p2 p3 : Param) : OpcodeRow.Statement (.sbf z p1 p2 p3) :=
  ⟨rfl, rfl, rfl⟩

theorem OpcodeRow.mlf (z : Size) (p1 p2 p3 : Param) : OpcodeRow.Statement (.mlf z p1 p2 p3) :=
  ⟨rfl, rfl, rfl⟩

theorem OpcodeRow.dvf (z : Size) (p1 p2 p3 : Param) : OpcodeRow.Statement (.dvf z p1 p2 p3) :=
  ⟨rfl, rfl, rfl⟩

theorem OpcodeRow.mdf (z : Size) (p1 p2 p3 : Param) : OpcodeRow.Statement (.mdf z p1 p2 p3) :=
  ⟨rfl, rfl, rfl⟩

theorem OpcodeRow.and (z : Size) (p1 p2 p3 : Param) : OpcodeRow.Statement (.and z p1 p2 p3) :=
  ⟨rfl, rfl, rfl⟩

theorem OpcodeRow.or (z : Size) (p1 p2 p3 : Param) : OpcodeRow.Statement (.or z p1 p2 p3) :=
  ⟨rfl, rfl, rfl⟩

theorem OpcodeRow.xor (z : Size) (p1 p2 p3 : Param) : OpcodeRow.Statement (.xor z p1 p2 p3) :=
  ⟨rfl, rfl, rfl⟩

theorem OpcodeRow.nand (z : Size) (p1 p2 p3 : Param) : OpcodeRow.Statement (.nand z p1 p2 p3) :=
  ⟨rfl, rfl, rfl⟩

theorem OpcodeRow.nor (z : Size) (p1 p2 p3 : Param) : OpcodeRow.Statement (.nor z p1 p2 p3) :=
  ⟨rfl, rfl, rfl⟩

theorem OpcodeRow.nxor (z : Size) (p1 p2 p3 : Param) : OpcodeRow.Statement (.nxor z p1 p2 p3) :=
  ⟨rfl, rfl, rfl⟩

theorem OpcodeRow.not (z : Size) (p1 p2 : Param) : OpcodeRow.Statement (.not z p1 p2) :=
  ⟨rfl, rfl, rfl⟩

theorem OpcodeRow.sr (z : Size) (p1 p2 p3 : Param) : OpcodeRow.Statement (.sr z p1 p2 p3) :=
  ⟨rfl, rfl, rfl⟩

theorem OpcodeRow.sl (z : Size) (p1 p2 p3 : Param) : OpcodeRow.Statement (.sl z p1 p2 p3) :=
  ⟨rfl, rfl, rfl⟩

theorem OpcodeRow.rr (z : Size) (p1 p2 p3 : Param) : OpcodeRow.Statement (.rr z p1 p2 p3) :=
  ⟨rfl, rfl, rfl⟩

theorem OpcodeRow.rl (z : Size) (p1 p2 p3 : Param) : OpcodeRow.Statement (.rl z p1 p2 p3) :=
  ⟨rfl, rfl, rfl⟩

theorem OpcodeRow.gt (z : Size) (p1 p2 p3 : Param) : OpcodeRow.Statement (.gt z p1 p2 p3) :=
  ⟨rfl, rfl, rfl⟩

theorem OpcodeRow.gte (z : Size) (p1 p2 p3 : Param) : OpcodeRow.Statement (.gte z p1 p2 p3) :=
  ⟨rfl, rfl, rfl⟩

theorem OpcodeRow.lt (z : Size) (p1 p2 p3 : Param) : OpcodeRow.Statement (.lt z p1 p2 p3) :=
  ⟨rfl, rfl, rfl⟩

theorem OpcodeRow.lte (z : Size) (p1 p2 p3 : Param) : OpcodeRow.Statement (.lte z p1 p2 p3) :=
  ⟨rfl, rfl, rfl⟩

theorem OpcodeRow.eq (z : Size) (p1 p2 p3 : Param) : OpcodeRow.Statement (.eq z p1 p2 p3) :=
  ⟨rfl, rfl, rfl⟩

theorem OpcodeRow.neq (z : Size) (p1 p2 p3 : Param) : OpcodeRow.Statement (.neq z p1 p2 p3) :=
  ⟨rfl, rfl, rfl⟩

theorem OpcodeRow.dbg (z : Size) (p1 : Param) : OpcodeRow.Statement (.dbg z p1) :=
  ⟨rfl, rfl, rfl⟩

theorem OpcodeRow.pau (z : Size) : OpcodeRow.Statement (.pau z) :=
  ⟨rfl, rfl, rfl⟩

end Sys2Proof.Laws
end

