-- ==== Sys2Proof/Laws/Table.lean ====
section
/-!
SUPPORT. Laws of the instruction-definition table, of the decoder's forms, and of the fetch.
-/

namespace Sys2Proof.Laws

/-! ## What a form builds -/

theorem formBuild_p0 {z : Size} {mk : Size → Instr} {ps : List Param} {i : Instr}
    (h : formBuild z (.p0 mk) ps = some i) : ps = [] ∧ i = mk z := by
  cases ps with
  | nil => simp only [formBuild, Option.some.injEq] at h; exact ⟨rfl, h.symm⟩
  | cons => simp [formBuild] at h

theorem formBuild_p1 {z : Size} {r : Role} {mk : Size → Param → Instr} {ps : List Param} {i : Instr}
    (h : formBuild z (.p1 r mk) ps = some i) : ∃ a, ps = [a] ∧ i = mk z a := by
  rcases ps with _ | ⟨a, _ | ⟨b, ps⟩⟩
  · simp [formBuild] at h
  · simp only [formBuild, Option.some.injEq] at h; exact ⟨a, rfl, h.symm⟩
  · simp [formBuild] at h

theorem formBuild_p2 {z : Size} {r r' : Role} {mk : Size → Param → Param → Instr} {ps : List Param} {i : Instr}
    (h : formBuild z (.p2 r r' mk) ps = some i) : ∃ a b, ps = [a, b] ∧ i = mk z a b := by
  rcases ps with _ | ⟨a, _ | ⟨b, _ | ⟨d, ps⟩⟩⟩
  · simp [formBuild] at h
  · simp [formBuild] at h
  · simp only [formBuild, Option.some.injEq] at h; exact ⟨a, b, rfl, h.symm⟩
  · simp [formBuild] at h

theorem formBuild_p3 {z : Size} {r r' r'' : Role} {mk : Size → Param → Param → Param → Instr} {ps : List Param}
    {i : Instr} (h : formBuild z (.p3 r r' r'' mk) ps = some i) : ∃ a b d, ps = [a, b, d] ∧ i = mk z a b d := by
  rcases ps with _ | ⟨a, _ | ⟨b, _ | ⟨d, _ | ⟨e, ps⟩⟩⟩⟩
  · simp [formBuild] at h
  · simp [formBuild] at h
  · simp [formBuild] at h
  · simp only [formBuild, Option.some.injEq] at h; exact ⟨a, b, d, rfl, h.symm⟩
  · simp [formBuild] at h

/-! ## The entries -/

/-- What an operation's entry builds has that operation, its roles, and the size and parameters it was built from. -/
theorem op_builds (o : Op) {z : Size} {ps : List Param} {i : Instr} (h : formBuild z o.form ps = some i) :
    i.op = o ∧ i.size = z ∧ i.params = ps ∧ i.roles = formRoles o.form := by
  cases o <;>
    first
    | (obtain ⟨rfl, rfl⟩ := formBuild_p0 h; exact ⟨rfl, rfl, rfl, rfl⟩)
    | (obtain ⟨a, rfl, rfl⟩ := formBuild_p1 h; exact ⟨rfl, rfl, rfl, rfl⟩)
    | (obtain ⟨a, b, rfl, rfl⟩ := formBuild_p2 h; exact ⟨rfl, rfl, rfl, rfl⟩)
    | (obtain ⟨a, b, d, rfl, rfl⟩ := formBuild_p3 h; exact ⟨rfl, rfl, rfl, rfl⟩)

/-- An instruction's own operation builds it. -/
theorem instr_builds (i : Instr) : formRoles i.op.form = i.roles ∧ formBuild i.size i.op.form i.params = some i := by
  cases i <;> exact ⟨rfl, rfl⟩

/-! ## Forms through the decoder -/

/-- Parameters that may stand in a form's positions, shown by the reader, decode to what the form builds of them. -/
theorem decForm_shows {e : Encoding} (he : e.ok = true) {rd : FetchReader} {h : Nat} {z : Size} {f : OpForm} {ps : List Param} {i : Instr}
    (hz : headerSize e h = z) (h1 : headerType1 h = typeField e ps 0) (h2 : headerType2 h = typeField e ps 1)
    (h3 : headerType3 h = typeField e ps 2) (hb : formBuild z f ps = some i)
    (ha : paramsAllowed z (formRoles f) ps = true) {c : Cursor} (hs : ReaderShows rd c.pos (encodeParams e z ps)) :
    ∃ log, decForm e rd h f c = (.ok i, ⟨c.pos + paramsLength e z ps, log⟩) := by
  subst hz
  cases f with
  | p0 mk =>
    obtain ⟨rfl, rfl⟩ := formBuild_p0 hb
    exact ⟨c.log, rfl⟩
  | p1 ra mk =>
    obtain ⟨a, rfl, rfl⟩ := formBuild_p1 hb
    simp only [paramsAllowed, formRoles, Bool.and_true] at ha
    simp only [encodeParams, List.append_nil] at hs
    obtain ⟨l1, e1⟩ := decParam_shows he ha hs
    refine ⟨l1, ?_⟩
    rw [decForm, h1, typeField, decThen_ok e1]
    rfl
  | p2 ra rb mk =>
    obtain ⟨a, b, rfl, rfl⟩ := formBuild_p2 hb
    simp only [paramsAllowed, formRoles, Bool.and_true, Bool.and_eq_true] at ha
    simp only [encodeParams, List.append_nil] at hs
    obtain ⟨l1, e1⟩ := decParam_shows he ha.1 hs.left
    have hs2 := hs.right
    rw [encodeParam_length he] at hs2
    obtain ⟨l2, e2⟩ := decParam_shows he (c := ⟨_, l1⟩) ha.2 hs2
    refine ⟨l2, ?_⟩
    rw [decForm, h1, h2]
    simp only [typeField]
    rw [decThen_ok e1, decThen_ok e2, decPure]
    simp only [paramsLength, Nat.add_assoc, Nat.add_zero]
  | p3 ra rb rc mk =>
    obtain ⟨a, b, d, rfl, rfl⟩ := formBuild_p3 hb
    simp only [paramsAllowed, formRoles, Bool.and_true, Bool.and_eq_true] at ha
    simp only [encodeParams, List.append_nil] at hs
    obtain ⟨l1, e1⟩ := decParam_shows he ha.1 hs.left
    have hs3 := hs.right.right
    have hs2 := hs.right.left
    simp only [encodeParam_length he] at hs2 hs3
    obtain ⟨l2, e2⟩ := decParam_shows he (c := ⟨_, l1⟩) ha.2.1 hs2
    obtain ⟨l3, e3⟩ := decParam_shows he (c := ⟨_, l2⟩) ha.2.2 hs3
    refine ⟨l3, ?_⟩
    rw [decForm, h1, h2, h3]
    simp only [typeField]
    rw [decThen_ok e1, decThen_ok e2, decThen_ok e3, decPure]
    simp only [paramsLength, Nat.add_assoc, Nat.add_zero]

/-- What a form answers is built of parameters that may stand in its positions, with their fetches made. -/
theorem decForm_decodes {e : Encoding} {rd : FetchReader} (hb : ReaderBounded rd) (h : Nat) (f : OpForm) {c c' : Cursor}
    {i : Instr} (hd : decForm e rd h f c = (.ok i, c')) :
    ∃ ps, formBuild (headerSize e h) f ps = some i ∧ paramsAllowed (headerSize e h) (formRoles f) ps = true ∧
      (e.ok = true → c' = ⟨c.pos + (ps.flatMap (paramFetches e (headerSize e h))).sum,
        c.log ++ fetchesAt c.pos (ps.flatMap (paramFetches e (headerSize e h)))⟩) := by
  cases f with
  | p0 mk =>
    simp only [decForm, decPure, Prod.mk.injEq, Except.ok.injEq] at hd
    exact ⟨[], by rw [formBuild, hd.1], rfl, fun _ => by rw [← hd.2]; simp [fetchesAt]⟩
  | p1 r1 mk =>
    simp only [decForm, decThen_eq_ok, decPure, Prod.mk.injEq, Except.ok.injEq] at hd
    obtain ⟨a, c1, h1, rfl, rfl⟩ := hd
    have e1 := decParam_decodes e hb _ _ _ h1
    exact ⟨[a], rfl, by simp [paramsAllowed, formRoles, e1.1], fun ho => by simpa using e1.2 ho⟩
  | p2 r1 r2 mk =>
    simp only [decForm, decThen_eq_ok, decPure, Prod.mk.injEq, Except.ok.injEq] at hd
    obtain ⟨a, c1, h1, b, c2, h2, rfl, rfl⟩ := hd
    have e1 := decParam_decodes e hb _ _ _ h1
    have e2 := decParam_decodes e hb _ _ _ h2
    refine ⟨[a, b], rfl, by simp [paramsAllowed, formRoles, e1.1, e2.1], fun ho => ?_⟩
    rw [e2.2 ho, e1.2 ho]
    simp [fetchesAt_append, Nat.add_assoc]
  | p3 r1 r2 r3 mk =>
    simp only [decForm, decThen_eq_ok, decPure, Prod.mk.injEq, Except.ok.injEq] at hd
    obtain ⟨a, c1, h1, b, c2, h2, d, c3, h3, rfl, rfl⟩ := hd
    have e1 := decParam_decodes e hb _ _ _ h1
    have e2 := decParam_decodes e hb _ _ _ h2
    have e3 := decParam_decodes e hb _ _ _ h3
    refine ⟨[a, b, d], rfl, by simp [paramsAllowed, formRoles, e1.1, e2.1, e3.1], fun ho => ?_⟩
    rw [e3.2 ho, e2.2 ho, e1.2 ho]
    simp [fetchesAt_append, Nat.add_assoc]

/-- The fetches of parameters have their summed length. -/
theorem paramsFetches_sum {e : Encoding} (he : e.ok = true) (z : Size) (ps : List Param) :
    (ps.flatMap (paramFetches e z)).sum = paramsLength e z ps := by
  induction ps with
  | nil => rfl
  | cons p ps ih => rw [List.flatMap_cons, List.sum_append, ih, paramFetches_sum he, paramsLength]

end Sys2Proof.Laws

namespace Sys2Proof.Machine

/-- The instruction stream at RIP gives `n`-byte numbers for `n`-byte fetches. -/
theorem fetchReader_bounded (s : State) : ReaderBounded s.fetchReader := by
  intro off n
  unfold State.fetchReader State.memDevValue
  split
  · simpa using beNat_lt (memBytes s.mem (s.rip.toNat + off) n)
  · exact Nat.pos_of_ne_zero (by simp)

end Sys2Proof.Machine
end

