-- ==== Sys2Proof/Tests/Slice0.lean ====
section
/-!
SUPPORT. Tests.  Expected decodings and end states are those of spec/95_test_vectors.md, sections 2 and 3; the rest follows the
rule named.  The last section shows, for each statement of Obligations.lean, states and operands that meet its hypotheses.
-/

namespace Sys2Proof.Tests

open Sys2Proof.Machine Sys2Proof.Claims

/-! ## Helpers -/

/-- Bytes placed in Memory. -/
def poke (a : Nat) (bs : List Byte) (s : State) : State := s.setMem (memStore s.mem a bs)

/-- A register given a value. -/
def set (r : Reg) (v : Word) (s : State) : State := s.setReg r v

/-- The vectors' start state (95_test_vectors.md "Conventions"): reset, started, RIP at 0x100. -/
def bench (setup : List (State → State)) : State :=
  setup.foldl (fun s f => f s) ((State.reset.setRun true).setReg .rip 0x100)

/-- The start state with an instruction's bytes at RIP. -/
def loaded (bs : List Byte) (setup : List (State → State)) : State :=
  poke (bench setup).rip.toNat bs (bench setup)

/-- One step from the start state ends in a state that satisfies `want` and is good. -/
def runs (bs : List Byte) (setup : List (State → State)) (want : State → Bool) : Bool :=
  match step (loaded bs setup) with
  | .next t => want t && t.good
  | .fault _ => false
  | .refused _ => false

/-- The outcome is a next state. -/
def goesOn (o : Host.Outcome State Fault Refusal) : Bool :=
  match o with
  | .next _ => true
  | .fault _ => false
  | .refused _ => false

/-- An outcome that is a next state is one. -/
theorem exists_next {o : Host.Outcome State Fault Refusal} (h : goesOn o = true) : ∃ t, o = .next t := by
  cases o with
  | next t => exact ⟨t, rfl⟩
  | fault r => cases h
  | refused r => cases h

/-! ## Well-formed instructions (R106, R114, R132) -/

/-- A literal that does not fit the declared size. -/
theorem test_illformed_literal : (Instr.push .one (.lit 0x100)).wellFormed = false := by decide

/-- A literal address that does not fit the declared size. -/
theorem test_illformed_address : (Instr.push .two (.lita 0x10000)).wellFormed = false := by decide

/-- A literal base that does not fit. -/
theorem test_illformed_base : (Instr.push .one (.calcl ⟨.slit 0x100, none, none, none, .plus⟩)).wellFormed = false := by
  decide

/-- A literal index that does not fit. -/
theorem test_illformed_index :
    (Instr.push .one (.calca ⟨.sreg .rip, some (.slit 0x100), none, none, .plus⟩)).wellFormed = false := by decide

/-- A literal scale that does not fit. -/
theorem test_illformed_scale :
    (Instr.push .four (.calca ⟨.sreg .rip, none, some (.slit 0x100000000), none, .plus⟩)).wellFormed = false := by decide

/-- A literal offset that does not fit. -/
theorem test_illformed_offset :
    (Instr.push .one (.calcl ⟨.sreg .rip, none, none, some (.slit 0x100), .minus⟩)).wellFormed = false := by decide

/-- A literal destination. -/
theorem test_illformed_destination : (Instr.mov .one (.reg .rc) (.lit 5)).wellFormed = false := by decide

/-- A calculated literal destination. -/
theorem test_illformed_calculated_destination :
    (Instr.pop .eight (.calcl ⟨.sreg (.gpr 1), none, none, none, .plus⟩)).wellFormed = false := by decide

/-- A literal that is exchanged. -/
theorem test_illformed_exchange : (Instr.xchg .one (.lit 1) (.reg .rc)).wellFormed = false := by decide

/-- The greatest literal of a size is well formed, and one without the check's fault is. -/
theorem test_wellformed : (Instr.mov .one (.lit 0xFF) (.rega .rc)).wellFormed = true := by decide

/-! ## Decoding: one word of every constructor, as the spec writes it out -/

/-- Decoding with the spec's numbers. -/
def read (bs : List Byte) : Except DecodeFault Instr := decodeBytes standardEncoding bs

/-- The data movement family: `NOP`, `MOV.8 [R1 + R2*#8 - #0x10], R4`, `XCHG.2 R3, [R4]`, `PUSH.2 #0xbeef`, `POP.8 [RSP]`. -/
theorem test_decode_data_movement :
    read [0x00, 0x00, 0x00, 0x00, 0x00, 0x00, 0x00, 0x00] = .ok (.nop .one) ∧
    read [0x01, 0xA0, 0x60, 0x00, 0x00, 0x00, 0x00, 0x00, 0xF3, 0x01, 0x02, 0x00, 0x00, 0x00, 0x00, 0x00, 0x00,
      0x00, 0x08, 0x00, 0x00, 0x00, 0x00, 0x00, 0x00, 0x00, 0x10, 0x04]
      = .ok (.mov .eight
          (.calca ⟨.sreg (.gpr 1), some (.sreg (.gpr 2)), some (.slit 0x8), some (.slit 0x10), .minus⟩)
          (.reg (.gpr 4))) ∧
    read [0x02, 0x04, 0x20, 0x00, 0x00, 0x00, 0x00, 0x00, 0x03, 0x04]
      = .ok (.xchg .two (.reg (.gpr 3)) (.rega (.gpr 4))) ∧
    read [0x03, 0x40, 0x20, 0x00, 0x00, 0x00, 0x00, 0x00, 0xBE, 0xEF] = .ok (.push .two (.lit 0xBEEF)) ∧
    read [0x04, 0x20, 0x60, 0x00, 0x00, 0x00, 0x00, 0x00, 0xF1] = .ok (.pop .eight (.rega .rsp)) := by decide +kernel

/-- The control family: `JMP.8 (RIP - #0x20)`, `JZ.1 [R1], #0x40`, `JNZ.8 R1, #0x22`. -/
theorem test_decode_control :
    read [0x10, 0xC0, 0x60, 0x00, 0x00, 0x00, 0x00, 0x00, 0x91, 0xF0, 0x00, 0x00, 0x00, 0x00, 0x00, 0x00, 0x00,
      0x20]
      = .ok (.jmp .eight (.calcl ⟨.sreg .rip, none, none, some (.slit 0x20), .minus⟩)) ∧
    read [0x11, 0x28, 0x00, 0x00, 0x00, 0x00, 0x00, 0x00, 0x01, 0x40]
      = .ok (.jz .one (.rega (.gpr 1)) (.lit 0x40)) ∧
    read [0x12, 0x08, 0x60, 0x00, 0x00, 0x00, 0x00, 0x00, 0x01, 0x00, 0x00, 0x00, 0x00, 0x00, 0x00, 0x00, 0x22]
      = .ok (.jnz .eight (.reg (.gpr 1)) (.lit 0x22)) := by decide +kernel

/-- The interrupt family: `INT.2 #0x12c`, `EINT`, `INTE`, `INTD`, `HLT`. -/
theorem test_decode_interrupt :
    read [0x20, 0x40, 0x20, 0x00, 0x00, 0x00, 0x00, 0x00, 0x01, 0x2C] = .ok (.int .two (.lit 0x12C)) ∧
    read [0x21, 0x00, 0x00, 0x00, 0x00, 0x00, 0x00, 0x00] = .ok (.eint .one) ∧
    read [0x22, 0x00, 0x00, 0x00, 0x00, 0x00, 0x00, 0x00] = .ok (.inte .one) ∧
    read [0x23, 0x00, 0x00, 0x00, 0x00, 0x00, 0x00, 0x00] = .ok (.intd .one) ∧
    read [0x24, 0x00, 0x00, 0x00, 0x00, 0x00, 0x00, 0x00] = .ok (.hlt .one) := by decide +kernel

/-- The integer family: `ADD.8 [#1 + #2*#3 + #4], [#5 + #6*#7 + #8], [#9 + #0xa*#0xb + #0xc]`, `SUB.2 #0xa, #3, R2`,
`ADC.1 #0xff, #5, R2`, `SBB.1 #1, #5, R2`, `MUL.2 #0x100, #0xff, R2`, `DIV.8 #0, STK, STK`, `MOD.8 #3, #0xa, R2`, `INC.2
[R1], [R1]`, `DEC.1 #0, R1`, `NEG.2 #0x8001, R2`. -/
theorem test_decode_integer :
    read [0x30, 0xB6, 0xE0, 0x00, 0x00, 0x00, 0x00, 0x00, 0x7F, 0x00, 0x00, 0x00, 0x00, 0x00, 0x00, 0x00, 0x01,
      0x00, 0x00, 0x00, 0x00, 0x00, 0x00, 0x00, 0x02, 0x00, 0x00, 0x00, 0x00, 0x00, 0x00, 0x00, 0x03, 0x00, 0x00,
      0x00, 0x00, 0x00, 0x00, 0x00, 0x04, 0x7F, 0x00, 0x00, 0x00, 0x00, 0x00, 0x00, 0x00, 0x05, 0x00, 0x00, 0x00,
      0x00, 0x00, 0x00, 0x00, 0x06, 0x00, 0x00, 0x00, 0x00, 0x00, 0x00, 0x00, 0x07, 0x00, 0x00, 0x00, 0x00, 0x00,
      0x00, 0x00, 0x08, 0x7F, 0x00, 0x00, 0x00, 0x00, 0x00, 0x00, 0x00, 0x09, 0x00, 0x00, 0x00, 0x00, 0x00, 0x00,
      0x00, 0x0A, 0x00, 0x00, 0x00, 0x00, 0x00, 0x00, 0x00, 0x0B, 0x00, 0x00, 0x00, 0x00, 0x00, 0x00, 0x00, 0x0C]
      = .ok (.add .eight (.calca ⟨.slit 0x1, some (.slit 0x2), some (.slit 0x3), some (.slit 0x4), .plus⟩)
          (.calca ⟨.slit 0x5, some (.slit 0x6), some (.slit 0x7), some (.slit 0x8), .plus⟩)
          (.calca ⟨.slit 0x9, some (.slit 0xA), some (.slit 0xB), some (.slit 0xC), .plus⟩)) ∧
    read [0x31, 0x48, 0x20, 0x00, 0x00, 0x00, 0x00, 0x00, 0x00, 0x0A, 0x00, 0x03, 0x02]
      = .ok (.sub .two (.lit 0xA) (.lit 0x3) (.reg (.gpr 2))) ∧
    read [0x32, 0x48, 0x00, 0x00, 0x00, 0x00, 0x00, 0x00, 0xFF, 0x05, 0x02]
      = .ok (.adc .one (.lit 0xFF) (.lit 0x5) (.reg (.gpr 2))) ∧
    read [0x33, 0x48, 0x00, 0x00, 0x00, 0x00, 0x00, 0x00, 0x01, 0x05, 0x02]
      = .ok (.sbb .one (.lit 0x1) (.lit 0x5) (.reg (.gpr 2))) ∧
    read [0x34, 0x48, 0x20, 0x00, 0x00, 0x00, 0x00, 0x00, 0x01, 0x00, 0x00, 0xFF, 0x02]
      = .ok (.mul .two (.lit 0x100) (.lit 0xFF) (.reg (.gpr 2))) ∧
    read [0x35, 0x52, 0x60, 0x00, 0x00, 0x00, 0x00, 0x00, 0x00, 0x00, 0x00, 0x00, 0x00, 0x00, 0x00, 0x00]
      = .ok (.div .eight (.lit 0x0) .stk .stk) ∧
    read [0x36, 0x48, 0x60, 0x00, 0x00, 0x00, 0x00, 0x00, 0x00, 0x00, 0x00, 0x00, 0x00, 0x00, 0x00, 0x03, 0x00,
      0x00, 0x00, 0x00, 0x00, 0x00, 0x00, 0x0A, 0x02]
      = .ok (.mod .eight (.lit 0x3) (.lit 0xA) (.reg (.gpr 2))) ∧
    read [0x37, 0x24, 0x20, 0x00, 0x00, 0x00, 0x00, 0x00, 0x01, 0x01]
      = .ok (.inc .two (.rega (.gpr 1)) (.rega (.gpr 1))) ∧
    read [0x38, 0x40, 0x00, 0x00, 0x00, 0x00, 0x00, 0x00, 0x00, 0x01]
      = .ok (.dec .one (.lit 0x0) (.reg (.gpr 1))) ∧
    read [0x39, 0x40, 0x20, 0x00, 0x00, 0x00, 0x00, 0x00, 0x80, 0x01, 0x02]
      = .ok (.neg .two (.lit 0x8001) (.reg (.gpr 2))) := by decide +kernel

/-- The floating family: `ADF.1 R0, R1, R2`, `SBF.8 #0x3ff0000000000000, #0x4008000000000000, R2`, `MLF.8
#0x4000000000000000, #0xc008000000000000, R2`, `DVF.8 #0x4010000000000000, #0x3ff0000000000000, R2`, `MDF.8
#0x4000000000000000, #0x401e000000000000, R2`. -/
theorem test_decode_floating :
    read [0x40, 0x00, 0x00, 0x00, 0x00, 0x00, 0x00, 0x00, 0x00, 0x01, 0x02]
      = .ok (.adf .one (.reg (.gpr 0)) (.reg (.gpr 1)) (.reg (.gpr 2))) ∧
    read [0x41, 0x48, 0x60, 0x00, 0x00, 0x00, 0x00, 0x00, 0x3F, 0xF0, 0x00, 0x00, 0x00, 0x00, 0x00, 0x00, 0x40,
      0x08, 0x00, 0x00, 0x00, 0x00, 0x00, 0x00, 0x02]
      = .ok (.sbf .eight (.lit 0x3FF0000000000000) (.lit 0x4008000000000000) (.reg (.gpr 2))) ∧
    read [0x42, 0x48, 0x60, 0x00, 0x00, 0x00, 0x00, 0x00, 0x40, 0x00, 0x00, 0x00, 0x00, 0x00, 0x00, 0x00, 0xC0,
      0x08, 0x00, 0x00, 0x00, 0x00, 0x00, 0x00, 0x02]
      = .ok (.mlf .eight (.lit 0x4000000000000000) (.lit 0xC008000000000000) (.reg (.gpr 2))) ∧
    read [0x43, 0x48, 0x60, 0x00, 0x00, 0x00, 0x00, 0x00, 0x40, 0x10, 0x00, 0x00, 0x00, 0x00, 0x00, 0x00, 0x3F,
      0xF0, 0x00, 0x00, 0x00, 0x00, 0x00, 0x00, 0x02]
      = .ok (.dvf .eight (.lit 0x4010000000000000) (.lit 0x3FF0000000000000) (.reg (.gpr 2))) ∧
    read [0x44, 0x48, 0x60, 0x00, 0x00, 0x00, 0x00, 0x00, 0x40, 0x00, 0x00, 0x00, 0x00, 0x00, 0x00, 0x00, 0x40,
      0x1E, 0x00, 0x00, 0x00, 0x00, 0x00, 0x00, 0x02]
      = .ok (.mdf .eight (.lit 0x4000000000000000) (.lit 0x401E000000000000) (.reg (.gpr 2))) := by decide +kernel

/-- The bitwise family: `AND.2 [#0x40], #0xff0, R2`, `OR.1 R0, #0xf, [R3]`, `XOR.1 R0, R1, R2`, `NAND.1 #0xf, #0xff,
R2`, `NOR.1 R0, R1, R2`, `NXOR.1 R0, R1, R2`, `NOT.1 R0, [#0x40]`. -/
theorem test_decode_bitwise :
    read [0x50, 0x68, 0x20, 0x00, 0x00, 0x00, 0x00, 0x00, 0x00, 0x40, 0x0F, 0xF0, 0x02]
      = .ok (.and .two (.lita 0x40) (.lit 0xFF0) (.reg (.gpr 2))) ∧
    read [0x51, 0x08, 0x80, 0x00, 0x00, 0x00, 0x00, 0x00, 0x00, 0x0F, 0x03]
      = .ok (.or .one (.reg (.gpr 0)) (.lit 0xF) (.rega (.gpr 3))) ∧
    read [0x52, 0x00, 0x00, 0x00, 0x00, 0x00, 0x00, 0x00, 0x00, 0x01, 0x02]
      = .ok (.xor .one (.reg (.gpr 0)) (.reg (.gpr 1)) (.reg (.gpr 2))) ∧
    read [0x53, 0x48, 0x00, 0x00, 0x00, 0x00, 0x00, 0x00, 0x0F, 0xFF, 0x02]
      = .ok (.nand .one (.lit 0xF) (.lit 0xFF) (.reg (.gpr 2))) ∧
    read [0x54, 0x00, 0x00, 0x00, 0x00, 0x00, 0x00, 0x00, 0x00, 0x01, 0x02]
      = .ok (.nor .one (.reg (.gpr 0)) (.reg (.gpr 1)) (.reg (.gpr 2))) ∧
    read [0x55, 0x00, 0x00, 0x00, 0x00, 0x00, 0x00, 0x00, 0x00, 0x01, 0x02]
      = .ok (.nxor .one (.reg (.gpr 0)) (.reg (.gpr 1)) (.reg (.gpr 2))) ∧
    read [0x56, 0x0C, 0x00, 0x00, 0x00, 0x00, 0x00, 0x00, 0x00, 0x40]
      = .ok (.not .one (.reg (.gpr 0)) (.lita 0x40)) := by decide +kernel

/-- The shift family: `SR.4 #0x1f, R1, R2`, `SL.4 #4, R1, R1`, `RR.1 #3, R1, R2`, `RL.2 #0x11, #0x8001, R2`. -/
theorem test_decode_shift :
    read [0x58, 0x40, 0x40, 0x00, 0x00, 0x00, 0x00, 0x00, 0x00, 0x00, 0x00, 0x1F, 0x01, 0x02]
      = .ok (.sr .four (.lit 0x1F) (.reg (.gpr 1)) (.reg (.gpr 2))) ∧
    read [0x59, 0x40, 0x40, 0x00, 0x00, 0x00, 0x00, 0x00, 0x00, 0x00, 0x00, 0x04, 0x01, 0x01]
      = .ok (.sl .four (.lit 0x4) (.reg (.gpr 1)) (.reg (.gpr 1))) ∧
    read [0x5A, 0x40, 0x00, 0x00, 0x00, 0x00, 0x00, 0x00, 0x03, 0x01, 0x02]
      = .ok (.rr .one (.lit 0x3) (.reg (.gpr 1)) (.reg (.gpr 2))) ∧
    read [0x5B, 0x48, 0x20, 0x00, 0x00, 0x00, 0x00, 0x00, 0x00, 0x11, 0x80, 0x01, 0x02]
      = .ok (.rl .two (.lit 0x11) (.lit 0x8001) (.reg (.gpr 2))) := by decide +kernel

/-- The comparison family: `GT.8 #3, R1, RC`, `GTE.8 #3, #5, R2`, `LT.8 #3, #5, RC`, `LTE.8 #3, #5, R2`, `EQ.1 R0,
[#0x40], [R3]`, `NEQ.2 #0xffff, [R1], [R1]`. -/
theorem test_decode_comparison :
    read [0x60, 0x40, 0x60, 0x00, 0x00, 0x00, 0x00, 0x00, 0x00, 0x00, 0x00, 0x00, 0x00, 0x00, 0x00, 0x03, 0x01,
      0xF3]
      = .ok (.gt .eight (.lit 0x3) (.reg (.gpr 1)) (.reg .rc)) ∧
    read [0x61, 0x48, 0x60, 0x00, 0x00, 0x00, 0x00, 0x00, 0x00, 0x00, 0x00, 0x00, 0x00, 0x00, 0x00, 0x03, 0x00,
      0x00, 0x00, 0x00, 0x00, 0x00, 0x00, 0x05, 0x02]
      = .ok (.gte .eight (.lit 0x3) (.lit 0x5) (.reg (.gpr 2))) ∧
    read [0x62, 0x48, 0x60, 0x00, 0x00, 0x00, 0x00, 0x00, 0x00, 0x00, 0x00, 0x00, 0x00, 0x00, 0x00, 0x03, 0x00,
      0x00, 0x00, 0x00, 0x00, 0x00, 0x00, 0x05, 0xF3]
      = .ok (.lt .eight (.lit 0x3) (.lit 0x5) (.reg .rc)) ∧
    read [0x63, 0x48, 0x60, 0x00, 0x00, 0x00, 0x00, 0x00, 0x00, 0x00, 0x00, 0x00, 0x00, 0x00, 0x00, 0x03, 0x00,
      0x00, 0x00, 0x00, 0x00, 0x00, 0x00, 0x05, 0x02]
      = .ok (.lte .eight (.lit 0x3) (.lit 0x5) (.reg (.gpr 2))) ∧
    read [0x64, 0x0C, 0x80, 0x00, 0x00, 0x00, 0x00, 0x00, 0x00, 0x40, 0x03]
      = .ok (.eq .one (.reg (.gpr 0)) (.lita 0x40) (.rega (.gpr 3))) ∧
    read [0x65, 0x44, 0xA0, 0x00, 0x00, 0x00, 0x00, 0x00, 0xFF, 0xFF, 0x01, 0x01]
      = .ok (.neq .two (.lit 0xFFFF) (.rega (.gpr 1)) (.rega (.gpr 1))) := by decide +kernel

/-- The debug family: `DBG.2 [R1]`, `PAU`. -/
theorem test_decode_debug :
    read [0x70, 0x20, 0x20, 0x00, 0x00, 0x00, 0x00, 0x00, 0x01] = .ok (.dbg .two (.rega (.gpr 1))) ∧
    read [0x71, 0x00, 0x00, 0x00, 0x00, 0x00, 0x00, 0x00] = .ok (.pau .one) := by decide +kernel

/-! ## Vectors: one step each -/

/-- MOV.4 R0, [R1] -/
theorem test_mov : runs [0x01, 0x04, 0x40, 0x00, 0x00, 0x00, 0x00, 0x00, 0x00, 0x01]
    [set (.gpr 0) 0x1122334455667788, set (.gpr 1) 0x400]
    (fun t => t.getReg .rip == 0x10A && memBytes t.mem 0x400 4 == [0x55, 0x66, 0x77, 0x88] &&
      t.getReg (.gpr 0) == 0x1122334455667788 && t.getReg (.gpr 1) == 0x400) = true := by decide

/-- MOV.8 [R1 + R2*#8 - #0x10], R4 -/
theorem test_mov_2 : runs [0x01, 0xA0, 0x60, 0x00, 0x00, 0x00, 0x00, 0x00, 0xF3, 0x01, 0x02, 0x00, 0x00, 0x00, 0x00,
    0x00, 0x00, 0x00, 0x08, 0x00, 0x00, 0x00, 0x00, 0x00, 0x00, 0x00, 0x10, 0x04]
    [set (.gpr 1) 0x400, set (.gpr 2) 0x3, poke 0x408 [0x00,0x00,0x00,0x00,0xDE,0xAD,0xBE,0xEF]]
    (fun t => t.getReg (.gpr 4) == 0xDEADBEEF && t.getReg .rip == 0x11C && t.getReg (.gpr 1) == 0x400 &&
      t.getReg (.gpr 2) == 0x3) = true := by decide

/-- XCHG.2 R3, [R4] -/
theorem test_xchg : runs [0x02, 0x04, 0x20, 0x00, 0x00, 0x00, 0x00, 0x00, 0x03, 0x04]
    [set (.gpr 3) 0x1122334455667788, set (.gpr 4) 0x400, poke 0x400 [0xAA,0xBB]]
    (fun t => t.getReg (.gpr 3) == 0xAABB && t.getReg .rip == 0x10A && memBytes t.mem 0x400 2 == [0x77, 0x88] &&
      t.getReg (.gpr 4) == 0x400) = true := by decide

/-- XCHG.8 STK, R0 -/
theorem test_xchg_2 : runs [0x02, 0x80, 0x60, 0x00, 0x00, 0x00, 0x00, 0x00, 0x00]
    [set (.gpr 0) 0x5, set .rsp 0x800, poke 0x800 [0x00,0x00,0x00,0x00,0x00,0x00,0x00,0x09]]
    (fun t => t.getReg (.gpr 0) == 0x9 && t.getReg .rip == 0x109 && memBytes t.mem 0x807 1 == [0x05] &&
      t.getReg .rsp == 0x800) = true := by decide

/-- PUSH.2 #0xbeef -/
theorem test_push : runs [0x03, 0x40, 0x20, 0x00, 0x00, 0x00, 0x00, 0x00, 0xBE, 0xEF]
    [set .rsp 0x800]
    (fun t => t.getReg .rsp == 0x7FE && t.getReg .rip == 0x10A && memBytes t.mem 0x7FE 2 == [0xBE, 0xEF])
    = true := by decide

/-- PUSH.8 RSP -/
theorem test_push_2 : runs [0x03, 0x00, 0x60, 0x00, 0x00, 0x00, 0x00, 0x00, 0xF1]
    [set .rsp 0x800]
    (fun t => t.getReg .rsp == 0x7F8 && t.getReg .rip == 0x109 && memBytes t.mem 0x7FE 1 == [0x08]) = true := by decide

/-- POP.8 [RSP] -/
theorem test_pop : runs [0x04, 0x20, 0x60, 0x00, 0x00, 0x00, 0x00, 0x00, 0xF1]
    [set .rsp 0x800, poke 0x800 [0x00,0x00,0x00,0x00,0x00,0x00,0x00,0x77],
    poke 0x808 [0x00,0x00,0x00,0x00,0x00,0x00,0x00,0x55]]
    (fun t => t.getReg .rsp == 0x808 && t.getReg .rip == 0x109) = true := by decide

/-- POP.8 RSP -/
theorem test_pop_2 : runs [0x04, 0x00, 0x60, 0x00, 0x00, 0x00, 0x00, 0x00, 0xF1]
    [set .rsp 0x800, poke 0x800 [0x00,0x00,0x00,0x00,0x00,0x00,0x09,0x00]]
    (fun t => t.getReg .rsp == 0x900 && t.getReg .rip == 0x109) = true := by decide

/-- JMP.8 [R1] -/
theorem test_jmp : runs [0x10, 0x20, 0x60, 0x00, 0x00, 0x00, 0x00, 0x00, 0x01]
    [set (.gpr 1) 0x400, poke 0x400 [0x00,0x00,0x00,0x00,0x00,0x00,0x03,0x00]]
    (fun t => t.getReg .rip == 0x300 && t.getReg (.gpr 1) == 0x400) = true := by decide

/-- JMP.8 (RIP - #0x20) -/
theorem test_jmp_2 : runs [0x10, 0xC0, 0x60, 0x00, 0x00, 0x00, 0x00, 0x00, 0x91, 0xF0, 0x00, 0x00, 0x00, 0x00, 0x00,
    0x00, 0x00, 0x20]
    []
    (fun t => t.getReg .rip == 0xE0) = true := by decide

/-- JZ.1 R0, #0x40 -/
theorem test_jz : runs [0x11, 0x08, 0x00, 0x00, 0x00, 0x00, 0x00, 0x00, 0x00, 0x40]
    [set (.gpr 0) 0x100]
    (fun t => t.getReg .rip == 0x10A && t.getReg (.gpr 0) == 0x100) = true := by decide

/-- JZ.8 STK, STK -/
theorem test_jz_2 : runs [0x11, 0x90, 0x60, 0x00, 0x00, 0x00, 0x00, 0x00]
    [set .rsp 0x800, poke 0x800 [0x00,0x00,0x00,0x00,0x00,0x00,0x00,0x01,0x00,0x00,0x00,0x00,0x00,0x00,0x09,0x00]]
    (fun t => t.getReg .rsp == 0x810 && t.getReg .rip == 0x108) = true := by decide

/-- JNZ.8 R1, #0x22 -/
theorem test_jnz : runs [0x12, 0x08, 0x60, 0x00, 0x00, 0x00, 0x00, 0x00, 0x01, 0x00, 0x00, 0x00, 0x00, 0x00, 0x00,
    0x00, 0x22]
    [set .rip 0x37, set (.gpr 1) 0x4]
    (fun t => t.getReg .rip == 0x22 && t.getReg (.gpr 1) == 0x4) = true := by decide

/-- JNZ.8 R1, #0x22 -/
theorem test_jnz_2 : runs [0x12, 0x08, 0x60, 0x00, 0x00, 0x00, 0x00, 0x00, 0x01, 0x00, 0x00, 0x00, 0x00, 0x00, 0x00,
    0x00, 0x22]
    [set .rip 0x37, set (.gpr 1) 0x0]
    (fun t => t.getReg .rip == 0x48 && t.getReg (.gpr 1) == 0x0) = true := by decide

/-- INT.1 #5 -/
theorem test_int : runs [0x20, 0x40, 0x00, 0x00, 0x00, 0x00, 0x00, 0x00, 0x05]
    [(·.setIe true), (·.setQueue [7]), (·.setVec 5 2304), (·.setVec 7 1792)]
    (fun t => t.getReg .rsip == 0x109 && t.getReg .rip == 0x700 && t.isr == true && t.queue == [5]) = true := by decide

/-- INT.2 #0x12c -/
theorem test_int_2 : runs [0x20, 0x40, 0x20, 0x00, 0x00, 0x00, 0x00, 0x00, 0x01, 0x2C]
    []
    (fun t => t.getReg .rip == 0x10A && t.queue == [0]) = true := by decide

/-- EINT -/
theorem test_eint : runs [0x21, 0x00, 0x00, 0x00, 0x00, 0x00, 0x00, 0x00]
    [set .rsip 0x333, (fun s => s.setService s.isr true), (·.setIe true), (·.setQueue [9]), (·.setVec 9 768)]
    (fun t => t.getReg .rip == 0x300 && t.isr == true && t.pisr == false && t.queue == [] && t.getReg .rsip == 0x333)
    = true := by decide

/-- INTE -/
theorem test_inte : runs [0x22, 0x00, 0x00, 0x00, 0x00, 0x00, 0x00, 0x00]
    [(·.setQueue [4]), (·.setVec 4 1088)]
    (fun t => t.getReg .rsip == 0x108 && t.getReg .rip == 0x440 && t.ie == true && t.isr == true && t.queue == [])
    = true := by decide

/-- INTD -/
theorem test_intd : runs [0x23, 0x00, 0x00, 0x00, 0x00, 0x00, 0x00, 0x00]
    [(·.setIe true), (·.setQueue [4]), (·.setVec 4 1088)]
    (fun t => t.getReg .rip == 0x108 && t.ie == false) = true := by decide

/-- HLT -/
theorem test_hlt : runs [0x24, 0x00, 0x00, 0x00, 0x00, 0x00, 0x00, 0x00]
    [(·.setIe true), (·.setQueue [4]), (·.setVec 4 1088)]
    (fun t => t.getReg .rsip == 0x100 && t.getReg .rip == 0x440 && t.isr == true && t.queue == []) = true := by decide

/-- ADD.1 #0xff, #1, R2 -/
theorem test_add : runs [0x30, 0x48, 0x00, 0x00, 0x00, 0x00, 0x00, 0x00, 0xFF, 0x01, 0x02]
    [set (.gpr 2) 0x55]
    (fun t => t.getReg (.gpr 2) == 0x0 && t.getReg .rc == 0xFFFFFFFFFFFFFFFF && t.getReg .rip == 0x10B)
    = true := by decide

/-- ADD.8 #0xffffffffffffffff, #3, RC -/
theorem test_add_2 : runs [0x30, 0x48, 0x60, 0x00, 0x00, 0x00, 0x00, 0x00, 0xFF, 0xFF, 0xFF, 0xFF, 0xFF, 0xFF, 0xFF,
    0xFF, 0x00, 0x00, 0x00, 0x00, 0x00, 0x00, 0x00, 0x03, 0xF3]
    []
    (fun t => t.getReg .rc == 0x2 && t.getReg .rip == 0x119) = true := by decide

/-- SUB.1 #1, #0, R2 -/
theorem test_sub : runs [0x31, 0x48, 0x00, 0x00, 0x00, 0x00, 0x00, 0x00, 0x01, 0x00, 0x02]
    []
    (fun t => t.getReg (.gpr 2) == 0xFF && t.getReg .rc == 0xFFFFFFFFFFFFFFFF && t.getReg .rip == 0x10B)
    = true := by decide

/-- SUB.2 #0xa, #3, R2 -/
theorem test_sub_2 : runs [0x31, 0x48, 0x20, 0x00, 0x00, 0x00, 0x00, 0x00, 0x00, 0x0A, 0x00, 0x03, 0x02]
    []
    (fun t => t.getReg (.gpr 2) == 0xFFF9 && t.getReg .rc == 0xFFFFFFFFFFFFFFFF && t.getReg .rip == 0x10D)
    = true := by decide

/-- ADC.1 #0xff, #5, R2 -/
theorem test_adc : runs [0x32, 0x48, 0x00, 0x00, 0x00, 0x00, 0x00, 0x00, 0xFF, 0x05, 0x02]
    [set .rc 0xFFFFFFFFFFFFFFFF]
    (fun t => t.getReg (.gpr 2) == 0xFF && t.getReg .rip == 0x10B && t.getReg .rc == 0xFFFFFFFFFFFFFFFF)
    = true := by decide

/-- ADC.1 #0xfe, #1, R2 -/
theorem test_adc_2 : runs [0x32, 0x48, 0x00, 0x00, 0x00, 0x00, 0x00, 0x00, 0xFE, 0x01, 0x02]
    [set .rc 0xFFFFFFFFFFFFFFFF]
    (fun t => t.getReg .rip == 0x10B && t.getReg .rc == 0xFFFFFFFFFFFFFFFF) = true := by decide

/-- SBB.1 #1, #5, R2 -/
theorem test_sbb : runs [0x33, 0x48, 0x00, 0x00, 0x00, 0x00, 0x00, 0x00, 0x01, 0x05, 0x02]
    [set .rc 0xFFFFFFFFFFFFFFFF]
    (fun t => t.getReg (.gpr 2) == 0x3 && t.getReg .rip == 0x10B && t.getReg .rc == 0xFFFFFFFFFFFFFFFF)
    = true := by decide

/-- SBB.1 #5, #5, R2 -/
theorem test_sbb_2 : runs [0x33, 0x48, 0x00, 0x00, 0x00, 0x00, 0x00, 0x00, 0x05, 0x05, 0x02]
    [set .rc 0xFFFFFFFFFFFFFFFF]
    (fun t => t.getReg (.gpr 2) == 0xFF && t.getReg .rip == 0x10B && t.getReg .rc == 0xFFFFFFFFFFFFFFFF)
    = true := by decide

/-- MUL.2 #0x100, #0xff, R2 -/
theorem test_mul : runs [0x34, 0x48, 0x20, 0x00, 0x00, 0x00, 0x00, 0x00, 0x01, 0x00, 0x00, 0xFF, 0x02]
    []
    (fun t => t.getReg (.gpr 2) == 0xFF00 && t.getReg .rip == 0x10D) = true := by decide

/-- MUL.8 #0xffffffffffffffff, #0xffffffffffffffff, R2 -/
theorem test_mul_2 : runs [0x34, 0x48, 0x60, 0x00, 0x00, 0x00, 0x00, 0x00, 0xFF, 0xFF, 0xFF, 0xFF, 0xFF, 0xFF, 0xFF,
    0xFF, 0xFF, 0xFF, 0xFF, 0xFF, 0xFF, 0xFF, 0xFF, 0xFF, 0x02]
    []
    (fun t => t.getReg (.gpr 2) == 0x1 && t.getReg .rc == 0xFFFFFFFFFFFFFFFF && t.getReg .rip == 0x119)
    = true := by decide

/-- DIV.1 #2, R1, R2 -/
theorem test_div : runs [0x35, 0x40, 0x00, 0x00, 0x00, 0x00, 0x00, 0x00, 0x02, 0x01, 0x02]
    [set (.gpr 1) 0x1234]
    (fun t => t.getReg (.gpr 2) == 0x1A && t.getReg .rip == 0x10B && t.getReg (.gpr 1) == 0x1234) = true := by decide

/-- DIV.8 R0, R1, R2 -/
theorem test_div_2 : runs [0x35, 0x00, 0x60, 0x00, 0x00, 0x00, 0x00, 0x00, 0x00, 0x01, 0x02]
    [set (.gpr 0) 0x0, set (.gpr 1) 0x7, set (.gpr 2) 0x1234]
    (fun t => t.getReg .rip == 0x10B && t.queue == [1] && t.getReg (.gpr 0) == 0x0 && t.getReg (.gpr 1) == 0x7 &&
      t.getReg (.gpr 2) == 0x1234) = true := by decide

/-- MOD.8 #3, #0xa, R2 -/
theorem test_mod : runs [0x36, 0x48, 0x60, 0x00, 0x00, 0x00, 0x00, 0x00, 0x00, 0x00, 0x00, 0x00, 0x00, 0x00, 0x00,
    0x03, 0x00, 0x00, 0x00, 0x00, 0x00, 0x00, 0x00, 0x0A, 0x02]
    []
    (fun t => t.getReg (.gpr 2) == 0x1 && t.getReg .rip == 0x119) = true := by decide

/-- MOD.8 #0, #0xa, R2 -/
theorem test_mod_2 : runs [0x36, 0x48, 0x60, 0x00, 0x00, 0x00, 0x00, 0x00, 0x00, 0x00, 0x00, 0x00, 0x00, 0x00, 0x00,
    0x00, 0x00, 0x00, 0x00, 0x00, 0x00, 0x00, 0x00, 0x0A, 0x02]
    [set (.gpr 2) 0x1234]
    (fun t => t.getReg .rip == 0x119 && t.queue == [1] && t.getReg (.gpr 2) == 0x1234) = true := by decide

/-- INC.1 #0xff, R2 -/
theorem test_inc : runs [0x37, 0x40, 0x00, 0x00, 0x00, 0x00, 0x00, 0x00, 0xFF, 0x02]
    [set (.gpr 2) 0x9]
    (fun t => t.getReg (.gpr 2) == 0x0 && t.getReg .rc == 0xFFFFFFFFFFFFFFFF && t.getReg .rip == 0x10A)
    = true := by decide

/-- INC.2 [R1], [R1] -/
theorem test_inc_2 : runs [0x37, 0x24, 0x20, 0x00, 0x00, 0x00, 0x00, 0x00, 0x01, 0x01]
    [set (.gpr 1) 0x400, poke 0x400 [0x00,0xFF]]
    (fun t => t.getReg .rip == 0x10A && memBytes t.mem 0x400 2 == [0x01, 0x00] && t.getReg (.gpr 1) == 0x400)
    = true := by decide

/-- DEC.8 R1, R1 -/
theorem test_dec : runs [0x38, 0x00, 0x60, 0x00, 0x00, 0x00, 0x00, 0x00, 0x01, 0x01]
    [set (.gpr 1) 0x0]
    (fun t => t.getReg (.gpr 1) == 0xFFFFFFFFFFFFFFFF && t.getReg .rc == 0xFFFFFFFFFFFFFFFF && t.getReg .rip == 0x10A)
    = true := by decide

/-- DEC.1 R1, R1 -/
theorem test_dec_2 : runs [0x38, 0x00, 0x00, 0x00, 0x00, 0x00, 0x00, 0x00, 0x01, 0x01]
    [set (.gpr 1) 0x100]
    (fun t => t.getReg (.gpr 1) == 0xFF && t.getReg .rip == 0x10A) = true := by decide

/-- NEG.2 #0x8001, R2 -/
theorem test_neg : runs [0x39, 0x40, 0x20, 0x00, 0x00, 0x00, 0x00, 0x00, 0x80, 0x01, 0x02]
    []
    (fun t => t.getReg (.gpr 2) == 0x1 && t.getReg .rip == 0x10B) = true := by decide

/-- NEG.1 R0, R2 -/
theorem test_neg_2 : runs [0x39, 0x00, 0x00, 0x00, 0x00, 0x00, 0x00, 0x00, 0x00, 0x02]
    [set (.gpr 0) 0x1234]
    (fun t => t.getReg (.gpr 2) == 0x12B4 && t.getReg .rip == 0x10A && t.getReg (.gpr 0) == 0x1234) = true := by decide

/-- ADF.8 #0x3fb999999999999a, #0x3fc999999999999a, R2 -/
theorem test_adf : runs [0x40, 0x48, 0x60, 0x00, 0x00, 0x00, 0x00, 0x00, 0x3F, 0xB9, 0x99, 0x99, 0x99, 0x99, 0x99,
    0x9A, 0x3F, 0xC9, 0x99, 0x99, 0x99, 0x99, 0x99, 0x9A, 0x02]
    []
    (fun t => t.getReg (.gpr 2) == 0x3FD3333333333334 && t.getReg .rip == 0x119) = true := by decide +kernel

/-- ADF.8 #0x7fe1ccf385ebc8a0, #0x7fe1ccf385ebc8a0, R2 -/
theorem test_adf_2 : runs [0x40, 0x48, 0x60, 0x00, 0x00, 0x00, 0x00, 0x00, 0x7F, 0xE1, 0xCC, 0xF3, 0x85, 0xEB, 0xC8,
    0xA0, 0x7F, 0xE1, 0xCC, 0xF3, 0x85, 0xEB, 0xC8, 0xA0, 0x02]
    []
    (fun t => t.getReg (.gpr 2) == 0x7FF0000000000000 && t.getReg .rip == 0x119) = true := by decide +kernel

/-- SBF.8 #0x3ff0000000000000, #0x4008000000000000, R2 -/
theorem test_sbf : runs [0x41, 0x48, 0x60, 0x00, 0x00, 0x00, 0x00, 0x00, 0x3F, 0xF0, 0x00, 0x00, 0x00, 0x00, 0x00,
    0x00, 0x40, 0x08, 0x00, 0x00, 0x00, 0x00, 0x00, 0x00, 0x02]
    []
    (fun t => t.getReg (.gpr 2) == 0x4000000000000000 && t.getReg .rip == 0x119) = true := by decide +kernel

/-- MLF.8 #0x4000000000000000, #0xc008000000000000, R2 -/
theorem test_mlf : runs [0x42, 0x48, 0x60, 0x00, 0x00, 0x00, 0x00, 0x00, 0x40, 0x00, 0x00, 0x00, 0x00, 0x00, 0x00,
    0x00, 0xC0, 0x08, 0x00, 0x00, 0x00, 0x00, 0x00, 0x00, 0x02]
    []
    (fun t => t.getReg (.gpr 2) == 0xC018000000000000 && t.getReg .rip == 0x119) = true := by decide +kernel

/-- DVF.8 #0x8000000000000000, #0x3ff0000000000000, R2 -/
theorem test_dvf : runs [0x43, 0x48, 0x60, 0x00, 0x00, 0x00, 0x00, 0x00, 0x80, 0x00, 0x00, 0x00, 0x00, 0x00, 0x00,
    0x00, 0x3F, 0xF0, 0x00, 0x00, 0x00, 0x00, 0x00, 0x00, 0x02]
    [set (.gpr 2) 0x1234]
    (fun t => t.getReg .rip == 0x119 && t.queue == [1] && t.getReg (.gpr 2) == 0x1234) = true := by decide +kernel

/-- DVF.8 #0x4008000000000000, #0x3ff0000000000000, R2 -/
theorem test_dvf_2 : runs [0x43, 0x48, 0x60, 0x00, 0x00, 0x00, 0x00, 0x00, 0x40, 0x08, 0x00, 0x00, 0x00, 0x00, 0x00,
    0x00, 0x3F, 0xF0, 0x00, 0x00, 0x00, 0x00, 0x00, 0x00, 0x02]
    []
    (fun t => t.getReg (.gpr 2) == 0x3FD5555555555555 && t.getReg .rip == 0x119) = true := by decide +kernel

/-- MDF.8 #0x4000000000000000, #0xc01e000000000000, R2 -/
theorem test_mdf : runs [0x44, 0x48, 0x60, 0x00, 0x00, 0x00, 0x00, 0x00, 0x40, 0x00, 0x00, 0x00, 0x00, 0x00, 0x00,
    0x00, 0xC0, 0x1E, 0x00, 0x00, 0x00, 0x00, 0x00, 0x00, 0x02]
    []
    (fun t => t.getReg (.gpr 2) == 0xBFF8000000000000 && t.getReg .rip == 0x119) = true := by decide +kernel

/-- MDF.8 #0x7ff0000000000000, #0x401e000000000000, R2 -/
theorem test_mdf_2 : runs [0x44, 0x48, 0x60, 0x00, 0x00, 0x00, 0x00, 0x00, 0x7F, 0xF0, 0x00, 0x00, 0x00, 0x00, 0x00,
    0x00, 0x40, 0x1E, 0x00, 0x00, 0x00, 0x00, 0x00, 0x00, 0x02]
    []
    (fun t => t.getReg (.gpr 2) == 0x401E000000000000 && t.getReg .rip == 0x119) = true := by decide +kernel

/-- AND.2 [#0x40], #0xff0, R2 -/
theorem test_and : runs [0x50, 0x68, 0x20, 0x00, 0x00, 0x00, 0x00, 0x00, 0x00, 0x40, 0x0F, 0xF0, 0x02]
    [poke 0x40 [0xAB,0xCD]]
    (fun t => t.getReg (.gpr 2) == 0xBC0 && t.getReg .rip == 0x10D) = true := by decide

/-- OR.1 R0, #0xf, [R3] -/
theorem test_or : runs [0x51, 0x08, 0x80, 0x00, 0x00, 0x00, 0x00, 0x00, 0x00, 0x0F, 0x03]
    [set (.gpr 0) 0x1230, set (.gpr 3) 0x400, poke 0x400 [0x55,0x55]]
    (fun t => t.getReg .rip == 0x10B && memBytes t.mem 0x400 1 == [0x3F] && t.getReg (.gpr 0) == 0x1230 &&
      t.getReg (.gpr 3) == 0x400) = true := by decide

/-- XOR.1 R0, R1, R2 -/
theorem test_xor : runs [0x52, 0x00, 0x00, 0x00, 0x00, 0x00, 0x00, 0x00, 0x00, 0x01, 0x02]
    [set (.gpr 0) 0xFF00FF00FF00FF00, set (.gpr 1) 0xFF00FF00FF00FF0]
    (fun t => t.getReg (.gpr 2) == 0xF0F0F0F0F0F0F0F0 && t.getReg .rip == 0x10B &&
      t.getReg (.gpr 0) == 0xFF00FF00FF00FF00 && t.getReg (.gpr 1) == 0xFF00FF00FF00FF0) = true := by decide

/-- NAND.1 #0xf, #0xff, R2 -/
theorem test_nand : runs [0x53, 0x48, 0x00, 0x00, 0x00, 0x00, 0x00, 0x00, 0x0F, 0xFF, 0x02]
    []
    (fun t => t.getReg (.gpr 2) == 0xFFFFFFFFFFFFFFF0 && t.getReg .rip == 0x10B) = true := by decide

/-- NOR.1 R0, R1, R2 -/
theorem test_nor : runs [0x54, 0x00, 0x00, 0x00, 0x00, 0x00, 0x00, 0x00, 0x00, 0x01, 0x02]
    [set (.gpr 0) 0xFF00FF00FF00FF00, set (.gpr 1) 0xFF00FF00FF00FF0]
    (fun t => t.getReg (.gpr 2) == 0xF000F000F000F && t.getReg .rip == 0x10B &&
      t.getReg (.gpr 0) == 0xFF00FF00FF00FF00 && t.getReg (.gpr 1) == 0xFF00FF00FF00FF0) = true := by decide

/-- NXOR.1 R0, R1, R2 -/
theorem test_nxor : runs [0x55, 0x00, 0x00, 0x00, 0x00, 0x00, 0x00, 0x00, 0x00, 0x01, 0x02]
    [set (.gpr 0) 0xFF00FF00FF00FF00, set (.gpr 1) 0xFF00FF00FF00FF0]
    (fun t => t.getReg (.gpr 2) == 0xF0F0F0F0F0F0F0F && t.getReg .rip == 0x10B &&
      t.getReg (.gpr 0) == 0xFF00FF00FF00FF00 && t.getReg (.gpr 1) == 0xFF00FF00FF00FF0) = true := by decide

/-- NOT.1 R0, [#0x40] -/
theorem test_not : runs [0x56, 0x0C, 0x00, 0x00, 0x00, 0x00, 0x00, 0x00, 0x00, 0x40]
    [set (.gpr 0) 0xF, poke 0x3f [0x11,0x22,0x33]]
    (fun t => t.getReg .rip == 0x10A && memBytes t.mem 0x40 1 == [0xF0] && t.getReg (.gpr 0) == 0xF) = true := by decide

/-- SR.4 #0x1f, R1, R2 -/
theorem test_sr : runs [0x58, 0x40, 0x40, 0x00, 0x00, 0x00, 0x00, 0x00, 0x00, 0x00, 0x00, 0x1F, 0x01, 0x02]
    [set (.gpr 1) 0x180000000]
    (fun t => t.getReg (.gpr 2) == 0x1 && t.getReg .rip == 0x10E && t.getReg (.gpr 1) == 0x180000000)
    = true := by decide

/-- SR.8 #0xff, #0xffffffffffffffff, R2 -/
theorem test_sr_2 : runs [0x58, 0x48, 0x60, 0x00, 0x00, 0x00, 0x00, 0x00, 0x00, 0x00, 0x00, 0x00, 0x00, 0x00, 0x00,
    0xFF, 0xFF, 0xFF, 0xFF, 0xFF, 0xFF, 0xFF, 0xFF, 0xFF, 0x02]
    [set (.gpr 2) 0x7]
    (fun t => t.getReg (.gpr 2) == 0x0 && t.getReg .rip == 0x119) = true := by decide

/-- SL.1 #4, R1, R1 -/
theorem test_sl : runs [0x59, 0x40, 0x00, 0x00, 0x00, 0x00, 0x00, 0x00, 0x04, 0x01, 0x01]
    [set (.gpr 1) 0x1234]
    (fun t => t.getReg (.gpr 1) == 0x40 && t.getReg .rip == 0x10B) = true := by decide

/-- SL.8 R0, R1, R2 -/
theorem test_sl_2 : runs [0x59, 0x00, 0x60, 0x00, 0x00, 0x00, 0x00, 0x00, 0x00, 0x01, 0x02]
    [set (.gpr 0) 0x100, set (.gpr 1) 0x1234]
    (fun t => t.getReg (.gpr 2) == 0x1234 && t.getReg .rip == 0x10B && t.getReg (.gpr 0) == 0x100 &&
      t.getReg (.gpr 1) == 0x1234) = true := by decide

/-- RR.1 #3, R1, R2 -/
theorem test_rr : runs [0x5A, 0x40, 0x00, 0x00, 0x00, 0x00, 0x00, 0x00, 0x03, 0x01, 0x02]
    [set (.gpr 1) 0x1234]
    (fun t => t.getReg (.gpr 2) == 0x86 && t.getReg .rip == 0x10B && t.getReg (.gpr 1) == 0x1234) = true := by decide

/-- RR.8 R0, R1, R2 -/
theorem test_rr_2 : runs [0x5A, 0x00, 0x60, 0x00, 0x00, 0x00, 0x00, 0x00, 0x00, 0x01, 0x02]
    [set (.gpr 0) 0x108, set (.gpr 1) 0x123456789ABCDEF0]
    (fun t => t.getReg (.gpr 2) == 0xF0123456789ABCDE && t.getReg .rip == 0x10B && t.getReg (.gpr 0) == 0x108 &&
      t.getReg (.gpr 1) == 0x123456789ABCDEF0) = true := by decide

/-- RL.2 #0x11, #0x8001, R2 -/
theorem test_rl : runs [0x5B, 0x48, 0x20, 0x00, 0x00, 0x00, 0x00, 0x00, 0x00, 0x11, 0x80, 0x01, 0x02]
    []
    (fun t => t.getReg (.gpr 2) == 0x3 && t.getReg .rip == 0x10D) = true := by decide

/-- RL.8 #4, R1, R2 -/
theorem test_rl_2 : runs [0x5B, 0x40, 0x60, 0x00, 0x00, 0x00, 0x00, 0x00, 0x00, 0x00, 0x00, 0x00, 0x00, 0x00, 0x00,
    0x04, 0x01, 0x02]
    [set (.gpr 1) 0x123456789ABCDEF0]
    (fun t => t.getReg (.gpr 2) == 0x23456789ABCDEF01 && t.getReg .rip == 0x112 &&
      t.getReg (.gpr 1) == 0x123456789ABCDEF0) = true := by decide

/-- GT.8 #1, #0xffffffffffffffff, R2 -/
theorem test_gt : runs [0x60, 0x48, 0x60, 0x00, 0x00, 0x00, 0x00, 0x00, 0x00, 0x00, 0x00, 0x00, 0x00, 0x00, 0x00,
    0x01, 0xFF, 0xFF, 0xFF, 0xFF, 0xFF, 0xFF, 0xFF, 0xFF, 0x02]
    []
    (fun t => t.getReg (.gpr 2) == 0xFFFFFFFFFFFFFFFF && t.getReg .rc == 0xFFFFFFFFFFFFFFFF && t.getReg .rip == 0x119)
    = true := by decide

/-- GT.8 #3, R1, RC -/
theorem test_gt_2 : runs [0x60, 0x40, 0x60, 0x00, 0x00, 0x00, 0x00, 0x00, 0x00, 0x00, 0x00, 0x00, 0x00, 0x00, 0x00,
    0x03, 0x01, 0xF3]
    [set (.gpr 1) 0x2, set .rc 0xFFFFFFFFFFFFFFFF]
    (fun t => t.getReg .rc == 0x0 && t.getReg .rip == 0x112 && t.getReg (.gpr 1) == 0x2) = true := by decide

/-- GTE.8 #5, #5, R2 -/
theorem test_gte : runs [0x61, 0x48, 0x60, 0x00, 0x00, 0x00, 0x00, 0x00, 0x00, 0x00, 0x00, 0x00, 0x00, 0x00, 0x00,
    0x05, 0x00, 0x00, 0x00, 0x00, 0x00, 0x00, 0x00, 0x05, 0x02]
    [set (.gpr 2) 0x7]
    (fun t => t.getReg (.gpr 2) == 0xFFFFFFFFFFFFFFFF && t.getReg .rc == 0xFFFFFFFFFFFFFFFF && t.getReg .rip == 0x119)
    = true := by decide

/-- LT.8 #3, #5, RC -/
theorem test_lt : runs [0x62, 0x48, 0x60, 0x00, 0x00, 0x00, 0x00, 0x00, 0x00, 0x00, 0x00, 0x00, 0x00, 0x00, 0x00,
    0x03, 0x00, 0x00, 0x00, 0x00, 0x00, 0x00, 0x00, 0x05, 0xF3]
    [set .rc 0xFFFFFFFFFFFFFFFF]
    (fun t => t.getReg .rc == 0x0 && t.getReg .rip == 0x119) = true := by decide

/-- LTE.8 #5, #5, R2 -/
theorem test_lte : runs [0x63, 0x48, 0x60, 0x00, 0x00, 0x00, 0x00, 0x00, 0x00, 0x00, 0x00, 0x00, 0x00, 0x00, 0x00,
    0x05, 0x00, 0x00, 0x00, 0x00, 0x00, 0x00, 0x00, 0x05, 0x02]
    [set (.gpr 2) 0x7]
    (fun t => t.getReg (.gpr 2) == 0xFFFFFFFFFFFFFFFF && t.getReg .rc == 0xFFFFFFFFFFFFFFFF && t.getReg .rip == 0x119)
    = true := by decide

/-- EQ.1 R0, [#0x40], [R3] -/
theorem test_eq : runs [0x64, 0x0C, 0x80, 0x00, 0x00, 0x00, 0x00, 0x00, 0x00, 0x40, 0x03]
    [set (.gpr 0) 0x7F, set (.gpr 3) 0x50, poke 0x40 [0x7F]]
    (fun t => t.getReg .rc == 0xFFFFFFFFFFFFFFFF && t.getReg .rip == 0x10B && memBytes t.mem 0x50 1 == [0xFF] &&
      t.getReg (.gpr 0) == 0x7F && t.getReg (.gpr 3) == 0x50) = true := by decide

/-- NEQ.2 #0xffff, [R1], [R1] -/
theorem test_neq : runs [0x65, 0x44, 0xA0, 0x00, 0x00, 0x00, 0x00, 0x00, 0xFF, 0xFF, 0x01, 0x01]
    [set (.gpr 1) 0x400, poke 0x400 [0xFF,0xFE]]
    (fun t => t.getReg .rc == 0xFFFFFFFFFFFFFFFF && t.getReg .rip == 0x10C && memBytes t.mem 0x401 1 == [0xFF] &&
      t.getReg (.gpr 1) == 0x400) = true := by decide

/-- PAU -/
theorem test_pau : runs [0x71, 0x00, 0x00, 0x00, 0x00, 0x00, 0x00, 0x00]
    [(·.setIe true), (·.setQueue [4]), (·.setVec 4 1088)]
    (fun t => t.getReg .rsip == 0x108 && t.getReg .rip == 0x440 && t.isr == true && t.paused == true && t.queue == [])
    = true := by decide

/-- NOP -/
theorem test_nop : runs [0x00, 0x00, 0x00, 0x00, 0x00, 0x00, 0x00, 0x00]
    [(·.setIe true), (fun s => s.setService true s.pisr), (·.setQueue [6, 6]), (·.setVec 6 1632)]
    (fun t => t.getReg .rsip == 0x108 && t.getReg .rip == 0x660 && t.queue == [6]) = true := by decide

/-- MOV with T1 = 7 -/
theorem test_type_code_seven : runs [0x01, 0xE0, 0x60, 0x00, 0x00, 0x00, 0x00, 0x00, 0x00, 0x00]
    []
    (fun t => t.getReg .rip == 0x108 && t.queue == [0]) = true := by decide

/-- MOV.8 R0, register byte 0xF4 -/
theorem test_unnamed_register : runs [0x01, 0x00, 0x60, 0x00, 0x00, 0x00, 0x00, 0x00, 0x00, 0xF4]
    []
    (fun t => t.getReg .rip == 0x108 && t.queue == [0]) = true := by decide

/-- fetch at 0xFFFC (header crosses MEM_SIZE) -/
theorem test_fetch_past_memory : runs []
    [set .rip 0xFFFC]
    (fun t => t.getReg .rip == 0x10004 && t.queue == [2]) = true := by decide

/-- MOV.8 #0x2a, R0 at RIP = 0xFFF4 (header in range, literal crosses MEM_SIZE) -/
theorem test_fetch_literal_past_memory : runs [0x01, 0x40, 0x60, 0x00, 0x00, 0x00, 0x00, 0x00, 0x00, 0x00, 0x00, 0x00]
    [set .rip 0xFFF4, set (.gpr 0) 0x7]
    (fun t => t.getReg (.gpr 0) == 0x0 && t.getReg .rip == 0x10005 && t.queue == [2, 2]) = true := by decide

/-- HLT with type and reserved bits set -/
theorem test_reserved_bits : runs [0x24, 0x1C, 0x9F, 0xFF, 0x00, 0x00, 0x00, 0x01]
    []
    (fun t => t.getReg .rip == 0x100) = true := by decide

/-- POP.8 (R1) (CALCL destination) -/
theorem test_calculated_literal_destination : runs [0x04, 0xC0, 0x60, 0x00, 0x00, 0x00, 0x00, 0x00, 0x00, 0x01]
    [set .rsp 0x800]
    (fun t => t.getReg .rip == 0x108 && t.queue == [0] && t.getReg .rsp == 0x800) = true := by decide

/-- DBG.8 R7: the first free clock word, and RIP past the nine bytes (R341). -/
theorem test_dbg : (match step (loaded [0x70, 0x00, 0x60, 0, 0, 0, 0, 0, 0x07] []) with
    | .next t => some (t.getReg (.gpr 7), t.getReg .rip, t.clockDraws)
    | _ => none) = some (Config.clock 0, 0x109, 1) := by rfl

/-! ## Other tests -/

/-- Registration fails for an id already present, and gives a device to a fresh one (R36). -/
theorem test_registry : (registryAdd 3 .memory standardPlatform.registry).isNone = true ∧
    (registryAdd 5 .memory standardPlatform.registry).isSome = true := by decide

/-- A platform with two devices under one id has no initial state (R36, 95_test_vectors.md S8). -/
theorem test_construct_refuses :
    (State.construct { standardPlatform with registry := [(0, .memory), (0, .processor)] } []).isNone
    = true := by decide

/-- Program A (95_test_vectors.md section 3): MOV.8 #42, R0, HLT, and a HLT again. -/
theorem test_program_a : ((State.construct standardPlatform
      [(0, [0x01, 0x40, 0x60, 0, 0, 0, 0, 0, 0, 0, 0, 0, 0, 0, 0, 0x2A, 0x00, 0x24, 0, 0, 0, 0, 0, 0, 0])]).bind
    (turns [.host .start, .cycle, .cycle, .cycle])).map (fun s => (s.getReg (.gpr 0), s.rip, s.queue))
    = some (0x2A, 17, []) := by decide

/-- Other numbers than the spec's (R7): HLT at 0xFF, the codes of `REG` and `STK` exchanged, the size field in bits 1..0,
InvalidInstruction numbered 9. -/
def otherNumbers : Platform :=
  { standardPlatform with
    encoding := { standardEncoding with
      opcodes := (0xFF, .hlt) :: standardEncoding.opcodes
      types := (4, .reg) :: (0, .stk) :: standardEncoding.types
      sizeShift := 0 }
    causes := ⟨9, 1, 2⟩ }

/-- A machine with other numbers runs a program written in them: `MOV.2 R1, R2`, HLT and a malformed header (R7). -/
theorem test_other_numbers : otherNumbers.encoding.ok = true ∧
    encode otherNumbers.encoding (.hlt .one) = [0xFF, 0, 0, 0, 0, 0, 0, 0] ∧
    ((State.construct otherNumbers [(0, [0x01, 0x90, 0, 0, 0, 0, 0, 0x01, 0x01, 0x02, 0x25])]).bind
      fun s => turns [.host .start, .cycle, .cycle] (set (.gpr 1) 0x12345 s)).map
        (fun s => (s.getReg (.gpr 2), s.rip, s.queue)) = some (0x12345, 18, [9]) := by decide +kernel

/-- Other payload layouts than the spec's (R7): two bytes for a register number, two for a descriptor, the sense of `SGN`,
`IXP` and `BK` inverted, other places, and the offset first. -/
def otherLayouts : Platform :=
  { standardPlatform with
    encoding := { standardEncoding with
      registerSize := .two
      layout := { standardEncoding.layout with
        descriptorSize := .two, sign := ⟨15, false⟩, indexPresent := ⟨0, false⟩, baseKind := ⟨3, false⟩,
        offsetKind := ⟨8, true⟩, order := [.offset, .base, .index, .scale] } } }

/-- A machine with other payload layouts runs `MOV.1 5 - R1, R2` written in them: descriptor `0x0011` (minus and a literal base
by bits 15 and 3 being 0, no index by bit 0 being 1, an offset by bit 4), `R1`, `5`, and `R2` (R7). -/
theorem test_other_layouts : platformOk otherLayouts = true ∧
    encode otherLayouts.encoding (.mov .one (.calcl ⟨.slit 5, none, none, some (.sreg (.gpr 1)), .minus⟩) (.reg (.gpr 2)))
      = [0x01, 0xC0, 0, 0, 0, 0, 0, 0, 0x00, 0x11, 0x00, 0x01, 0x05, 0x00, 0x02] ∧
    ((State.construct otherLayouts
        [(0, [0x01, 0xC0, 0, 0, 0, 0, 0, 0, 0x00, 0x11, 0x00, 0x01, 0x05, 0x00, 0x02])]).bind
      fun s => turns [.host .start, .cycle] (set (.gpr 1) 3 s)).map
        (fun s => (s.getReg (.gpr 2), s.rip, s.queue)) = some (2, 15, []) := by decide +kernel

/-- Memory's block move gives the bytes that were there before it, where the blocks overlap (R67). -/
theorem test_memMove_overlap :
    memBytes ((poke 0 [1, 2, 3, 4] State.reset).memMove 1 0 4).mem 0 5 = [1, 1, 2, 3, 4] := by decide

/-- The default Copy writes each word before it reads the next (assumption 12): over overlapping configuration addresses the
first word is repeated, and within Memory, whose move replaces the default, it is not (R78). -/
theorem test_bulk_copy_overlap :
    ((((State.reset.setVec 0 7).setVec 1 8).busCopyBulk 3 0x100 3 0x101 2).vec[1],
      (((State.reset.setVec 0 7).setVec 1 8).busCopyBulk 3 0x100 3 0x101 2).vec[2]) = (7, 7) ∧
    memBytes ((poke 7 [1, 0, 0, 0, 0, 0, 0, 0, 2] State.reset).busCopyBulk 0 0 0 8 2).mem 8 16
      = [0, 0, 0, 0, 0, 0, 0, 1, 0, 0, 0, 0, 0, 0, 0, 2] := by decide

/-- The decoder reads the opcode table's word of NOP, and the machine runs it as its first instruction. -/
theorem test_fetch_word : decodeTableWord 64 0x0000000000000000 = some (.nop .one) ∧
    goesOn (step (State.reset.withFetchWord 64 0)) = true := by decide

/-! ## The statements' hypotheses are met

Each theorem names the statement, and shows inputs that meet its hypotheses, at boundary values where it has several clauses.
-/

/-- A program byte string as an instruction stream is bounded. -/
theorem bytesReader_bounded (bs : List Byte) (off n : Nat) : bytesReader bs off n < 256 ^ n := by
  unfold bytesReader
  split
  · have h := beNat_lt ((bs.drop off).take n)
    exact lt_of_lt_of_le h (Nat.pow_le_pow_right (by decide) (List.length_take_le _ _))
  · exact Nat.pos_of_ne_zero (by simp)

/-- `EncodedInstructionsDecodeBack`. -/
theorem test_meets_encoded : (Instr.add .eight (.lit 0xFFFFFFFFFFFFFFFF) .stk (.rega .rsp)).wellFormed = true ∧
    ∀ off n, off + n ≤ (encode standardEncoding (Instr.add .eight (.lit 0xFFFFFFFFFFFFFFFF) .stk (.rega .rsp))).length →
      bytesReader (encode standardEncoding (Instr.add .eight (.lit 0xFFFFFFFFFFFFFFFF) .stk (.rega .rsp))) off n
        = beNat (((encode standardEncoding (Instr.add .eight (.lit 0xFFFFFFFFFFFFFFFF) .stk (.rega .rsp))).drop off).take n) :=
  ⟨rfl, fun _ _ h => if_pos h⟩

/-- `DecodedInstructionsAreRepresentable`, `StepRunsTheDecodedInstruction`. -/
theorem test_meets_step : (loaded [0x24, 0, 0, 0, 0, 0, 0, 0] []).run = true ∧
    (loaded [0x24, 0, 0, 0, 0, 0, 0, 0] []).paused = false ∧
    (∃ s1, (loaded [0x24, 0, 0, 0, 0, 0, 0, 0] []).fetchDecode = (.ok (.hlt .one), s1) ∧
      ∃ t, exec (.hlt .one) s1 = .next t) :=
  ⟨rfl, rfl, _, rfl, _, rfl⟩

/-- `DecoderConsumesTheInstructionLength`: the shortest length, 8. -/
theorem test_meets_length_8 : (∀ off n, bytesReader [0, 0, 0, 0, 0, 0, 0, 0] off n < 256 ^ n) ∧
    (decodeWith standardEncoding (bytesReader [0, 0, 0, 0, 0, 0, 0, 0]) cursorStart).1 = .ok (.nop .one) ∧
    (decodeWith standardEncoding (bytesReader [0, 0, 0, 0, 0, 0, 0, 0]) cursorStart).2.pos = 8 :=
  ⟨bytesReader_bounded _, rfl, rfl⟩

/-- `DecoderConsumesTheInstructionLength`: the longest length, 107. -/
theorem test_meets_length_107 :
    instrLength standardEncoding (.add .eight (.calca ⟨.slit 1, some (.slit 2), some (.slit 3), some (.slit 4), .plus⟩)
      (.calca ⟨.slit 5, some (.slit 6), some (.slit 7), some (.slit 8), .plus⟩)
      (.calca ⟨.slit 9, some (.slit 10), some (.slit 11), some (.slit 12), .plus⟩)) = 107 := by decide

/-- `StoredEncodingIsFetched`: an instruction that ends at the last byte of Memory. -/
theorem test_meets_stored : (Instr.push .two (.lit 0xBEEF)).wellFormed = true ∧
    (loaded [0x03, 0x40, 0x20, 0, 0, 0, 0, 0, 0xBE, 0xEF] [set .rip 0xFFF6]).rip.toNat
      + instrLength standardEncoding (.push .two (.lit 0xBEEF)) = standardPlatform.memSize ∧
    memBytes (loaded [0x03, 0x40, 0x20, 0, 0, 0, 0, 0, 0xBE, 0xEF] [set .rip 0xFFF6]).mem 0xFFF6 10
      = encode standardEncoding (.push .two (.lit 0xBEEF)) := by decide

/-- `ReservedHeaderBitsAreIgnored`: a MOV with and without its third type field and reserved bits. -/
theorem test_meets_reserved : headerOpcode 0x0100600000000000 = headerOpcode 0x0103FFFFFFFFFFFF ∧
    headerSize standardEncoding 0x0100600000000000 = headerSize standardEncoding 0x0103FFFFFFFFFFFF ∧
    headerType1 0x0100600000000000 = headerType1 0x0103FFFFFFFFFFFF ∧
    headerType2 0x0100600000000000 = headerType2 0x0103FFFFFFFFFFFF ∧
    headerType3 0x0100600000000000 ≠ headerType3 0x0103FFFFFFFFFFFF ∧
    (opOfCode standardEncoding (headerOpcode 0x0100600000000000)).map (fun o => arity o.form) = some 2 := by decide

/-- `EncodedInstructionsDecodeBack`, `DecoderConsumesTheInstructionLength`, `ReservedHeaderBitsAreIgnored`: an admissible encoding
that is not the spec's. -/
theorem test_meets_other_encoding : otherNumbers.encoding.ok = true ∧ otherNumbers.encoding ≠ standardEncoding ∧
    otherLayouts.encoding.ok = true ∧ instrLength otherLayouts.encoding (.push .one (.reg .rc)) = 10 := by decide

/-- `ReservedHeaderBitsAreIgnored`: absent first, second and third parameters. -/
theorem test_meets_reserved_absent : (Instr.nop .one).params.length < 1 ∧ (Instr.push .one .stk).params.length < 2 ∧
    (Instr.mov .one .stk .stk).params.length < 3 := by decide

/-- `IllegalHeadersAreDecodeFaults`: an opcode byte absent from the table. -/
theorem test_meets_illegal_opcode : ∀ row ∈ standardEncoding.opcodes, row.1 ≠ headerOpcode 0xFF00000000000000 := by
  decide

/-- `IllegalHeadersAreDecodeFaults`: type code 7 in each of ADD's three fields. -/
theorem test_meets_illegal_type :
    (opOfCode standardEncoding (headerOpcode 0x30E0000000000000)).map (fun o => arity o.form) = some 3 ∧
    headerType1 0x30E0000000000000 = 7 ∧ headerType2 0x301C000000000000 = 7 ∧ headerType3 0x3003800000000000 = 7 := by decide

/-- `IllegalHeadersAreDecodeFaults`: a register byte that names nothing, the types it stands in, and a component of each kind;
the bytes next to those that name one. -/
theorem test_meets_illegal_register : (∀ row ∈ standardEncoding.registers, row.1 ≠ 0x10) ∧
    (∀ row ∈ standardEncoding.registers, row.1 ≠ 0xEF) ∧ (∀ row ∈ standardEncoding.registers, row.1 ≠ 0xF4) ∧
    (∃ row ∈ standardEncoding.registers, row.1 = 0x0F) ∧ (∃ row ∈ standardEncoding.registers, row.1 = 0xF0) ∧
    typeOfCode standardEncoding 0 = some .reg ∧ typeOfCode standardEncoding 1 = some .rega ∧
    namesRegister standardEncoding.layout 0x70 .base = true ∧ namesRegister standardEncoding.layout 0x70 .index = true ∧
    namesRegister standardEncoding.layout 0x70 .scale = true ∧ namesRegister standardEncoding.layout 0x70 .offset = true ∧
    namesRegister otherLayouts.encoding.layout 0x0018 .base = true := by
  decide

/-- `IllegalHeadersAreDecodeFaults`: the first, the second and the third parameter of an instruction at fault. -/
theorem test_meets_parameter_fault :
    decodeBytes standardEncoding [0x20, 0x00, 0, 0, 0, 0, 0, 0, 0x10] = .error .invalidRegister ∧
    decodeBytes standardEncoding [0x11, 0x00, 0, 0, 0, 0, 0, 0, 0x00, 0x10] = .error .invalidRegister ∧
    decodeBytes standardEncoding [0x30, 0x01, 0, 0, 0, 0, 0, 0, 0x00, 0x01] = .error .destinationNotWritable := by
  decide +kernel

/-- `DecodeFaultSkipsTheHeader`. -/
theorem test_meets_decode_fault : (loaded [0xFF, 0, 0, 0, 0, 0, 0, 0] []).run = true ∧
    (loaded [0xFF, 0, 0, 0, 0, 0, 0, 0] []).paused = false ∧
    ∃ s1, (loaded [0xFF, 0, 0, 0, 0, 0, 0, 0] []).fetchDecode = (.error .unknownOpcode, s1) :=
  ⟨rfl, rfl, _, rfl⟩

/-- `StepRunsTheDecodedInstruction`, `DecodeFaultSkipsTheHeader`: one HardwareFault for each fetch out of range, two of MOV's
three here, and the header's alone. -/
theorem test_meets_fetch_faults : standardPlatform.encoding.ok = true ∧
    (fetchFaulted (bench [set .rip 0xFFF8]) (instrFetches standardEncoding (.mov .one (.reg (.gpr 0)) (.reg (.gpr 0))))).queue
      = [2, 2] ∧
    (fetchFaulted (bench [set .rip 0xFFF9]) (fetchesAt 0 [8])).queue = [2] := by decide

/-- `StoppedOrPausedMachineIsFrozen`: a stopped and a paused machine. -/
theorem test_meets_frozen : State.reset.run = false ∧ (bench [(·.setPaused true)]).paused = true := by decide

/-- `ImmediateDestinationsAreRefused`: a `d` and an `x` position. -/
theorem test_meets_refused : (∃ p ∈ writtenParams (.mov .one .stk (.lit 5)), p.writable = false) ∧
    (∃ p ∈ writtenParams (.xchg .one (.lit 5) .stk), p.writable = false) := by decide

/-- `StepKeepsGoodState`, `StepKeepsPlatformAndRun`, `QueueIsFirstInFirstOut`. -/
theorem test_meets_good : (loaded [0x04, 0x00, 0, 0, 0, 0, 0, 0, 0x03] []).good = true ∧
    ∃ t, step (loaded [0x04, 0x00, 0, 0, 0, 0, 0, 0, 0x03] []) = .next t :=
  ⟨by decide, exists_next (by decide)⟩

/-- `HostMovesKeepGoodState`: a move that stores. -/
theorem test_meets_host_move : State.reset.good = true ∧
    ((hostMove (.busWrite 0 0xFFF8 0xFF) State.reset).map fun t => memGet t.mem 0xFFFF) = some 0xFF := by decide

/-- `ReachableStatesAreGood`. -/
theorem test_meets_reachable : State.reachable (State.reset.setRun true) :=
  ⟨standardPlatform, [], State.reset, [.host .start], rfl, rfl⟩

/-- `HardwareOnlyEverSetsRc`: an instruction that may set RC, and one that may not. -/
theorem test_meets_rc : (∃ t, exec (.inc .one (.lit 0xFF) (.reg (.gpr 1))) (bench []) = .next t ∧ t.rc = allOnes) ∧
    .reg .rc ∉ writtenParams (.inc .one (.lit 0xFF) (.reg (.gpr 1))) ∧
    (∃ t, exec (.mov .one (.lit 0xFF) (.reg (.gpr 1))) (bench []) = .next t) ∧
    .reg .rc ∉ writtenParams (.mov .one (.lit 0xFF) (.reg (.gpr 1))) ∧
    setsRc (.mov .one (.lit 0xFF) (.reg (.gpr 1))) = false :=
  ⟨⟨_, rfl, rfl⟩, by decide, ⟨_, rfl⟩, by decide, rfl⟩

/-- `ControlFlagsChangeOnlyByTheirInstructions`. -/
theorem test_meets_control : ∃ t, exec (.pau .one) (bench []) = .next t ∧ t.paused ≠ (bench []).paused :=
  ⟨_, rfl, by decide⟩

/-- `DispatchTakesTheHeadCause`: a protected cause, an ordinary one, and each way of no dispatch. -/
theorem test_meets_dispatch : (2 : Cause) ∈ standardPlatform.protectedCauses ∧ (3 : Cause) ∉ standardPlatform.protectedCauses ∧
    (bench [(·.setIe true), (·.setQueue [2])]).ie = true ∧ (bench [(·.setIe true), (·.setQueue [2])]).pisr = false ∧
    (bench [(·.setIe true), (·.setQueue [2])]).queue = 2 :: [] ∧ State.reset.ie = false ∧
    (bench [(·.setService false true)]).pisr = true := by decide

/-- `IntThenEintReturnsAfterTheInt`: a protected cause and the greatest one, and a state for the EINT. -/
theorem test_meets_int_eint : (val1 (bench [(·.setIe true)]) .one (.lit 2)).toNat = (2 : Cause).val ∧
    (val1 (bench [(·.setIe true)]) .one (.lit 0xFE)).toNat = (254 : Cause).val ∧ (bench [(·.setIe true)]).ie = true ∧
    (bench [(·.setIe true)]).pisr = false ∧ (after1 (bench [(·.setIe true)]) .one (.lit 0xFE)).queue = [] ∧
    (bench [set .rsip 0x109]).rsip = 0x109 := by decide

/-- `HaltedMachineResumesAtTheVector`: a pending cause, and none. -/
theorem test_meets_halted : (loaded [0x24, 0, 0, 0, 0, 0, 0, 0] [(·.setIe true), (·.setQueue [4])]).run = true ∧
    (loaded [0x24, 0, 0, 0, 0, 0, 0, 0] [(·.setIe true), (·.setQueue [4])]).paused = false ∧
    (loaded [0x24, 0, 0, 0, 0, 0, 0, 0] [(·.setIe true), (·.setQueue [4])]).queue = 4 :: [] ∧
    (∃ s1, (loaded [0x24, 0, 0, 0, 0, 0, 0, 0] [(·.setIe true), (·.setQueue [4])]).fetchDecode = (.ok (.hlt .one), s1)) ∧
    (∃ s1, (loaded [0x24, 0, 0, 0, 0, 0, 0, 0] []).fetchDecode = (.ok (.hlt .one), s1) ∧ s1.queue = []) :=
  ⟨rfl, rfl, rfl, ⟨_, rfl⟩, ⟨_, rfl, rfl⟩⟩

/-- `HostMovesDoWhatTheyName`: an admissible platform, a running, a paused and a stopped machine. -/
theorem test_meets_moves : platformOk State.reset.platform = true ∧ (bench [(·.setPaused true)]).paused = true ∧
    (bench []).paused = false ∧ (bench []).run = true ∧ State.reset.run = false := by decide

/-- `HostMovesDoWhatTheyName`: blocks that end at the last byte of Memory and one byte past it, a device that is Memory and
one that is not, and moves allowed. -/
theorem test_meets_bulk : Memory.wf State.reset.platform.memSize State.reset.mem = true ∧
    0xFFF0 + 8 * 2 ≤ State.reset.platform.memSize ∧ State.reset.platform.memSize < 0xFFF1 + 8 * 2 ∧
    registryFind 0 State.reset.platform.registry = some .memory ∧
    registryFind 3 State.reset.platform.registry ≠ some .memory ∧
    ((hostMove (.bulkWrite 0 0xFFF0 [1, 2]) State.reset).map fun t => (t.busReadBulk 0 0xFFF0 2).1) = some [1, 2] ∧
    ((hostMove (.bulkWrite 0 0xFFF1 [1, 2]) State.reset).map fun t => (t.mem, t.queue)) = some ([], [2]) ∧
    ((hostMove (.bulkWrite 3 0x1FD [1, 2, 3]) State.reset).map fun t => (t.vec[253], t.vec[254], t.queue))
      = some (1, 2, [2]) := by decide

/-- `MemoryIsBigEndianAndRangeChecked`, `NarrowReadSeesTheBytesAtItsPlace`: the last access in range, the first out of it. -/
theorem test_meets_memory : Memory.wf State.reset.platform.memSize State.reset.mem = true ∧
    0xFFFFFFFFFFFFFFFF < 2 ^ Size.eight.bits ∧ 0xFFF8 + Size.eight.bytes ≤ State.reset.platform.memSize ∧
    State.reset.platform.memSize < 0xFFF9 + Size.eight.bytes ∧ 7 + Size.one.bytes ≤ 8 := by decide

/-- `UnansweredAccessRaisesHardwareFault`: no device, and each device with an empty map. -/
theorem test_meets_unanswered :
    (routeOf standardPlatform 0x7000000000000).1 ≠ standardPlatform.memId ∧
    registryFind (routeOf standardPlatform 0x7000000000000).1 standardPlatform.registry = none ∧
    registryFind (routeOf standardPlatform 0x1000000000000).1 standardPlatform.registry = some .processor ∧
    registryFind (routeOf standardPlatform 0x2000000000000).1 standardPlatform.registry = some .interruptController ∧
    registryFind (routeOf standardPlatform 0x4000000000000).1 standardPlatform.registry = some .bootManager := by decide

/-- `ConfigurationDeviceMap`: both settings of the quirk; the first and last address of each hole and of the vectors. -/
theorem test_meets_configuration : State.reset.platform.cfgWriteQuirk = false ∧
    (State.resetOn { standardPlatform with cfgWriteQuirk := true }).platform.cfgWriteQuirk = true ∧
    ((State.reset.cfgRead 3).2.queue, (State.reset.cfgRead 0xFF).2.queue, (State.reset.cfgRead 0x100).2.queue,
      (State.reset.cfgRead 0x1FE).2.queue, (State.reset.cfgRead 0x1FF).2.queue) = ([2], [2], [], [], [2]) := by decide

/-- `SourceParametersRead`, `DestinationsReceiveTheWord`: the last word of Memory, by address and by a push. -/
theorem test_meets_operands : routeOf State.reset.platform 0xFFF8 = (State.reset.platform.memId, 0xFFF8) ∧
    0xFFF8 + Size.eight.bytes ≤ State.reset.platform.memSize ∧
    routeOf (bench [set .rsp 0x10000]).platform ((bench [set .rsp 0x10000]).rsp - BitVec.ofNat 64 Size.eight.bytes)
      = ((bench [set .rsp 0x10000]).platform.memId, 0xFFF8) := by decide

/-- `SourceParametersRead`, `DestinationsReceiveTheWord`: the first access out of range, by address and by the stack; the
configuration device, by address and by the stack; Memory under a second id; and a literal that fits. -/
theorem test_meets_operands_elsewhere : routeOf State.reset.platform 0xFFF9 = (State.reset.platform.memId, 0xFFF9) ∧
    State.reset.platform.memSize < 0xFFF9 + Size.eight.bytes ∧
    routeOf (bench [set .rsp 0x10001]).platform ((bench [set .rsp 0x10001]).rsp - BitVec.ofNat 64 Size.eight.bytes)
      = ((bench [set .rsp 0x10001]).platform.memId, 0xFFF9) ∧
    routeOf State.reset.platform 0x0003000000000000 = (3, 0) ∧ 3 ≠ State.reset.platform.memId ∧
    registryFind 3 State.reset.platform.registry = some .configuration ∧
    routeOf (bench [set .rsp 0x0003000000000101]).platform
      ((bench [set .rsp 0x0003000000000101]).rsp - BitVec.ofNat 64 Size.one.bytes) = (3, 0x100) ∧
    registryFind 5 ([(5, .memory)] ++ standardPlatform.registry) = some .memory ∧
    (Param.lit 0xFF).fits .one = true := by decide

/-- A data access routed to the configuration device carries the low bytes of its word, and a pop out of range reads 0 and
still moves RSP (R80, R81, R165, R393). -/
theorem test_configuration_operand :
    ((State.reset.setVec 0 0x12345).dataRead 0x0003000000000100 .two).1 = 0x2345 ∧
    (State.reset.dataWrite 0x0003000000000100 .one 0x1234).vec[0] = 0x34 ∧
    ((bench [set .rsp 0xFFFFFFFFFFFF]).readParam .eight .stk).1 = 0 ∧
    ((bench [set .rsp 0xFFFFFFFFFFFF]).readParam .eight .stk).2.rsp = 0x1000000000007 ∧
    ((bench [set .rsp 0xFFFFFFFFFFFF]).readParam .eight .stk).2.queue = [2] := by decide

/-- `PushAndPopAreMovesOfTheStack`: a destination that does not read RSP, and one that does. -/
theorem test_meets_pop : (Param.rega .rc).writable = true ∧ locatorReadsRsp (.rega .rc) = false ∧
    locatorReadsRsp (.rega .rsp) = true := by decide

/-- The statements of one instruction's result: a writable destination. -/
theorem test_meets_writable : (Param.reg .rc).writable = true ∧ Param.stk.writable = true := by decide

/-- `JumpsSetRipToTheTarget`: a tested word of zero and one that is not. -/
theorem test_meets_jumps : val1 (bench []) .one (.lit 0) = 0 ∧ val1 (bench []) .one (.lit 1) ≠ 0 := by decide

/-- `IntEnqueuesItsCause`: the least and the greatest cause number, and the first number that is none. -/
theorem test_meets_int : (val1 (bench []) .one (.lit 0)).toNat = (0 : Cause).val ∧
    (val1 (bench []) .one (.lit 254)).toNat = (254 : Cause).val ∧ 254 < (val1 (bench []) .one (.lit 255)).toNat := by decide

/-- `AdcSbbResults`: the carry that overflows alone, a carry that does not, and no carry. -/
theorem test_meets_adc : ((if (bench [set .rc allOnes]).rc = allOnes then 1 else 0) = 1 ∧
      2 ^ Size.one.bits - 1 < (val1 (bench [set .rc allOnes]) .one (.lit 0xFF)).toNat + 1) ∧
    ¬(2 ^ Size.one.bits - 1 < (val1 (bench [set .rc allOnes]) .one (.lit 0xFE)).toNat + 1) ∧
    (bench [set .rc 1]).rc ≠ allOnes := by decide

/-- `DivModResults`, `QuotientAndRemainderAgree`: a divisor of zero, and one that is not, with both results. -/
theorem test_meets_div : (val1 (bench []) .one (.lit 0)).toNat = 0 ∧ (val1 (bench []) .one (.lit 7)).toNat ≠ 0 ∧
    (val1 (bench []) .one (.lit 7)).toNat < 2 ^ Size.one.bits ∧
    (val2 (bench []) .one (.lit 7) (.lit 0xFF)).toNat < 2 ^ Size.one.bits ∧
    goesOn (exec (.div .one (.lit 7) (.lit 0xFF) (.reg (.gpr 1))) (bench [])) = true ∧
    goesOn (exec (.mod .one (.lit 7) (.lit 0xFF) (.reg (.gpr 2))) (bench [])) = true := by decide

/-- `FloatAddSubMulResults`: a number, and a NaN, for each operation. -/
theorem test_meets_float : (fnum.add 0x3FF0000000000000 0x3FF0000000000000).isSome = true ∧
    (fnum.sub 0x3FF0000000000000 0x3FF0000000000000).isSome = true ∧
    (fnum.mul 0x3FF0000000000000 0x3FF0000000000000).isSome = true ∧
    fnum.add 0x7FF0000000000000 0xFFF0000000000000 = none ∧ fnum.sub 0x7FF0000000000000 0x7FF0000000000000 = none ∧
    fnum.mul 0x7FF0000000000000 0x8000000000000000 = none := by decide

/-- `FloatDivRemResults`: a number and a NaN for each operation, with a divisor that is not zero. -/
theorem test_meets_float_div : (fnum.div 0x3FF0000000000000 0x4008000000000000).isSome = true ∧
    (fnum.rem 0x401E000000000000 0x4000000000000000).isSome = true ∧
    fnum.div 0x7FF0000000000000 0xFFF0000000000000 = none ∧ fnum.rem 0x7FF0000000000000 0x4000000000000000 = none ∧
    (0x0000000000000001 : Word) ≠ 0 ∧ (0x0000000000000001 : Word) ≠ 0x8000000000000000#64 := by decide

/-- `FloatRoundingIsToNearestEven`: a tie, `2^53 + 1` units, whose other neighbour has an odd significand. -/
theorem test_meets_rounding : roundLow (2 ^ 53 + 1) 1 < fInfLow ∧ IsFinite (fPack false (roundLow (2 ^ 53 + 2) 1)) ∧
    fMag (fPack false (roundLow (2 ^ 53 + 1) 1)) = 2 ^ 53 ∧ fMag (fPack false (roundLow (2 ^ 53 + 2) 1)) = 2 ^ 53 + 2 ∧
    roundLow (2 ^ 53 + 2) 1 % 2 = 1 := by
  unfold IsFinite
  decide

/-- `FloatRoundingIsToNearestEven`: the least magnitude that overflows and the one below it, where R271's infinity begins. -/
theorem test_meets_overflow : overflowUnits * 1 ≤ (2 ^ 54 - 1) * 2 ^ 2044 ∧ (2 ^ 54 - 1) * 2 ^ 2044 - 1 < overflowUnits * 1 ∧
    roundLow ((2 ^ 54 - 1) * 2 ^ 2044) 1 = fInfLow ∧ roundLow ((2 ^ 54 - 1) * 2 ^ 2044 - 1) 1 = fInfLow - 1 := by
  decide +kernel

/-- `FloatRoundingIsToNearestEven`: finite operands, a zero and a divisor that is not; 1 + 2, 1 - 2, -0 + -0, 2 * 3, 3 / 2 and
the remainder of -7.5 by 2, by hand. -/
theorem test_meets_float_values : IsFinite 0x3FF0000000000000 ∧ IsFinite 0x8000000000000000 ∧
    fIsZero 0x4000000000000000 = false ∧ fnum.add 0x3FF0000000000000 0x4000000000000000 = some 0x4008000000000000 ∧
    fnum.sub 0x3FF0000000000000 0x4000000000000000 = some 0xBFF0000000000000 ∧
    fnum.add 0x8000000000000000 0x8000000000000000 = some 0x8000000000000000 ∧
    fnum.mul 0x4000000000000000 0x4008000000000000 = some 0x4018000000000000 ∧
    fnum.div 0x4008000000000000 0x4000000000000000 = some 0x3FF8000000000000 ∧
    fnum.rem 0xC01E000000000000 0x4000000000000000 = some 0xBFF8000000000000 := by
  unfold IsFinite
  decide +kernel

/-- `FinitePatternsRoundToThemselves`: minus zero, the least subnormal and the greatest finite number. -/
theorem test_meets_finite : IsFinite 0x8000000000000000 ∧ IsFinite 0x0000000000000001 ∧ IsFinite 0x7FEFFFFFFFFFFFFF := by
  unfold IsFinite
  decide

/-- `NanResultsExactlyWhereInvalid`: a divisor that is not zero, a NaN pattern, and a result. -/
theorem test_meets_nan : fIsZero 0x3FF0000000000000 = false ∧ fIsNaN 0x7FF8000000000000 = true ∧
    fnum.add 0x0000000000000001 0x0000000000000001 = some 0x0000000000000002 := by decide

/-- `NanResultsExactlyWhereInvalid`: infinities of both signs, alone and with a number that is neither one nor a zero. -/
theorem test_meets_infinite : fIsNaN 0x7FF0000000000000 = false ∧ fIsInf 0x7FF0000000000000 = true ∧
    fIsInf 0xFFF0000000000000 = true ∧ fSign 0x7FF0000000000000 ≠ fSign 0xFFF0000000000000 ∧
    fIsNaN 0x3FF0000000000000 = false ∧ fIsInf 0x3FF0000000000000 = false ∧ fIsZero 0x3FF0000000000000 = false ∧
    fIsZero 0x7FF0000000000000 = false ∧ fnum.sub 0x3FF0000000000000 0x7FF0000000000000 = some 0xFFF0000000000000 ∧
    fnum.div 0xBFF0000000000000 0x7FF0000000000000 = some 0x8000000000000000 := by decide +kernel

/-- `RcSettingInstructionsFrame`: a form that sets RC and stores at RSP. -/
theorem test_meets_frame_rc : Instr.add ∈ rcForms ∧ Memory.wf (bench [set .rsp 0x800]).platform.memSize
      (bench [set .rsp 0x800]).mem = true ∧
    ∃ t, exec (.add .one (.lit 0xFF) (.lit 2) .stk) (bench [set .rsp 0x800]) = .next t :=
  ⟨.head _, by decide, exists_next (by decide)⟩

/-- `PlainInstructionsFrame`: a division by zero, and one that is none. -/
theorem test_meets_frame_plain : Instr.div ∈ plainForms ∧ Memory.wf (bench []).platform.memSize (bench []).mem = true ∧
    (∃ t, exec (.div .one (.lit 0) (.lit 2) (.reg (.gpr 1))) (bench []) = .next t ∧ t.queue = [1]) ∧
    ∃ t, exec (.div .one (.lit 1) (.lit 2) (.reg (.gpr 1))) (bench []) = .next t ∧ t.queue = [] :=
  ⟨.head _, by decide, ⟨_, rfl, by decide⟩, _, rfl, by decide⟩

/-- `FloatInstructionsFrame`: a NaN result. -/
theorem test_meets_frame_float : Instr.adf ∈ floatForms ∧ Memory.wf (bench []).platform.memSize (bench []).mem = true ∧
    ∃ t, exec (.adf .eight (.lit 0x7FF0000000000000) (.lit 0xFFF0000000000000) (.reg (.gpr 1))) (bench []) = .next t ∧
      t.nanDraws = 1 :=
  ⟨.head _, by decide, _, rfl, by decide⟩

/-- `FloatInstructionsFrame`: a division by minus zero. -/
theorem test_meets_frame_float_zero : ∃ t,
    exec (.dvf .eight (.lit 0x8000000000000000) (.lit 0x3FF0000000000000) (.reg (.gpr 1))) (bench []) = .next t ∧
      t.queue = [1] :=
  ⟨_, rfl, by decide⟩

/-- `TwoParameterInstructionsFrame`: a store. -/
theorem test_meets_frame_two : Memory.wf (bench []).platform.memSize (bench []).mem = true ∧
    ∃ t, exec (.mov .two (.lit 0xBEEF) (.lita 0x400)) (bench []) = .next t ∧ memGet t.mem 0x401 = 0xEF :=
  ⟨by decide, _, rfl, by decide⟩

/-- `StackAndExchangeFrame`: each of its four instructions completes. -/
theorem test_meets_frame_stack : Memory.wf (bench [set .rsp 0x800]).platform.memSize (bench [set .rsp 0x800]).mem = true ∧
    goesOn (exec (.push .eight .stk) (bench [set .rsp 0x800])) = true ∧
    goesOn (exec (.pop .eight .stk) (bench [set .rsp 0x800])) = true ∧
    goesOn (exec (.dbg .eight (.reg .rc)) (bench [set .rsp 0x800])) = true ∧
    goesOn (exec (.xchg .eight .stk .stk) (bench [set .rsp 0x800])) = true := by decide

/-- `JumpsAndIntFrame`: each of its four instructions completes. -/
theorem test_meets_frame_jumps : goesOn (exec (.jmp .eight .stk) (bench [])) = true ∧
    goesOn (exec (.jz .eight .stk .stk) (bench [])) = true ∧ goesOn (exec (.jnz .eight .stk .stk) (bench [])) = true ∧
    goesOn (exec (.int .eight .stk) (bench [])) = true := by decide

end Sys2Proof.Tests
end

namespace Sys2Proof.Proofs

open Sys2Proof.Machine Sys2Proof.Claims

variable {s t u : State} {ps : List Param} {i : Instr} {z : Size}

/-! ## Reading parameters -/

/-- `t` is `s` after the parameters `ps` were read: RSP moved if one of them is `STK`, HardwareFaults enqueued, and nothing
else (R160 to R165). -/
def AfterReads (ps : List Param) (s t : State) : Prop :=
  ∃ sp n, (.stk ∉ ps → sp = s.rsp) ∧
    t = (s.setReg .rsp sp).setQueue (s.queue ++ List.replicate n s.platform.causes.hardwareFault)

theorem AfterReads.none (s : State) : AfterReads [] s s :=
  ⟨s.rsp, 0, fun _ => rfl, by rw [List.replicate_zero, List.append_nil]; rfl⟩

@[simp] theorem locate_eq_reg {p : Param} {r : Reg} : s.locate p = .reg r ↔ p = .reg r := by
  cases p <;> simp [State.locate]

@[simp] theorem locate_eq_stk {p : Param} : s.locate p = .stk ↔ p = .stk := by
  cases p <;> simp [State.locate]

/-- One more read, of a parameter located earlier or now. -/
theorem AfterReads.readLoc (h : AfterReads ps s t) (z : Size) {l : Locator} {p : Param} (hl : l = .stk → p = .stk) :
    AfterReads (ps ++ [p]) s (t.readLoc z l).2 := by
  obtain ⟨sp, n, hsp, rfl⟩ := h
  have hkeep : .stk ∉ ps ++ [p] →
      rspAfterRead ((s.setReg .rsp sp).setQueue (s.queue ++ List.replicate n s.platform.causes.hardwareFault)) z l = s.rsp := by
    intro hp
    simp only [List.mem_append, List.mem_singleton, not_or] at hp
    cases l with
    | stk => exact absurd (hl rfl).symm hp.2
    | _ => exact hsp hp.1
  rcases readLoc_state ((s.setReg .rsp sp).setQueue _) z l with e | e <;> rw [e]
  · exact ⟨_, n, hkeep, rfl⟩
  · refine ⟨_, n + 1, hkeep, ?_⟩
    rw [List.replicate_succ', ← List.append_assoc]
    rfl

theorem AfterReads.readParam (h : AfterReads ps s t) (z : Size) (p : Param) :
    AfterReads (ps ++ [p]) s (t.readParam z p).2 :=
  h.readLoc z locate_eq_stk.1

theorem afterReads_after1 (s : State) (z : Size) (p : Param) : AfterReads [p] s (after1 s z p) :=
  (AfterReads.none s).readParam z p

theorem afterReads_after2 (s : State) (z : Size) (p q : Param) : AfterReads [p, q] s (after2 s z p q) :=
  (afterReads_after1 s z p).readParam z q

/-! ## Handlers -/

/-- The instructions whose result may be a NaN (R271). -/
def drawsNan : Instr → Bool
  | .adf .. | .sbf .. | .mlf .. | .dvf .. | .mdf .. => true
  | _ => false

/-- The instruction divides by its first value, and that is a zero (R246, R276). -/
def DividesByZero (i : Instr) (a : Word) : Prop :=
  match i with
  | .div .. | .mod .. => a = 0
  | .dvf .. | .mdf .. => fIsZero a = true
  | _ => False

/-- What the handler of an instruction with the first value `a` can hand to the destination write (R172). -/
inductive HandlerStep (i : Instr) (a : Word) (s : State) : Handled → Prop where
  | computed (w : Word) : HandlerStep i a s (s, some w)
  | flagged (h : setsRc i = true) (c : Bool) (w : Word) : HandlerStep i a s (s.setRcIf c, some w)
  | drawn (h : drawsNan i = true) (w : Word) : HandlerStep i a s (s.countNan, some w)
  | divided (h : DividesByZero i a) : HandlerStep i a s (s.raise .divideByZero, none)

theorem adcHandler_flags (z : Size) (a b : Word) (s : State) : ∃ c w, adcHandler z a b s = (s.setRcIf c, some w) := by
  unfold adcHandler
  split <;> exact ⟨_, _, rfl⟩

theorem sbbHandler_flags (z : Size) (a b : Word) (s : State) : ∃ c w, sbbHandler z a b s = (s.setRcIf c, some w) := by
  unfold sbbHandler
  split <;> exact ⟨_, _, rfl⟩

theorem HandlerStep.floatResult {a : Word} (h : drawsNan i = true) (s : State) (r : Option Word) :
    HandlerStep i a s (floatResult s r) := by
  cases r with
  | none => exact .drawn h _
  | some w => exact .computed w

/-- A handler that raises DivideByZero on a zero divisor and else does `k`. -/
theorem HandlerStep.unlessZero {a : Word} {c : Prop} [Decidable c] {k : Handled} (h : c → DividesByZero i a)
    (hk : HandlerStep i a s k) : HandlerStep i a s (if c then (s.raise .divideByZero, none) else k) := by
  split
  · exact .divided (h ‹c›)
  · exact hk

/-! ## Instructions that read sources and write one destination -/

/-- The instruction has roles `s,d` and a handler (R158, R172). -/
structure UnaryMeaning (i : Instr) (z : Size) (p d : Param) : Prop where
  written : writtenParams i = [d]
  runs : ∃ h, (∀ s, exec i s = runUnary z p d (s.lengthOf i) h s) ∧ ∀ a s, HandlerStep i a s (h a s)

/-- The instruction has roles `s,s,d` and a handler. -/
structure BinaryMeaning (i : Instr) (z : Size) (p q d : Param) : Prop where
  written : writtenParams i = [d]
  runs : ∃ h, (∀ s, exec i s = runBinary z p q d (s.lengthOf i) h s) ∧ ∀ a b s, HandlerStep i a s (h a b s)

/-- The two-parameter instructions of that shape. -/
def unaryForms : List (Size → Param → Param → Instr) := [.mov, .neg, .not, .inc, .dec]

theorem unaryForms_meaning {mk : Size → Param → Param → Instr} (hm : mk ∈ unaryForms) (z : Size) (p d : Param) :
    UnaryMeaning (mk z p d) z p d := by
  simp only [unaryForms, List.mem_cons, List.not_mem_nil, or_false] at hm
  rcases hm with rfl | rfl | rfl | rfl | rfl
  · exact ⟨rfl, fun v s => (s, some v), fun _ => rfl, fun _ _ => .computed _⟩
  · exact ⟨rfl, negHandler z, fun _ => rfl, fun _ _ => .computed _⟩
  · exact ⟨rfl, fun a s => (s, some (~~~a)), fun _ => rfl, fun _ _ => .computed _⟩
  · exact ⟨rfl, incHandler z, fun _ => rfl, fun _ _ => .flagged rfl _ _⟩
  · exact ⟨rfl, decHandler z, fun _ => rfl, fun _ _ => .flagged rfl _ _⟩

theorem rcForms_meaning {mk : Size → Param → Param → Param → Instr} (hm : mk ∈ rcForms) (z : Size) (p q d : Param) :
    BinaryMeaning (mk z p q d) z p q d := by
  simp only [rcForms, List.mem_cons, List.not_mem_nil, or_false] at hm
  rcases hm with rfl | rfl | rfl | rfl | rfl | rfl | rfl | rfl | rfl | rfl | rfl
  · exact ⟨rfl, addHandler z, fun _ => rfl, fun _ _ _ => .flagged rfl _ _⟩
  · exact ⟨rfl, subHandler z, fun _ => rfl, fun _ _ _ => .flagged rfl _ _⟩
  · refine ⟨rfl, adcHandler z, fun _ => rfl, fun a b s => ?_⟩
    obtain ⟨c, w, e⟩ := adcHandler_flags z a b s
    exact e ▸ .flagged rfl c w
  · refine ⟨rfl, sbbHandler z, fun _ => rfl, fun a b s => ?_⟩
    obtain ⟨c, w, e⟩ := sbbHandler_flags z a b s
    exact e ▸ .flagged rfl c w
  · exact ⟨rfl, mulHandler z, fun _ => rfl, fun _ _ _ => .flagged rfl _ _⟩
  all_goals exact ⟨rfl, compareHandler _, fun _ => rfl, fun _ _ _ => .flagged rfl _ _⟩

theorem plainForms_meaning {mk : Size → Param → Param → Param → Instr} (hm : mk ∈ plainForms) (z : Size) (p q d : Param) :
    BinaryMeaning (mk z p q d) z p q d := by
  simp only [plainForms, List.mem_cons, List.not_mem_nil, or_false] at hm
  rcases hm with rfl | rfl | rfl | rfl | rfl | rfl | rfl | rfl | rfl | rfl | rfl | rfl
  · exact ⟨rfl, divHandler z, fun _ => rfl, fun _ _ _ => .unlessZero id (.computed _)⟩
  · exact ⟨rfl, modHandler z, fun _ => rfl, fun _ _ _ => .unlessZero id (.computed _)⟩
  iterate 6 exact ⟨rfl, pureBinary _, fun _ => rfl, fun _ _ _ => .computed _⟩
  all_goals exact ⟨rfl, shiftHandler z _, fun _ => rfl, fun _ _ _ => .computed _⟩

theorem floatForms_meaning {mk : Size → Param → Param → Param → Instr} (hm : mk ∈ floatForms) (z : Size) (p q d : Param) :
    BinaryMeaning (mk z p q d) z p q d := by
  simp only [floatForms, List.mem_cons, List.not_mem_nil, or_false] at hm
  rcases hm with rfl | rfl | rfl | rfl | rfl
  · exact ⟨rfl, adfHandler, fun _ => rfl, fun _ _ _ => .floatResult rfl _ _⟩
  · exact ⟨rfl, sbfHandler, fun _ => rfl, fun _ _ _ => .floatResult rfl _ _⟩
  · exact ⟨rfl, mlfHandler, fun _ => rfl, fun _ _ _ => .floatResult rfl _ _⟩
  · exact ⟨rfl, dvfHandler, fun _ => rfl, fun _ _ _ => .unlessZero id (.floatResult rfl _ _)⟩
  · exact ⟨rfl, mdfHandler, fun _ => rfl, fun _ _ _ => .unlessZero id (.floatResult rfl _ _)⟩

/-- `t` is `s` after an instruction of that shape: its sources `ps`, the first of value `a`, were read, giving `s'`; then its
handler ran, parameter `d` was written, and RIP advanced. -/
structure ReadsThenWrites (i : Instr) (z : Size) (ps : List Param) (d : Param) (a : Word) (s s' t : State) : Prop where
  reads : AfterReads ps s s'
  writes : ∃ h, HandlerStep i a s' h ∧ t = (finishWrite z (s'.locate d) h).advance (s.lengthOf i)

theorem UnaryMeaning.completes {p d : Param} (m : UnaryMeaning i z p d) (h : exec i s = .next t) :
    ReadsThenWrites i z [p] d (val1 s z p) s (after1 s z p) t := by
  obtain ⟨k, hk, hs⟩ := m.runs
  rw [hk, runUnary_next] at h
  exact ⟨afterReads_after1 s z p, _, hs _ _, h.2⟩

theorem BinaryMeaning.completes {p q d : Param} (m : BinaryMeaning i z p q d) (h : exec i s = .next t) :
    ReadsThenWrites i z [p, q] d (val1 s z p) s (after2 s z p q) t := by
  obtain ⟨k, hk, hs⟩ := m.runs
  rw [hk, runBinary_next] at h
  exact ⟨afterReads_after2 s z p q, _, hs _ _ _, h.2⟩

/-! ## What an instruction can do -/

/-- What `exec` can answer: one constructor for each shape of instruction. -/
inductive ExecResult (s : State) : Instr → State → Prop where
  | ordinary {i : Instr} {z : Size} {ps : List Param} {d : Param} {a : Word} {s' t : State} (hd : writtenParams i = [d])
      (h : ReadsThenWrites i z ps d a s s' t) : ExecResult s i t
  | transferred {i : Instr} {ps : List Param} {s' : State}
      (hi : ∃ z p q, i = .nop z ∨ i = .jmp z p ∨ i = .jz z p q ∨ i = .jnz z p q) (h : AfterReads ps s s') (w : Word) :
      ExecResult s i (s'.setReg .rip w)
  | xchg {z : Size} {p q : Param} {s' : State} (h : AfterReads [p, q] s s') (v w : Word) (len : Nat) :
      ExecResult s (.xchg z p q)
        (((s'.writeLoc z (s.locate p) v).writeLoc z ((after1 s z p).locate q) w).advance len)
  | push {z : Size} {p : Param} {s' : State} (h : AfterReads [p] s s') (v : Word) (len : Nat) :
      ExecResult s (.push z p) ((s'.push z v).advance len)
  | pop {z : Size} {p : Param} {s' : State} (h : AfterReads [.stk] s s') (v : Word) (len : Nat) :
      ExecResult s (.pop z p) ((s'.writeLoc z (s.locate p) v).advance len)
  | int {z : Size} {p : Param} {s' : State} (h : AfterReads [p] s s') (c : Cause) (len : Nat) :
      ExecResult s (.int z p) ((s'.enqueue c).advance len)
  | dbg {z : Size} {p : Param} (v : Word) (len : Nat) :
      ExecResult s (.dbg z p) ((s.countClock.writeLoc z (s.locate p) v).advance len)
  | hlt (z : Size) : ExecResult s (.hlt z) (s.emit .quantumWait)
  | pau (z : Size) (len : Nat) : ExecResult s (.pau z) (((s.setPaused true).emit .breakpoint).advance len)
  | eint (z : Size) : ExecResult s (.eint z) s.returnFromInterrupt
  | inte (z : Size) (len : Nat) : ExecResult s (.inte z) ((s.setIe true).advance len)
  | intd (z : Size) (len : Nat) : ExecResult s (.intd z) ((s.setIe false).advance len)

theorem ExecResult.unary {mk : Size → Param → Param → Instr} {p d : Param} (hm : mk ∈ unaryForms)
    (h : exec (mk z p d) s = .next t) : ExecResult s (mk z p d) t :=
  have m := unaryForms_meaning hm z p d
  .ordinary m.written (m.completes h)

theorem ExecResult.binary {mk : Size → Param → Param → Param → Instr} {p q d : Param}
    (hm : mk ∈ rcForms ++ plainForms ++ floatForms) (h : exec (mk z p q d) s = .next t) : ExecResult s (mk z p q d) t := by
  have m : BinaryMeaning (mk z p q d) z p q d := by
    simp only [List.mem_append] at hm
    rcases hm with (hm | hm) | hm
    · exact rcForms_meaning hm z p q d
    · exact plainForms_meaning hm z p q d
    · exact floatForms_meaning hm z p q d
  exact .ordinary m.written (m.completes h)

/-- INT enqueues some cause, InvalidInstruction if its operand names none (R221, R222). -/
theorem requestCause_enqueues (s : State) (v : Word) : ∃ c, s.requestCause v = s.enqueue c := by
  unfold State.requestCause
  split <;> exact ⟨_, rfl⟩

/-- The state after a conditional jump's reads, with RIP the target or advanced. -/
theorem runJump_next {p q : Param} {len : Nat} {taken : Word → Bool} (h : runJump z p q len taken s = .next t) :
    ∃ w, t = (after2 s z p q).setReg .rip w := by
  unfold runJump at h
  dsimp only at h
  split at h <;> cases h <;> exact ⟨_, rfl⟩

theorem exec_result (h : exec i s = .next t) : ExecResult s i t := by
  cases i with
  | mov z p d | neg z p d | not z p d | inc z p d | dec z p d => exact .unary (by simp [unaryForms]) h
  | nop z => cases h; exact .transferred ⟨z, .stk, .stk, .inl rfl⟩ (.none s) _
  | jmp z p => cases h; exact .transferred ⟨z, p, .stk, .inr (.inl rfl)⟩ (afterReads_after1 s z p) _
  | jz z p q =>
    simp only [exec, execJz] at h
    obtain ⟨w, rfl⟩ := runJump_next h
    exact .transferred ⟨z, p, q, .inr (.inr (.inl rfl))⟩ (afterReads_after2 s z p q) w
  | jnz z p q =>
    simp only [exec, execJnz] at h
    obtain ⟨w, rfl⟩ := runJump_next h
    exact .transferred ⟨z, p, q, .inr (.inr (.inr rfl))⟩ (afterReads_after2 s z p q) w
  | xchg z p q =>
    simp only [exec, execXchg] at h
    split at h
    · cases h; exact .xchg (afterReads_after2 s z p q) _ _ _
    · cases h
  | push z p => cases h; exact .push (afterReads_after1 s z p) _ _
  | pop z p =>
    simp only [exec, execPop] at h
    split at h
    · cases h; exact .pop (afterReads_after1 s z .stk) _ _
    · cases h
  | int z p =>
    cases h
    obtain ⟨c, e⟩ := requestCause_enqueues (after1 s z p) (val1 s z p)
    exact e ▸ .int (afterReads_after1 s z p) c _
  | dbg z p =>
    simp only [exec, execDbg] at h
    split at h
    · cases h; exact .dbg _ _
    · cases h
  | hlt z => cases h; exact .hlt z
  | pau z => cases h; exact .pau z _
  | eint z => cases h; exact .eint z
  | inte z => cases h; exact .inte z _
  | intd z => cases h; exact .intd z _
  | _ => exact .binary (by simp [rcForms, plainForms, floatForms]) h

end Sys2Proof.Proofs

namespace Sys2Proof.Proofs

open Sys2Proof.Machine Sys2Proof.Claims

variable {s t u : State} {ps : List Param} {i : Instr} {z : Size}

/-! ## What every instruction keeps -/

/-- The platform and RUN are the same, causes were only appended to the queue, and Memory's canonical form is kept. -/
structure Keeps (s t : State) : Prop where
  platform : t.platform = s.platform
  run : t.run = s.run
  queue : ∃ cs, t.queue = s.queue ++ cs
  memory : Memory.wf s.platform.memSize s.mem = true → Memory.wf t.platform.memSize t.mem = true

/-- And the other control flags are the same. -/
structure KeepsControl (s t : State) : Prop extends Keeps s t where
  ie : t.ie = s.ie
  isr : t.isr = s.isr
  pisr : t.pisr = s.pisr
  paused : t.paused = s.paused

/-- The changes that touch neither Memory nor the queue. -/
theorem Keeps.same (hp : t.platform = s.platform) (hr : t.run = s.run) (hq : t.queue = s.queue) (hm : t.mem = s.mem) :
    Keeps s t :=
  ⟨hp, hr, ⟨[], by rw [hq, List.append_nil]⟩, fun h => by rwa [hp, hm]⟩

theorem Keeps.trans (h1 : Keeps s t) (h2 : Keeps t u) : Keeps s u where
  platform := h2.platform.trans h1.platform
  run := h2.run.trans h1.run
  queue := by
    obtain ⟨cs, e⟩ := h1.queue
    obtain ⟨ds, e'⟩ := h2.queue
    exact ⟨cs ++ ds, by rw [e', e, List.append_assoc]⟩
  memory := h2.memory ∘ h1.memory

theorem KeepsControl.trans (h1 : KeepsControl s t) (h2 : KeepsControl t u) : KeepsControl s u where
  toKeeps := h1.toKeeps.trans h2.toKeeps
  ie := h2.ie.trans h1.ie
  isr := h2.isr.trans h1.isr
  pisr := h2.pisr.trans h1.pisr
  paused := h2.paused.trans h1.paused

theorem keeps_refl (s : State) : KeepsControl s s := ⟨.same rfl rfl rfl rfl, rfl, rfl, rfl, rfl⟩

theorem keeps_setReg (s : State) (r : Reg) (v : Word) : KeepsControl s (s.setReg r v) := by
  cases r <;> exact ⟨.same rfl rfl rfl rfl, rfl, rfl, rfl, rfl⟩

theorem keeps_advance (s : State) (len : Nat) : KeepsControl s (s.advance len) := keeps_setReg s .rip _

theorem keeps_append (s : State) (cs : List Cause) : KeepsControl s (s.setQueue (s.queue ++ cs)) :=
  ⟨⟨rfl, rfl, ⟨cs, rfl⟩, id⟩, rfl, rfl, rfl, rfl⟩

theorem keeps_enqueue (s : State) (c : Cause) : KeepsControl s (s.enqueue c) := keeps_append s [c]

theorem keeps_emit (s : State) (e : HostEvent) : KeepsControl s (s.emit e) := ⟨.same rfl rfl rfl rfl, rfl, rfl, rfl, rfl⟩

theorem keeps_countClock (s : State) : KeepsControl s s.countClock := ⟨.same rfl rfl rfl rfl, rfl, rfl, rfl, rfl⟩

theorem keeps_countNan (s : State) : KeepsControl s s.countNan := ⟨.same rfl rfl rfl rfl, rfl, rfl, rfl, rfl⟩

theorem keeps_setRcIf (s : State) (c : Bool) : KeepsControl s (s.setRcIf c) := by
  rcases setRcIf_cases s c with ⟨_, e⟩ | ⟨_, e⟩ <;> rw [e]
  · exact keeps_setReg s _ _
  · exact keeps_refl s

theorem keeps_writeLoc (s : State) (z : Size) (l : Locator) (v : Word) : KeepsControl s (s.writeLoc z l v) := by
  obtain ⟨hie, hisr, hpisr, hrun, hpaused, _, _, _, hplat, hq⟩ := writeLoc_frame s z l v
  refine ⟨⟨hplat, hrun, ?_, writeLoc_memory_wf s z l v⟩, hie, hisr, hpisr, hpaused⟩
  rcases hq with e | e
  · exact ⟨[], by rw [e, List.append_nil]⟩
  · exact ⟨_, e⟩

theorem AfterReads.keeps (h : AfterReads ps s t) : KeepsControl s t := by
  obtain ⟨sp, n, _, rfl⟩ := h
  exact (keeps_setReg s .rsp sp).trans (keeps_append _ _)

theorem HandlerStep.keeps {a : Word} {h : Handled} (hs : HandlerStep i a s h) : KeepsControl s h.1 := by
  cases hs with
  | computed w => exact keeps_refl s
  | flagged _ c w => exact keeps_setRcIf s c
  | drawn _ w => exact keeps_countNan s
  | divided _ => exact keeps_enqueue s _

theorem keeps_finishWrite (z : Size) (l : Locator) (h : Handled) : KeepsControl h.1 (finishWrite z l h) := by
  unfold finishWrite
  split
  · exact keeps_writeLoc _ z l _
  · exact keeps_refl _

theorem ReadsThenWrites.keeps {d : Param} {a : Word} {s' : State} (h : ReadsThenWrites i z ps d a s s' t) :
    KeepsControl s t := by
  obtain ⟨k, hk, rfl⟩ := h.writes
  exact h.reads.keeps.trans (hk.keeps.trans ((keeps_finishWrite z _ k).trans (keeps_advance _ _)))

/-- The instructions other than EINT, INTE, INTD and PAU keep the control flags too. -/
theorem ExecResult.keepsControl (h : ExecResult s i t) :
    KeepsControl s t ∨ ∃ z, i = .eint z ∨ i = .inte z ∨ i = .intd z ∨ i = .pau z := by
  cases h with
  | ordinary _ h => exact .inl h.keeps
  | transferred _ h w => exact .inl (h.keeps.trans (keeps_setReg _ _ _))
  | xchg h v w len =>
    exact .inl (h.keeps.trans ((keeps_writeLoc _ _ _ _).trans ((keeps_writeLoc _ _ _ _).trans (keeps_advance _ _))))
  | push h v len => exact .inl (h.keeps.trans ((keeps_writeLoc _ _ .stk _).trans (keeps_advance _ _)))
  | pop h v len => exact .inl (h.keeps.trans ((keeps_writeLoc _ _ _ _).trans (keeps_advance _ _)))
  | int h c len => exact .inl (h.keeps.trans ((keeps_enqueue _ _).trans (keeps_advance _ _)))
  | dbg v len => exact .inl ((keeps_countClock s).trans ((keeps_writeLoc _ _ _ _).trans (keeps_advance _ _)))
  | hlt z => exact .inl (keeps_emit s _)
  | eint z => exact .inr ⟨z, .inl rfl⟩
  | inte z len => exact .inr ⟨z, .inr (.inl rfl)⟩
  | intd z len => exact .inr ⟨z, .inr (.inr (.inl rfl))⟩
  | pau z len => exact .inr ⟨z, .inr (.inr (.inr rfl))⟩

theorem exec_keeps (h : exec i s = .next t) : Keeps s t := by
  rcases (exec_result h).keepsControl with k | ⟨z, rfl | rfl | rfl | rfl⟩
  · exact k.toKeeps
  all_goals
    cases h
    exact .same rfl rfl rfl rfl

/-- Settles O20: EINT, INTE, INTD and PAU by their next states, every other instruction keeps all the flags. -/
theorem controlFlagsChangeOnlyByTheirInstructions : Obligations.ControlFlagsChangeOnlyByTheirInstructions := by
  intro i s t h
  have hrun := (exec_keeps h).run
  rcases (exec_result h).keepsControl with k | ⟨z, rfl | rfl | rfl | rfl⟩
  · exact ⟨.inl k.ie, .inl k.paused, .inl ⟨k.isr, k.pisr⟩, hrun⟩
  · cases h; exact ⟨.inl rfl, .inl rfl, .inr ⟨z, rfl⟩, hrun⟩
  · cases h; exact ⟨.inr ⟨z, .inl rfl⟩, .inl rfl, .inl ⟨rfl, rfl⟩, hrun⟩
  · cases h; exact ⟨.inr ⟨z, .inr rfl⟩, .inl rfl, .inl ⟨rfl, rfl⟩, hrun⟩
  · cases h; exact ⟨.inl rfl, .inr ⟨z, rfl⟩, .inl ⟨rfl, rfl⟩, hrun⟩

/-! ## The step -/

theorem step_frozen (h : s.run = false ∨ s.paused = true) : step s = .next s := by
  rcases h with h | h <;> simp [step, h]

theorem keeps_fetchDecode (s : State) : Keeps s s.fetchDecode.2 := by
  simp only [State.fetchDecode, raiseFetchFaults_state]
  exact (keeps_append s _).toKeeps

theorem keeps_decodeFault (s : State) : Keeps s s.decodeFault :=
  ((keeps_enqueue s _).trans (keeps_advance _ 8)).toKeeps

/-- A step freezes the machine, or ends with the dispatch check a cycle that kept what every instruction keeps. -/
theorem step_next (h : step s = .next t) : t = s ∨ ∃ u, Keeps s u ∧ t = u.dispatchCheck := by
  unfold step at h
  split at h
  · have hf := keeps_fetchDecode s
    unfold cycle at h
    split at h
    · next x s1 e =>
      rw [e] at hf
      cases h
      exact .inr ⟨_, hf.trans (keeps_decodeFault s1), rfl⟩
    · next j s1 e =>
      rw [e] at hf
      split at h
      · next s2 he =>
        cases h
        exact .inr ⟨s2, hf.trans (exec_keeps he), rfl⟩
      all_goals cases h
  · cases h
    exact .inl rfl

/-- The dispatch check changes neither platform, RUN nor Memory, and removes at most the head of the queue. -/
theorem dispatchCheck_keeps (s : State) :
    s.dispatchCheck.platform = s.platform ∧ s.dispatchCheck.run = s.run ∧ s.dispatchCheck.mem = s.mem ∧
    (s.dispatchCheck.queue = s.queue ∨ ∃ c, s.queue = c :: s.dispatchCheck.queue) := by
  rcases dispatchCheck_cases s with ⟨c, rest, _, _, hq, e⟩ | ⟨_, e⟩ <;> rw [e]
  · exact ⟨rfl, rfl, rfl, .inr ⟨c, hq⟩⟩
  · exact ⟨rfl, rfl, rfl, .inl rfl⟩

theorem good_iff (s : State) :
    s.good = true ↔ Memory.wf s.platform.memSize s.mem = true ∧ platformOk s.platform = true := by
  rw [State.good, Bool.and_eq_true]

theorem good_congr (hp : t.platform = s.platform) (hm : t.mem = s.mem) : t.good = s.good := by
  rw [State.good, State.good, hp, hm]

theorem Keeps.good (h : Keeps s t) (hg : s.good = true) : t.good = true := by
  rw [good_iff] at hg ⊢
  exact ⟨h.memory hg.1, h.platform ▸ hg.2⟩

/-- Settles O15: the cycle keeps the invariant, and the dispatch check touches nothing that it speaks of. -/
theorem stepKeepsGoodState : Obligations.StepKeepsGoodState := by
  intro s t hg h
  rcases step_next h with rfl | ⟨u, k, rfl⟩
  · exact hg
  · obtain ⟨hp, _, hm, _⟩ := dispatchCheck_keeps u
    rw [good_congr hp hm]
    exact k.good hg

/-- Settles O18: neither the cycle nor the dispatch check changes the platform or RUN. -/
theorem stepKeepsPlatformAndRun : Obligations.StepKeepsPlatformAndRun := by
  intro s t h
  rcases step_next h with rfl | ⟨u, k, rfl⟩
  · exact ⟨rfl, rfl⟩
  · obtain ⟨hp, hr, _, _⟩ := dispatchCheck_keeps u
    exact ⟨hp.trans k.platform, hr.trans k.run⟩

/-- Settles O21: the cycle appends, and the dispatch check removes the head or nothing. -/
theorem queueIsFirstInFirstOut : Obligations.QueueIsFirstInFirstOut := by
  intro s t h
  rcases step_next h with rfl | ⟨u, k, rfl⟩
  · exact ⟨[], .inl (List.append_nil _).symm⟩
  · obtain ⟨cs, hcs⟩ := k.queue
    obtain ⟨_, _, _, hq | ⟨c, hq⟩⟩ := dispatchCheck_keeps u
    · exact ⟨cs, .inl (hq.trans hcs)⟩
    · exact ⟨cs, .inr ⟨c, hcs.symm.trans hq⟩⟩

/-- Settles O10: the step's own guard. -/
theorem stoppedOrPausedMachineIsFrozen : Obligations.StoppedOrPausedMachineIsFrozen := fun _ => step_frozen

/-- Settles O14: the platform of reset is checked by evaluation. -/
theorem resetStateIsGood : Obligations.ResetStateIsGood := ⟨by decide, rfl, rfl⟩

end Sys2Proof.Proofs

namespace Sys2Proof.Proofs

open Sys2Proof.Machine Sys2Proof.Claims

variable {s t : State}

/-! ## Moves of the environment -/

/-- A store within the device keeps the invariant. -/
theorem good_store {a : Nat} {bs : List Byte} (hg : s.good = true) (h : a + bs.length ≤ s.platform.memSize) :
    (s.setMem (memStore s.mem a bs)).good = true := by
  rw [good_iff] at hg ⊢
  exact ⟨memStore_wf hg.1 h, hg.2⟩

theorem good_raise {x : CauseName} (hg : s.good = true) : (s.raise x).good = true := hg

theorem good_busRead (dev off : Nat) (hg : s.good = true) : (s.busRead dev off).2.good = true := by
  rcases busRead_state s dev off with e | e <;> rw [e]
  · exact hg
  · exact good_raise hg

theorem good_busWrite (dev off : Nat) (w : Word) (hg : s.good = true) : (s.busWrite dev off w).good = true := by
  have he := busWrite_effect s dev off w
  obtain ⟨_, _, _, _, _, _, _, _, _, _, _, _, _, hp, _⟩ := he.frame
  rw [good_iff] at hg ⊢
  exact ⟨he.memory_wf hg.1, hp ▸ hg.2⟩

theorem good_busReadWords (dev off n : Nat) (hg : s.good = true) : (s.busReadWords dev off n).2.good = true := by
  induction n generalizing s off with
  | zero => exact hg
  | succ n ih => exact ih (off + 1) (good_busRead dev off hg)

theorem good_busWriteWords (dev off : Nat) (ws : List Word) (hg : s.good = true) :
    (s.busWriteWords dev off ws).good = true := by
  induction ws generalizing s off with
  | nil => exact hg
  | cons w ws ih => exact ih (off + 1) (good_busWrite dev off w hg)

theorem good_busCopyWords (srcDev src dstDev dst n : Nat) (hg : s.good = true) :
    (s.busCopyWords srcDev src dstDev dst n).good = true := by
  induction n generalizing s src dst with
  | zero => exact hg
  | succ n ih => exact ih _ _ (good_busWrite dstDev dst _ (good_busRead srcDev src hg))

theorem good_memMove (dst src len : Nat) (hg : s.good = true) : (s.memMove dst src len).good = true := by
  rcases memMove_cases s dst src len with ⟨_, hd, e⟩ | ⟨_, e⟩ <;> rw [e]
  · exact good_store hg (by rwa [memBytes_length])
  · exact good_raise hg

theorem good_busReadBulk (dev off count : Nat) (hg : s.good = true) : (s.busReadBulk dev off count).2.good = true := by
  rcases busReadBulk_cases s dev off count with ⟨_, e⟩ | ⟨_, e⟩ <;> rw [e]
  · rcases memBlockRead_cases s off count with ⟨_, e'⟩ | ⟨_, e'⟩ <;> rw [e']
    · exact hg
    · exact good_raise hg
  · exact good_busReadWords dev off count hg

theorem good_busWriteBulk (dev off : Nat) (ws : List Word) (hg : s.good = true) :
    (s.busWriteBulk dev off ws).good = true := by
  rcases busWriteBulk_cases s dev off ws with ⟨_, e⟩ | ⟨_, e⟩ <;> rw [e]
  · rcases memBlockWrite_cases s off ws with ⟨hin, e'⟩ | ⟨_, e'⟩ <;> rw [e']
    · exact good_store hg (by rwa [blockBytes_length])
    · exact good_raise hg
  · exact good_busWriteWords dev off ws hg

theorem good_busCopyBulk (srcDev src dstDev dst count : Nat) (hg : s.good = true) :
    (s.busCopyBulk srcDev src dstDev dst count).good = true := by
  rcases busCopyBulk_cases s srcDev src dstDev dst count with ⟨_, _, e⟩ | ⟨_, e⟩ <;> rw [e]
  · exact good_memMove dst src _ hg
  · exact good_busCopyWords srcDev src dstDev dst count hg

/-- Settles O16: a move that stores does so within Memory, and no other move touches Memory or the platform. -/
theorem hostMovesKeepGoodState : Obligations.HostMovesKeepGoodState := by
  intro m s t hg h
  cases m <;> simp only [hostMove, Option.ite_none_right_eq_some, Option.some.injEq] at h
  case start => exact h.2 ▸ hg
  case stop => exact h ▸ hg
  case resume => exact h.2 ▸ hg
  case enqueue => exact h ▸ hg
  case busRead dev off => exact h.2 ▸ good_busRead dev off hg
  case busWrite dev off w => exact h.2 ▸ good_busWrite dev off w hg
  case bulkRead dev off n => exact h.2 ▸ good_busReadBulk dev off n hg
  case bulkWrite dev off ws => exact h.2 ▸ good_busWriteBulk dev off ws hg
  case bulkCopy srcDev src dstDev dst n => exact h.2 ▸ good_busCopyBulk srcDev src dstDev dst n hg
  case memMove dst src len => exact h.2 ▸ good_memMove dst src len hg

end Sys2Proof.Proofs

namespace Sys2Proof.Proofs

open Sys2Proof.Machine Sys2Proof.Claims

variable {s t u : State} {ps : List Param} {i : Instr} {z : Size}

/-! ## RC -/

theorem AfterReads.rc (h : AfterReads ps s t) : t.rc = s.rc := by
  obtain ⟨sp, n, _, rfl⟩ := h
  rfl

theorem writeLoc_rc (s : State) (z : Size) {l : Locator} (v : Word) (h : l ≠ .reg .rc) : (s.writeLoc z l v).rc = s.rc :=
  writeLoc_getReg s z v h (by simp)

theorem finishWrite_rc (z : Size) {l : Locator} (h : Handled) (hl : l ≠ .reg .rc) : (finishWrite z l h).rc = h.1.rc := by
  unfold finishWrite
  split
  · exact writeLoc_rc _ z _ hl
  · rfl

theorem HandlerStep.rc {a : Word} {h : Handled} (hs : HandlerStep i a s h) :
    h.1.rc = s.rc ∨ setsRc i = true ∧ h.1.rc = allOnes := by
  cases hs with
  | flagged hi c w =>
    rcases setRcIf_cases s c with ⟨_, e⟩ | ⟨_, e⟩ <;> rw [e]
    · exact .inr ⟨hi, rfl⟩
    · exact .inl rfl
  | _ => exact .inl rfl

/-- An instruction with one destination that is not RC leaves RC alone, or sets it to all ones if it is one that may. -/
theorem ReadsThenWrites.rc {d : Param} {a : Word} {s' : State} (h : ReadsThenWrites i z ps d a s s' t)
    (hd : s'.locate d ≠ .reg .rc) : t.rc = s.rc ∨ setsRc i = true ∧ t.rc = allOnes := by
  obtain ⟨k, hk, rfl⟩ := h.writes
  rw [advance_rc, finishWrite_rc z k hd, ← h.reads.rc]
  exact hk.rc

theorem writtenParams_xchg (z : Size) (p q : Param) : writtenParams (.xchg z p q) = [p, q] := rfl

theorem writtenParams_pop (z : Size) (p : Param) : writtenParams (.pop z p) = [p] := rfl

theorem writtenParams_dbg (z : Size) (p : Param) : writtenParams (.dbg z p) = [p] := rfl

/-- A write through the locator of a parameter that is not RC leaves RC alone. -/
theorem writeLoc_locate_rc (s t : State) (z : Size) {p : Param} (v : Word) (h : .reg .rc ≠ p) :
    (s.writeLoc z (t.locate p) v).rc = s.rc :=
  writeLoc_rc s z v fun e => h (locate_eq_reg.1 e).symm

/-- The shapes other than the one with a handler never touch RC but as a destination. -/
theorem ExecResult.rc (h : ExecResult s i t) (hw : .reg .rc ∉ writtenParams i) :
    t.rc = s.rc ∨ setsRc i = true ∧ t.rc = allOnes := by
  cases h with
  | ordinary hd h =>
    rw [hd, List.mem_singleton] at hw
    exact h.rc fun e => hw (locate_eq_reg.1 e).symm
  | transferred _ h w => exact .inl h.rc
  | xchg h v w len =>
    simp only [writtenParams_xchg, List.mem_cons, List.not_mem_nil, or_false, not_or] at hw
    rw [advance_rc, writeLoc_locate_rc _ _ _ w hw.2, writeLoc_locate_rc _ _ _ v hw.1]
    exact .inl h.rc
  | push h v len => exact .inl ((writeLoc_rc _ _ (l := .stk) v (by simp)).trans h.rc)
  | pop h v len =>
    rw [writtenParams_pop, List.mem_singleton] at hw
    exact .inl ((writeLoc_locate_rc _ _ _ v hw).trans h.rc)
  | int h c len => exact .inl h.rc
  | dbg v len =>
    rw [writtenParams_dbg, List.mem_singleton] at hw
    exact .inl (writeLoc_locate_rc s.countClock s _ v hw)
  | _ => exact .inl rfl

/-- Settles O19, from what each shape of instruction does to RC. -/
theorem hardwareOnlyEverSetsRc : Obligations.HardwareOnlyEverSetsRc := by
  intro i s t h hw
  rcases (exec_result h).rc hw with e | ⟨hi, e⟩
  · exact ⟨.inl e, fun _ => e⟩
  · exact ⟨.inr e, fun hn => absurd hi (by simp [hn])⟩

/-! ## What is appended to the queue -/

theorem onlyHardwareFaults_trans (h1 : OnlyHardwareFaults s t) (hp : t.platform = s.platform)
    (h2 : OnlyHardwareFaults t u) : OnlyHardwareFaults s u := by
  obtain ⟨n, e⟩ := h1
  obtain ⟨m, e'⟩ := h2
  exact ⟨n + m, by rw [e', e, hp, List.append_assoc, List.replicate_append_replicate]⟩

theorem onlyHardwareFaults_same (h : t.queue = s.queue) : OnlyHardwareFaults s t :=
  ⟨0, by rw [h, List.replicate_zero, List.append_nil]⟩

theorem onlyHardwareFaults_writeLoc (s : State) (z : Size) (l : Locator) (v : Word) :
    OnlyHardwareFaults s (s.writeLoc z l v) := by
  obtain ⟨_, _, _, _, _, _, _, _, _, e | e⟩ := writeLoc_frame s z l v
  · exact onlyHardwareFaults_same e
  · exact ⟨1, e⟩

theorem AfterReads.onlyHardwareFaults (h : AfterReads ps s t) : OnlyHardwareFaults s t := by
  obtain ⟨sp, n, _, rfl⟩ := h
  exact ⟨n, rfl⟩

theorem setRcIf_queue (s : State) (c : Bool) : (s.setRcIf c).queue = s.queue := by cases c <;> rfl

/-- A handler that hands on a word leaves the queue alone; one that does not has divided by zero. -/
theorem HandlerStep.queue {a : Word} {h : Handled} (hs : HandlerStep i a s h) :
    (∃ w, h.2 = some w) ∧ h.1.queue = s.queue ∨
    h.2 = none ∧ DividesByZero i a ∧ h.1.queue = s.queue ++ [s.platform.causes.divideByZero] := by
  cases hs with
  | flagged _ c w => exact .inl ⟨⟨w, rfl⟩, setRcIf_queue s c⟩
  | divided h => exact .inr ⟨rfl, h, rfl⟩
  | _ => exact .inl ⟨⟨_, rfl⟩, rfl⟩

theorem ReadsThenWrites.queue {d : Param} {a : Word} {s' : State} (h : ReadsThenWrites i z ps d a s s' t) :
    OnlyHardwareFaults s t ∨ DividesByZero i a ∧ DividedByZero s t := by
  obtain ⟨k, hk, rfl⟩ := h.writes
  have hr := h.reads.onlyHardwareFaults
  have hp := h.reads.keeps.platform
  rcases hk.queue with ⟨⟨w, hw⟩, hq⟩ | ⟨hn, hz, hq⟩
  · have hf : OnlyHardwareFaults k.1 (finishWrite z (s'.locate d) k) := by
      simpa only [finishWrite, hw] using onlyHardwareFaults_writeLoc k.1 z (s'.locate d) w
    have hk' : OnlyHardwareFaults s' k.1 := onlyHardwareFaults_same hq
    exact .inl (onlyHardwareFaults_trans hr hp (onlyHardwareFaults_trans hk' hk.keeps.platform hf))
  · obtain ⟨n, e⟩ := hr
    refine .inr ⟨hz, n, ?_⟩
    simp only [finishWrite, hn]
    rw [advance_queue, hq, e, hp]

/-! ## NaN draws -/

theorem AfterReads.nanDraws (h : AfterReads ps s t) : t.nanDraws = s.nanDraws := by
  obtain ⟨sp, n, _, rfl⟩ := h
  rfl

theorem writeLoc_nanDraws (s : State) (z : Size) (l : Locator) (v : Word) : (s.writeLoc z l v).nanDraws = s.nanDraws := by
  obtain ⟨_, _, _, _, _, _, _, h, _⟩ := writeLoc_frame s z l v
  exact h

theorem setRcIf_nanDraws (s : State) (c : Bool) : (s.setRcIf c).nanDraws = s.nanDraws := by cases c <;> rfl

theorem HandlerStep.nanDraws {a : Word} {h : Handled} (hs : HandlerStep i a s h) (hi : drawsNan i = false) :
    h.1.nanDraws = s.nanDraws := by
  cases hs with
  | flagged _ c w => exact setRcIf_nanDraws s c
  | drawn h w => rw [hi] at h; cases h
  | _ => rfl

theorem ReadsThenWrites.nanDraws {d : Param} {a : Word} {s' : State} (h : ReadsThenWrites i z ps d a s s' t)
    (hi : drawsNan i = false) : t.nanDraws = s.nanDraws := by
  obtain ⟨k, hk, rfl⟩ := h.writes
  have hf : (finishWrite z (s'.locate d) k).nanDraws = k.1.nanDraws := by
    unfold finishWrite
    split
    · exact writeLoc_nanDraws _ _ _ _
    · rfl
  exact hf.trans ((hk.nanDraws hi).trans h.reads.nanDraws)

/-! ## Frames -/

/-- Every register but those named is unchanged, nothing is stored but at the addresses given, and the control flags, the
record of the environment and the platform are the same. -/
structure Frame (named : Reg → Prop) (z : Size) (addrs : List Word) (s t : State) : Prop where
  regs : ∀ r, ¬named r → t.getReg r = s.getReg r
  control : SameControl s t
  record : SameRecord s t
  platform : t.platform = s.platform
  stores : OnlyStoresAt z addrs s t

theorem onlyStoresAt_trans {a b : List Word} (h1 : OnlyStoresAt z a s t) (hp : t.platform = s.platform)
    (h2 : OnlyStoresAt z b t u) : OnlyStoresAt z (a ++ b) s u := by
  obtain ⟨hm1, hd1⟩ := h1
  obtain ⟨hm2, hd2⟩ := h2
  rw [hp] at hm2 hd2
  refine ⟨fun x hx => ?_, fun hc => ?_⟩
  · exact (hm2 x fun y hy => hx y (List.mem_append_right a hy)).trans
      (hm1 x fun y hy => hx y (List.mem_append_left b hy))
  · obtain ⟨hv1, hp1, ht1, hc1⟩ := hd1 fun y hy => hc y (List.mem_append_left b hy)
    obtain ⟨hv2, hp2, ht2, hc2⟩ := hd2 fun y hy => hc y (List.mem_append_right a hy)
    exact ⟨hv2.trans hv1, hp2.trans hp1, ht2.trans ht1, hc2.trans hc1⟩

theorem Frame.trans {n m : Reg → Prop} {a b : List Word} (h1 : Frame n z a s t) (h2 : Frame m z b t u) :
    Frame (fun r => n r ∨ m r) z (a ++ b) s u where
  regs r hr := (h2.regs r fun h => hr (.inr h)).trans (h1.regs r fun h => hr (.inl h))
  control := by
    obtain ⟨hie, hisr, hpisr, hrun, hpaused⟩ := h1.control
    obtain ⟨hie', hisr', hpisr', hrun', hpaused'⟩ := h2.control
    exact ⟨hie'.trans hie, hisr'.trans hisr, hpisr'.trans hpisr, hrun'.trans hrun, hpaused'.trans hpaused⟩
  record := ⟨h2.record.1.trans h1.record.1, h2.record.2.trans h1.record.2⟩
  platform := h2.platform.trans h1.platform
  stores := onlyStoresAt_trans h1.stores h1.platform h2.stores

/-- A frame may name more. -/
theorem Frame.mono {n m : Reg → Prop} {a b : List Word} (h : Frame n z a s t) (hn : ∀ r, n r → m r) (ha : a ⊆ b) :
    Frame m z b s t where
  regs r hr := h.regs r fun h => hr (hn r h)
  control := h.control
  record := h.record
  platform := h.platform
  stores := ⟨fun x hx => h.stores.1 x fun y hy => hx y (ha hy), fun hc => h.stores.2 fun y hy => hc y (ha hy)⟩

theorem frame_refl (s : State) (z : Size) : Frame (fun _ => False) z [] s s :=
  ⟨fun _ _ => rfl, ⟨rfl, rfl, rfl, rfl, rfl⟩, ⟨rfl, rfl⟩, rfl, fun _ _ => rfl, fun _ => ⟨rfl, rfl, rfl, rfl⟩⟩

theorem frame_setReg (s : State) (z : Size) (q : Reg) (v : Word) : Frame (· = q) z [] s (s.setReg q v) where
  regs r hr := getReg_setReg_ne s v hr
  control := by cases q <;> exact ⟨rfl, rfl, rfl, rfl, rfl⟩
  record := by cases q <;> exact ⟨rfl, rfl⟩
  platform := by cases q <;> rfl
  stores := by cases q <;> exact ⟨fun _ _ => rfl, fun _ => ⟨rfl, rfl, rfl, rfl⟩⟩

/-- The queue and the count of NaN draws are no part of a frame. -/
theorem frame_setQueue (s : State) (z : Size) (q : List Cause) : Frame (fun _ => False) z [] s (s.setQueue q) where
  regs r _ := by cases r <;> rfl
  control := ⟨rfl, rfl, rfl, rfl, rfl⟩
  record := ⟨rfl, rfl⟩
  platform := rfl
  stores := ⟨fun _ _ => rfl, fun _ => ⟨rfl, rfl, rfl, rfl⟩⟩

theorem frame_countNan (s : State) (z : Size) : Frame (fun _ => False) z [] s s.countNan where
  regs r _ := by cases r <;> rfl
  control := ⟨rfl, rfl, rfl, rfl, rfl⟩
  record := ⟨rfl, rfl⟩
  platform := rfl
  stores := ⟨fun _ _ => rfl, fun _ => ⟨rfl, rfl, rfl, rfl⟩⟩

theorem AfterReads.frame (h : AfterReads ps s t) (z : Size) : Frame (fun r => r = .rsp ∧ .stk ∈ ps) z [] s t := by
  obtain ⟨sp, n, hsp, rfl⟩ := h
  by_cases hs : .stk ∈ ps
  · exact ((frame_setReg s z .rsp sp).trans (frame_setQueue _ z _)).mono (by simp [hs]) (by simp)
  · rw [hsp hs]
    exact (frame_setQueue s z _).mono (by simp) (by simp)

/-- A data write stores at its address only. -/
theorem dataWrite_onlyStoresAt (s : State) (addr : Word) (z : Size) (v : Word)
    (hw : Memory.wf s.platform.memSize s.mem = true) : OnlyStoresAt z [addr] s (s.dataWrite addr z v) := by
  simp only [OnlyStoresAt, List.mem_singleton, forall_eq, InStore, ReachesConfig]
  unfold State.dataWrite
  split
  · next hid =>
    refine ⟨fun x hx => memDevWrite_outside s _ _ _ hw ?_, fun _ => ?_⟩
    · by_contra hc
      exact hx (.inl ⟨hid, by omega, by omega⟩)
    · rcases memDevWrite_cases s (routeOf s.platform addr).2 z.bytes (v.toNat % 2 ^ z.bits) with ⟨_, e⟩ | ⟨_, e⟩ <;>
        rw [e] <;> exact ⟨rfl, rfl, rfl, rfl⟩
  · next hid =>
    unfold State.busWrite
    split
    · next hdev =>
      refine ⟨fun x hx => memDevWrite_outside s _ _ _ hw ?_, fun _ => ?_⟩
      · by_contra hc
        exact hx (.inr ⟨hid, hdev, by omega, by omega⟩)
      · rcases memDevWrite_cases s (routeOf s.platform addr).2 8 (truncTo z v).toNat with ⟨_, e⟩ | ⟨_, e⟩ <;>
          rw [e] <;> exact ⟨rfl, rfl, rfl, rfl⟩
    · next hdev =>
      refine ⟨fun x _ => ?_, fun hc => absurd ⟨hid, hdev⟩ hc⟩
      rcases cfgWrite_cases s (routeOf s.platform addr).2 (truncTo z v) with e | e | e | e | ⟨c, e⟩ | e <;> rw [e] <;> rfl
    all_goals exact ⟨fun _ _ => rfl, fun _ => ⟨rfl, rfl, rfl, rfl⟩⟩

/-- A destination write changes its register, or stores at its address, moving RSP where it is a push. -/
theorem frame_writeLoc (s : State) (z : Size) (l : Locator) (v : Word) (hw : Memory.wf s.platform.memSize s.mem = true) :
    Frame (fun r => l = .reg r ∨ (r = .rsp ∧ l = .stk)) z (storeAddress z s l).toList s (s.writeLoc z l v) := by
  obtain ⟨hie, hisr, hpisr, hrun, hpaused, hev, hclock, _, hplat, _⟩ := writeLoc_frame s z l v
  refine ⟨fun r hr => ?_, ⟨hie, hisr, hpisr, hrun, hpaused⟩, ⟨hev, hclock⟩, hplat, ?_⟩
  · exact writeLoc_getReg s z v (fun h => hr (.inl h)) fun h => hr (.inr h)
  · cases l with
    | reg q => exact (frame_setReg s z q v).stores
    | imm w => exact (frame_refl s z).stores
    | mem a => exact dataWrite_onlyStoresAt s a z v hw
    | stk =>
      have hsp := (frame_setReg s z .rsp (s.rsp - sizeWord z)).stores
      exact onlyStoresAt_trans hsp rfl (dataWrite_onlyStoresAt _ _ z v hw)

theorem frame_finishWrite (z : Size) (l : Locator) (h : Handled) (hw : Memory.wf h.1.platform.memSize h.1.mem = true) :
    Frame (fun r => l = .reg r ∨ (r = .rsp ∧ l = .stk)) z (storeAddress z h.1 l).toList h.1 (finishWrite z l h) := by
  unfold finishWrite
  split
  · exact frame_writeLoc _ z l _ hw
  · exact (frame_refl h.1 z).mono (by simp) (by simp)

theorem HandlerStep.frame {a : Word} {h : Handled} (hs : HandlerStep i a s h) (z : Size) :
    Frame (fun r => r = .rc ∧ setsRc i = true) z [] s h.1 := by
  cases hs with
  | computed w => exact (frame_refl s z).mono (by simp) (by simp)
  | flagged hi c w =>
    rcases setRcIf_cases s c with ⟨_, e⟩ | ⟨_, e⟩ <;> rw [e]
    · exact (frame_setReg s z .rc _).mono (by simp [hi]) (by simp)
    · exact (frame_refl s z).mono (by simp) (by simp)
  | drawn _ w => exact (frame_countNan s z).mono (by simp) (by simp)
  | divided _ => exact (frame_setQueue s z _).mono (by simp) (by simp)

theorem storeAddress_congr (h : t.rsp = s.rsp) (z : Size) (l : Locator) : storeAddress z t l = storeAddress z s l := by
  cases l <;> simp [storeAddress, h]

/-- What an instruction with sources `ps` and one destination leaves unchanged. -/
theorem ReadsThenWrites.frame {d : Param} {a : Word} {s' : State} (h : ReadsThenWrites i z ps d a s s' t)
    (hw : Memory.wf s.platform.memSize s.mem = true) :
    Frame (fun r => r = .rip ∨ (r = .rc ∧ setsRc i = true) ∨ s'.locate d = .reg r ∨ (r = .rsp ∧ (.stk ∈ ps ∨ d = .stk))) z
      (storeAddress z s' (s'.locate d)).toList s t := by
  obtain ⟨k, hk, rfl⟩ := h.writes
  have hrsp : k.1.rsp = s'.rsp := (hk.frame z).regs .rsp (by simp)
  have hf := frame_finishWrite z (s'.locate d) k ((h.reads.keeps.trans hk.keeps).memory hw)
  rw [storeAddress_congr hrsp] at hf
  refine ((h.reads.frame z).trans ((hk.frame z).trans (hf.trans (frame_setReg _ z .rip _)))).mono ?_ (by simp)
  rintro r (⟨hr, hs⟩ | hc | (hd | ⟨hr, hs⟩) | hr)
  · exact .inr (.inr (.inr ⟨hr, .inl hs⟩))
  · exact .inr (.inl hc)
  · exact .inr (.inr (.inl hd))
  · exact .inr (.inr (.inr ⟨hr, .inr (locate_eq_stk.1 hs)⟩))
  · exact .inl hr

/-! ## The frames of the groups of instructions -/

theorem rcForms_kind {mk : Size → Param → Param → Param → Instr} (hm : mk ∈ rcForms) (z : Size) (p q d : Param) (a : Word) :
    drawsNan (mk z p q d) = false ∧ ¬DividesByZero (mk z p q d) a := by
  simp only [rcForms, List.mem_cons, List.not_mem_nil, or_false] at hm
  rcases hm with rfl | rfl | rfl | rfl | rfl | rfl | rfl | rfl | rfl | rfl | rfl <;> exact ⟨rfl, id⟩

/-- Of the plain forms only DIV and MOD divide, and none sets RC or draws a NaN. -/
theorem plainForms_kind {mk : Size → Param → Param → Param → Instr} (hm : mk ∈ plainForms) (z : Size) (p q d : Param)
    (a : Word) : drawsNan (mk z p q d) = false ∧ setsRc (mk z p q d) = false ∧
      (DividesByZero (mk z p q d) a → (mk = .div ∨ mk = .mod) ∧ a = 0) := by
  simp only [plainForms, List.mem_cons, List.not_mem_nil, or_false] at hm
  rcases hm with rfl | rfl | rfl | rfl | rfl | rfl | rfl | rfl | rfl | rfl | rfl | rfl
  · exact ⟨rfl, rfl, fun h => ⟨.inl rfl, h⟩⟩
  · exact ⟨rfl, rfl, fun h => ⟨.inr rfl, h⟩⟩
  all_goals exact ⟨rfl, rfl, False.elim⟩

theorem unaryForms_kind {mk : Size → Param → Param → Instr} (hm : mk ∈ unaryForms) (z : Size) (p d : Param) (a : Word) :
    drawsNan (mk z p d) = false ∧ ¬DividesByZero (mk z p d) a := by
  simp only [unaryForms, List.mem_cons, List.not_mem_nil, or_false] at hm
  rcases hm with rfl | rfl | rfl | rfl | rfl <;> exact ⟨rfl, id⟩

/-- The registers of a frame, with RIP named apart. -/
theorem Frame.sameRegistersBut {n m : Reg → Prop} {a : List Word} (h : Frame n z a s t) (hn : ∀ r, n r → r = .rip ∨ m r) :
    SameRegistersBut m s t :=
  fun r hr hm => h.regs r fun h => (hn r h).elim hr hm

/-- Settles O55: the frame of reads, handler and one destination write, for handlers that may set RC. -/
theorem rcSettingInstructionsFrame : Obligations.RcSettingInstructionsFrame := by
  intro mk hm s t z p q d hw he
  have h := (rcForms_meaning hm z p q d).completes he
  obtain ⟨hnan, hdiv⟩ := rcForms_kind hm z p q d (val1 s z p)
  have f := h.frame hw
  refine ⟨f.sameRegistersBut ?_, fun hl => (h.rc hl).imp_right And.right, f.control, f.record, h.nanDraws hnan, f.platform,
    h.queue.resolve_right fun hz => hdiv hz.1, f.stores⟩
  rintro r (hr | ⟨hr, _⟩ | hd | ⟨hr, hs⟩)
  · exact .inl hr
  · exact .inr (.inl hr)
  · exact .inr (.inr (.inl hd))
  · exact .inr (.inr (.inr ⟨hr, by simpa [eq_comm, or_assoc] using hs⟩))

/-- Settles O56: the same frame for handlers that never set RC, two of which may divide by zero. -/
theorem plainInstructionsFrame : Obligations.PlainInstructionsFrame := by
  intro mk hm s t z p q d hw he
  have h := (plainForms_meaning hm z p q d).completes he
  obtain ⟨hnan, hrc, hdiv⟩ := plainForms_kind hm z p q d (val1 s z p)
  have f := h.frame hw
  refine ⟨f.sameRegistersBut ?_, f.control, f.record, h.nanDraws hnan, f.platform,
    h.queue.imp_right fun ⟨hz, hq⟩ => ⟨(hdiv hz).1, (hdiv hz).2, hq⟩, f.stores⟩
  rintro r (hr | ⟨_, hc⟩ | hd | ⟨hr, hs⟩)
  · exact .inl hr
  · rw [hrc] at hc; cases hc
  · exact .inr (.inl hd)
  · exact .inr (.inr ⟨hr, by simpa [eq_comm, or_assoc] using hs⟩)

/-- Settles O58: the same frame with one source. -/
theorem twoParameterInstructionsFrame : Obligations.TwoParameterInstructionsFrame := by
  intro mk hm s t z p d hw he
  have h := (unaryForms_meaning hm z p d).completes he
  obtain ⟨hnan, hdiv⟩ := unaryForms_kind hm z p d (val1 s z p)
  have f := h.frame hw
  refine ⟨f.sameRegistersBut ?_, fun hl => (h.rc hl).imp_right And.right, f.control, f.record, h.nanDraws hnan, f.platform,
    h.queue.resolve_right fun hz => hdiv hz.1, f.stores⟩
  rintro r (hr | hc | hd | ⟨hr, hs⟩)
  · exact .inl hr
  · exact .inr (.inl hc)
  · exact .inr (.inr (.inl hd))
  · exact .inr (.inr (.inr ⟨hr, by simpa [eq_comm] using hs⟩))

end Sys2Proof.Proofs

namespace Sys2Proof.Proofs

open Sys2Proof.Machine Sys2Proof.Claims

/-! ## Pieces of big-endian bytes -/

/-- Byte `i` of `n`, counted from the most significant one (R62). -/
theorem beBytes_getElem (n v i : Nat) (h : i < (beBytes n v).length) :
    (beBytes n v)[i] = BitVec.ofNat 8 (v / 256 ^ (n - 1 - i)) := by
  induction n generalizing i with
  | zero => simp at h
  | succ n ih =>
    cases i with
    | zero => rfl
    | succ i =>
      simp only [beBytes, List.getElem_cons_succ]
      rw [ih, Nat.add_sub_cancel, Nat.sub_sub, Nat.add_comm 1 i]

/-- `k` bytes from byte `j` on are the bytes of the value without its bytes below them. -/
theorem beBytes_drop_take (v : Nat) {n j k : Nat} (h : j + k ≤ n) :
    ((beBytes n v).drop j).take k = beBytes k (v / 256 ^ (n - j - k)) := by
  apply List.ext_getElem
  · simp only [List.length_take, List.length_drop, beBytes_length]
    omega
  · intro i _ hi
    rw [beBytes_length] at hi
    rw [List.getElem_take, List.getElem_drop, beBytes_getElem, beBytes_getElem, Nat.div_div_eq_div_mul, ← pow_add]
    congr 3
    omega

/-! ## The Memory device, in range and out of range -/

/-- The statements' word for one HardwareFault enqueued is the model's `raise` (R360). -/
theorem raise_hardwareFault (s : State) : s.raise .hardwareFault = faulted s := rfl

section
variable {s : State} {a n j k v : Nat}

theorem memDevRead_inRange (h : a + n ≤ s.platform.memSize) :
    s.memDevRead a n = (BitVec.ofNat 64 (beNat (memBytes s.mem a n)), s) :=
  ((memDevRead_cases s a n).resolve_right fun ho => Nat.not_lt.2 h ho.1).2

theorem memDevRead_outOfRange (h : s.platform.memSize < a + n) : s.memDevRead a n = (0, faulted s) := by
  rw [((memDevRead_cases s a n).resolve_left fun hi => Nat.not_le.2 h hi.1).2, raise_hardwareFault]

theorem memDevWrite_inRange (v : Nat) (h : a + n ≤ s.platform.memSize) :
    s.memDevWrite a n v = s.setMem (memStore s.mem a (beBytes n v)) :=
  ((memDevWrite_cases s a n v).resolve_right fun ho => Nat.not_lt.2 h ho.1).2

theorem memDevWrite_outOfRange (v : Nat) (h : s.platform.memSize < a + n) : s.memDevWrite a n v = faulted s := by
  rw [((memDevWrite_cases s a n v).resolve_left fun hi => Nat.not_le.2 h hi.1).2, raise_hardwareFault]

/-- The bytes of a piece of what was written in range. -/
theorem memBytes_memDevWrite (v : Nat) (hw : Memory.wf s.platform.memSize s.mem = true) (h : a + n ≤ s.platform.memSize)
    (hj : j + k ≤ n) :
    memBytes (s.memDevWrite a n v).mem (a + j) k = beBytes k (v / 256 ^ (n - j - k)) := by
  have hall : memBytes (memStore s.mem a (beBytes n v)) a n = beBytes n v := by
    simpa only [beBytes_length] using memBytes_memStore hw (bs := beBytes n v) (by rwa [beBytes_length])
  rw [memDevWrite_inRange v h, setMem_mem, ← memBytes_drop_take _ a n j k hj, hall, beBytes_drop_take v hj]

/-- A read within what was written in range gives the bytes at its place as a number, and changes nothing. -/
theorem memDevRead_memDevWrite (v : Nat) (hw : Memory.wf s.platform.memSize s.mem = true) (h : a + n ≤ s.platform.memSize)
    (hj : j + k ≤ n) :
    (s.memDevWrite a n v).memDevRead (a + j) k
      = (BitVec.ofNat 64 (v / 256 ^ (n - j - k) % 256 ^ k), s.memDevWrite a n v) := by
  have hp : (s.memDevWrite a n v).platform = s.platform := by rw [memDevWrite_inRange v h, setMem_platform]
  rw [memDevRead_inRange (by rw [hp]; omega), memBytes_memDevWrite v hw h hj, beNat_beBytes]

end

/-- Settles O26, from what a read within a write in range gives and from the two out-of-range rules. -/
theorem memoryIsBigEndianAndRangeChecked : Obligations.MemoryIsBigEndianAndRangeChecked := by
  intro s a v z hw hv
  refine ⟨fun h => ⟨fun i hi => ?_, fun x hx => memDevWrite_outside s a _ v hw hx, ?_, ?_⟩,
    fun h => ⟨memDevWrite_outOfRange v h, memDevRead_outOfRange h⟩⟩
  · have hbyte := memBytes_memDevWrite v hw h (j := i) (k := 1) hi
    simpa [memBytes, beBytes, Nat.sub_right_comm] using hbyte
  · have hread := memDevRead_memDevWrite v hw h (j := 0) (k := z.bytes) (by omega)
    rwa [Nat.add_zero, Nat.sub_zero, Nat.sub_self, pow_zero, Nat.div_one, pow_bytes_bits, Nat.mod_eq_of_lt hv] at hread
  · rw [memDevWrite_inRange v h]
    rfl

/-- Settles O27: the case of 8 bytes written. -/
theorem narrowReadSeesTheBytesAtItsPlace : Obligations.NarrowReadSeesTheBytesAtItsPlace := by
  intro s a v j z hw _ h hj
  rw [memDevRead_memDevWrite v hw h hj]

/-! ## Devices that answer no address -/

/-- An id with no device, or with a device that is neither Memory nor the configuration device, answers no read (R76, R77). -/
theorem busRead_unanswered {s : State} {dev : Nat} (off : Nat) (hm : registryFind dev s.platform.registry ≠ some .memory)
    (hc : registryFind dev s.platform.registry ≠ some .configuration) : s.busRead dev off = (0, faulted s) := by
  unfold State.busRead
  split
  · next h => exact absurd h hm
  · next h => exact absurd h hc
  all_goals rw [raise_hardwareFault]

theorem busWrite_unanswered {s : State} {dev : Nat} (off : Nat) (w : Word)
    (hm : registryFind dev s.platform.registry ≠ some .memory)
    (hc : registryFind dev s.platform.registry ≠ some .configuration) : s.busWrite dev off w = faulted s := by
  unfold State.busWrite
  split
  · next h => exact absurd h hm
  · next h => exact absurd h hc
  all_goals rw [raise_hardwareFault]

theorem truncTo_zero (z : Size) : truncTo z 0 = 0 := by simp [truncTo]

/-- Settles O28, through the bus: none of the four cases is Memory or the configuration device. -/
theorem unansweredAccessRaisesHardwareFault : Obligations.UnansweredAccessRaisesHardwareFault := by
  intro s addr v z hid hdev
  have hm : registryFind (routeOf s.platform addr).1 s.platform.registry ≠ some .memory := by
    rcases hdev with e | e | e | e <;> simp [e]
  have hc : registryFind (routeOf s.platform addr).1 s.platform.registry ≠ some .configuration := by
    rcases hdev with e | e | e | e <;> simp [e]
  constructor
  · rw [State.dataRead, if_neg hid, busRead_unanswered _ hm hc, truncTo_zero]
  · rw [State.dataWrite, if_neg hid, busWrite_unanswered _ _ hm hc]

end Sys2Proof.Proofs

namespace Sys2Proof.Proofs

open Sys2Proof.Machine Sys2Proof.Claims Sys2Proof.Laws

variable {e : Encoding} {rd rd' : FetchReader} {i : Instr} {o : Op} {c : Cursor}

/-! ## The decoder as a whole -/

/-- The cursor after the header. -/
abbrev afterHeader : Cursor := ⟨8, [(0, 8)]⟩

theorem decFetch_header (rd : FetchReader) : decFetch rd 8 cursorStart = (.ok (rd 0 8), afterHeader) := rfl

/-- An opcode byte in the table: the header is fetched, then its operation's form decoded (R130). -/
theorem decodeWith_known (ho : opOfCode e (headerOpcode (rd 0 8)) = some o) :
    decodeWith e rd cursorStart = decForm e rd (rd 0 8) o.form afterHeader := by
  rw [decodeWith, decThen_ok (decFetch_header rd), ho]

/-- An opcode byte absent from the table: the fault after the header fetch alone (R125). -/
theorem decodeWith_unknown (ho : opOfCode e (headerOpcode (rd 0 8)) = none) :
    decodeWith e rd cursorStart = (.error .unknownOpcode, afterHeader) := by
  rw [decodeWith, decThen_ok (decFetch_header rd), ho]
  rfl

/-! ## Decoding an encoding -/

theorem encode_length (he : e.ok = true) (i : Instr) : (encode e i).length = instrLength e i := by
  rw [encode, List.length_append, beBytes_length, encodeParams_length he, instrLength]

/-- A stream that shows a representable instruction's encoding decodes to it, and the decoder ends at its length. -/
theorem decodeWith_shows (he : e.ok = true) (hw : i.wellFormed = true) (hs : ReaderShows rd 0 (encode e i)) :
    ∃ log, decodeWith e rd cursorStart = (.ok i, ⟨instrLength e i, log⟩) := by
  have hheader : rd 0 8 = headerWord e i := by
    have hf := decFetch_shows (c := cursorStart) hs.left (headerWord_lt he i)
    exact Except.ok.inj (congrArg Prod.fst hf)
  obtain ⟨hop, h1, h2, h3, hz⟩ := headerWord_fields he i
  obtain ⟨hroles, hbuild⟩ := instr_builds i
  have hop' : opOfCode e (headerOpcode (rd 0 8)) = some i.op := by rw [hheader, hop, opOfCode_opcodeOf he]
  have hpayload : ReaderShows rd afterHeader.pos (encodeParams e i.size i.params) := by
    have h := hs.right
    rwa [beBytes_length] at h
  rw [decodeWith_known hop', hheader]
  exact decForm_shows he hz h1 h2 h3 hbuild (hroles ▸ hw) hpayload

/-- Settles O1: the reader shows the encoding from offset 0 on, and the spec's tables are checked by evaluation. -/
theorem encodedInstructionsDecodeBack : Obligations.EncodedInstructionsDecodeBack := by
  refine ⟨standardEncoding_ok, fun e i rd he hw hrd => ?_⟩
  have hs : ReaderShows rd 0 (encode e i) := fun k n hk => by rw [Nat.zero_add, hrd k n hk]
  obtain ⟨log, hd⟩ := decodeWith_shows he hw hs
  rw [hd]
  exact ⟨rfl, rfl, encode_length he i⟩

/-! ## What the decoder answers -/

/-- What the decoder answers is representable, and it has made exactly that instruction's fetches (R114, R130). -/
theorem decodeWith_decodes (hb : ReaderBounded rd) {c' : Cursor} (hd : decodeWith e rd cursorStart = (.ok i, c')) :
    i.wellFormed = true ∧ (e.ok = true → c' = ⟨instrLength e i, instrFetches e i⟩) := by
  rcases ho : opOfCode e (headerOpcode (rd 0 8)) with _ | o
  · rw [decodeWith_unknown ho] at hd
    cases hd
  · rw [decodeWith_known ho] at hd
    obtain ⟨ps, hbuild, hallowed, hc⟩ := decForm_decodes hb _ _ hd
    obtain ⟨-, hsize, rfl, hroles⟩ := op_builds o hbuild
    rw [← hsize] at hallowed hc
    refine ⟨?_, fun he => ?_⟩
    · rw [Instr.wellFormed, hroles]
      exact hallowed
    · rw [hc he, paramsFetches_sum he]
      rfl

/-- Settles O2: the stream at RIP gives `n`-byte numbers, which is all the decoder needs. -/
theorem decodedInstructionsAreRepresentable : Obligations.DecodedInstructionsAreRepresentable := by
  intro s s1 i h
  have hok : (decodeWith s.platform.encoding s.fetchReader cursorStart).1 = .ok i := congrArg Prod.fst h
  exact (decodeWith_decodes (fetchReader_bounded s) (Prod.ext hok rfl)).1

/-! ## Bounds of the length (R108, R113) -/

theorem subLength_le (e : Encoding) (z : Size) (u : Sub) : subLength e z u ≤ 8 := by
  cases u <;> exact bytes_le _

theorem optSubLength_le (e : Encoding) (z : Size) (u : Option Sub) : optSubLength e z u ≤ 8 := by
  cases u with
  | none => exact Nat.zero_le 8
  | some u => exact subLength_le e z u

theorem calcLength_le (e : Encoding) (z : Size) (k : Calc) : calcLength e z k ≤ e.layout.descriptorSize.bytes + 4 * 8 := by
  have hbase := subLength_le e z k.base
  have hindex := optSubLength_le e z k.index
  have hscale := optSubLength_le e z k.scale
  have hoffset := optSubLength_le e z k.offset
  unfold calcLength
  omega

/-- No parameter is longer than a calculated one of four literals of the greatest size. -/
theorem paramLength_le (e : Encoding) (z : Size) (p : Param) : paramLength e z p ≤ e.layout.descriptorSize.bytes + 4 * 8 := by
  have hreg := bytes_le e.registerSize
  have hlit := bytes_le z
  cases p with
  | calca k | calcl k => exact calcLength_le e z k
  | _ => simp only [paramLength]; omega

theorem paramsLength_le (e : Encoding) (z : Size) (ps : List Param) :
    paramsLength e z ps ≤ ps.length * (e.layout.descriptorSize.bytes + 4 * 8) := by
  induction ps with
  | nil => exact Nat.zero_le _
  | cons p ps ih =>
    have hp := paramLength_le e z p
    rw [paramsLength, List.length_cons, Nat.succ_mul]
    omega

theorem params_length_le (i : Instr) : i.params.length ≤ 3 := by
  cases i <;> simp [Instr.params]

theorem instrLength_le (e : Encoding) (i : Instr) : instrLength e i ≤ 8 + 3 * (e.layout.descriptorSize.bytes + 4 * 8) :=
  Nat.add_le_add_left ((paramsLength_le e i.size i.params).trans (Nat.mul_le_mul_right _ (params_length_le i))) 8

/-- Settles O3: the fetches made are the instruction's own, and each parameter's length is bounded. -/
theorem decoderConsumesTheInstructionLength : Obligations.DecoderConsumesTheInstructionLength := by
  intro e rd i he hb hd
  refine ⟨(decodeWith_decodes hb (Prod.ext hd rfl)).2 he, Nat.le_add_right 8 _, instrLength_le e i, ?_⟩
  rintro rfl
  exact instrLength_le standardEncoding i

/-! ## An encoding in Memory -/

/-- Where Memory holds bytes at RIP, within its size, the fetches show those bytes (R82). -/
theorem fetchReader_shows {s : State} {bs : List Byte} (hr : s.rip.toNat + bs.length ≤ s.platform.memSize)
    (hm : memBytes s.mem s.rip.toNat bs.length = bs) : ReaderShows s.fetchReader 0 bs := by
  intro k n hk
  have hin : s.inRange (s.rip.toNat + k) n = true := by
    rw [State.inRange, decide_eq_true_eq]
    omega
  rw [Nat.zero_add, State.fetchReader, State.memDevValue, if_pos hin, ← memBytes_drop_take _ _ _ _ _ hk, hm]

/-- Every fetch of an instruction lies within its length. -/
theorem instrFetches_below (he : e.ok = true) {f : Nat × Nat} (hf : f ∈ instrFetches e i) :
    f.1 + f.2 ≤ instrLength e i := by
  have h := fetchesAt_below hf
  rwa [Nat.zero_add, List.sum_cons, paramsFetches_sum he] at h

/-- Settles O4: the fetches show the encoding, and all of them are in range. -/
theorem storedEncodingIsFetched : Obligations.StoredEncodingIsFetched := by
  intro s i he hw hr hm
  have hlen : (encode s.platform.encoding i).length = s.lengthOf i := encode_length he i
  obtain ⟨log, hd⟩ := decodeWith_shows he hw (fetchReader_shows (hlen.symm ▸ hr) (hlen.symm ▸ hm))
  have hlog : log = instrFetches s.platform.encoding i :=
    congrArg Cursor.log ((decodeWith_decodes (fetchReader_bounded s) hd).2 he)
  simp only [State.fetchDecode, hd]
  rw [raiseFetchFaults_inRange s _ log fun f hf => ?_]
  have hbelow := instrFetches_below he (hlog ▸ hf)
  have hL : s.lengthOf i = instrLength s.platform.encoding i := rfl
  omega

/-! ## Decoders that read alike from an offset on -/

/-- A payload is a parameter of a role that writes nothing: only such a role asks no more of it (R132). -/
theorem decPayload_eq_decParam (e : Encoding) (rd : FetchReader) (z : Size) (t : Nat) :
    decPayload e rd z t = decParam e rd z .s t := by
  funext c
  rw [decParam, decThen]
  rcases decPayload e rd z t c with ⟨x | p, c'⟩ <;> rfl

theorem decPayload_fetches (e : Encoding) (rd : FetchReader) (z : Size) (t : Nat) : Fetches (decPayload e rd z t) :=
  decPayload_eq_decParam e rd z t ▸ decParam_fetches e rd z .s t

/-- Two decoders do the same from every cursor at offset `b` or beyond. -/
def AgreeFrom {α : Type} (b : Nat) (m m' : Decoder α) : Prop := ∀ c : Cursor, b ≤ c.pos → m c = m' c

theorem AgreeFrom.refl {α : Type} (b : Nat) (m : Decoder α) : AgreeFrom b m m := fun _ _ => rfl

/-- A decoder's cursor never moves back, so what follows starts at `b` or beyond too. -/
theorem AgreeFrom.decThen {α β : Type} {b : Nat} {m m' : Decoder α} {f f' : α → Decoder β} (hm : AgreeFrom b m m')
    (hfetch : Fetches m) (hf : ∀ a, AgreeFrom b (f a) (f' a)) : AgreeFrom b (decThen m f) (decThen m' f') := by
  intro c hc
  obtain ⟨ns, hns⟩ := hfetch c
  rw [Sys2Proof.decThen, Sys2Proof.decThen, ← hm c hc]
  rcases h : m c with ⟨x | a, c'⟩
  · rfl
  · rw [h] at hns
    subst hns
    exact hf a _ (hc.trans (Nat.le_add_right _ _))

section
variable {b : Nat} (hrd : ∀ off n, b ≤ off → rd off n = rd' off n)
include hrd

theorem decFetch_agree (n : Nat) : AgreeFrom b (decFetch rd n) (decFetch rd' n) := fun c hc => by
  rw [decFetch, decFetch, hrd c.pos n hc]

theorem decRegister_agree (e : Encoding) : AgreeFrom b (decRegister e rd) (decRegister e rd') :=
  (decFetch_agree hrd _).decThen (decFetch_fetches rd _) fun _ => .refl b _

theorem decLiteral_agree (z : Size) : AgreeFrom b (decLiteral rd z) (decLiteral rd' z) :=
  (decFetch_agree hrd _).decThen (decFetch_fetches rd _) fun _ => .refl b _

theorem decSub_agree (e : Encoding) (z : Size) (literal : Bool) :
    AgreeFrom b (decSub e rd z literal) (decSub e rd' z literal) := by
  unfold decSub
  split
  · exact (decLiteral_agree hrd z).decThen (decLiteral_fetches rd z) fun _ => .refl b _
  · exact (decRegister_agree hrd e).decThen (decRegister_fetches e rd) fun _ => .refl b _

theorem decOptSub_agree (e : Encoding) (z : Size) (present literal : Bool) :
    AgreeFrom b (decOptSub e rd z present literal) (decOptSub e rd' z present literal) := by
  unfold decOptSub
  split
  · exact (decSub_agree hrd e z literal).decThen (decSub_fetches e rd z literal) fun _ => .refl b _
  · exact .refl b _

theorem decPart_agree (e : Encoding) (z : Size) (d : Nat) (k : Calc) (p : CalcPart) :
    AgreeFrom b (decPart e rd z d k p) (decPart e rd' z d k p) := by
  cases p with
  | base => exact (decSub_agree hrd e z _).decThen (decSub_fetches e rd z _) fun _ => .refl b _
  | _ => exact (decOptSub_agree hrd e z _ _).decThen (decOptSub_fetches e rd z _ _) fun _ => .refl b _

theorem decParts_agree (e : Encoding) (z : Size) (d : Nat) (ps : List CalcPart) (k : Calc) :
    AgreeFrom b (decParts e rd z d ps k) (decParts e rd' z d ps k) := by
  induction ps generalizing k with
  | nil => exact .refl b _
  | cons p ps ih => exact (decPart_agree hrd e z d k p).decThen (decPart_fetches e rd z d k p) ih

theorem decCalc_agree (e : Encoding) (z : Size) : AgreeFrom b (decCalc e rd z) (decCalc e rd' z) :=
  (decFetch_agree hrd _).decThen (decFetch_fetches rd _) fun d => decParts_agree hrd e z d _ _

theorem decPayload_agree (e : Encoding) (z : Size) (t : Nat) : AgreeFrom b (decPayload e rd z t) (decPayload e rd' z t) := by
  unfold decPayload
  rcases typeOfCode e t with _ | (_ | _ | _ | _ | _ | _ | _)
  case none => exact .refl b _
  case some.stk => exact .refl b _
  case some.reg | some.rega => exact (decRegister_agree hrd e).decThen (decRegister_fetches e rd) fun _ => .refl b _
  case some.lit | some.lita => exact (decLiteral_agree hrd z).decThen (decLiteral_fetches rd z) fun _ => .refl b _
  case some.calca | some.calcl => exact (decCalc_agree hrd e z).decThen (decCalc_fetches e rd z) fun _ => .refl b _

theorem decParam_agree (e : Encoding) (z : Size) (r : Role) (t : Nat) :
    AgreeFrom b (decParam e rd z r t) (decParam e rd' z r t) :=
  (decPayload_agree hrd e z t).decThen (decPayload_fetches e rd z t) fun _ => .refl b _

/-- One parameter and then the rest, whose type codes in two headers agree. -/
theorem decParam_agree_then {α : Type} {f f' : Param → Decoder α} {t t' : Nat} (ht : t = t') (z : Size) (r : Role)
    (hf : ∀ p, AgreeFrom b (f p) (f' p)) :
    AgreeFrom b (decThen (decParam e rd z r t) f) (decThen (decParam e rd' z r t') f') :=
  ht ▸ (decParam_agree hrd e z r t).decThen (decParam_fetches e rd z r t) hf

/-- A form depends on the header only through the size and the type codes of the parameters it has (R104). -/
theorem decForm_agree {h h' : Nat} (f : OpForm) (hz : headerSize e h = headerSize e h')
    (h1 : 1 ≤ arity f → headerType1 h = headerType1 h') (h2 : 2 ≤ arity f → headerType2 h = headerType2 h')
    (h3 : 3 ≤ arity f → headerType3 h = headerType3 h') : AgreeFrom b (decForm e rd h f) (decForm e rd' h' f) := by
  cases f <;> simp only [decForm, hz]
  case p0 => exact .refl b _
  case p1 => exact decParam_agree_then hrd (h1 (by simp [arity])) _ _ fun _ => .refl b _
  case p2 =>
    exact decParam_agree_then hrd (h1 (by simp [arity])) _ _ fun _ =>
      decParam_agree_then hrd (h2 (by simp [arity])) _ _ fun _ => .refl b _
  case p3 =>
    exact decParam_agree_then hrd (h1 (by simp [arity])) _ _ fun _ =>
      decParam_agree_then hrd (h2 (by simp [arity])) _ _ fun _ =>
        decParam_agree_then hrd (h3 (by simp [arity])) _ _ fun _ => .refl b _

end

/-! ## The reserved bits of the header (R104) -/

/-- The header word: the fields above bit 46, and the size field. -/
theorem headerWord_split (e : Encoding) (i : Instr) : ∃ n, headerWord e i = n * 2 ^ 47 + sizeCode e i.size * 2 ^ e.sizeShift :=
  ⟨opcodeOf e i * 2 ^ 9 + typeField e i.params 0 * 2 ^ 6 + typeField e i.params 1 * 2 ^ 3 + typeField e i.params 2, by
    simp only [headerWord]
    omega⟩

/-- Below the size field every bit is zero: both summands are multiples of the field's place. -/
theorem headerWord_testBit_below (he : e.ok = true) (i : Instr) {k : Nat} (hk : k < e.sizeShift) :
    (headerWord e i).testBit k = false := by
  obtain ⟨n, hn⟩ := headerWord_split e i
  have hsplit : (2 : Nat) ^ 47 = 2 ^ (47 - e.sizeShift) * 2 ^ e.sizeShift := by
    rw [← pow_add]
    congr 1
    have hshift := (Encoding.ok_tables he).2.2.2.2.1
    omega
  rw [hn, hsplit, ← Nat.mul_assoc, ← Nat.add_mul, Nat.testBit_mul_two_pow]
  simp [Nat.not_le.2 hk]

/-- Between the size field and the type fields every bit is zero: below bit 47 there is the size field alone. -/
theorem headerWord_testBit_above (he : e.ok = true) (i : Instr) {k : Nat} (hk : e.sizeShift + 2 ≤ k) (hk' : k < 47) :
    (headerWord e i).testBit k = false := by
  obtain ⟨n, hn⟩ := headerWord_split e i
  have hmod : headerWord e i % 2 ^ 47 = sizeCode e i.size * 2 ^ e.sizeShift := by
    rw [hn, Nat.mul_add_mod_self_right, Nat.mod_eq_of_lt (sizeField_lt he i.size)]
  have hlt : sizeCode e i.size * 2 ^ e.sizeShift < 2 ^ k :=
    calc sizeCode e i.size * 2 ^ e.sizeShift < 2 ^ 2 * 2 ^ e.sizeShift :=
          Nat.mul_lt_mul_of_pos_right (sizeCode_lt e i.size) (Nat.two_pow_pos _)
      _ = 2 ^ (e.sizeShift + 2) := by rw [← pow_add, Nat.add_comm]
      _ ≤ 2 ^ k := Nat.pow_le_pow_right (by decide) hk
  have hbit : (headerWord e i % 2 ^ 47).testBit k = (headerWord e i).testBit k := by
    simp only [Nat.testBit_mod_two_pow, hk', decide_true, Bool.true_and]
  rw [← hbit, hmod, Nat.testBit_lt_two_pow hlt]

/-- The type field of an absent parameter is written zero. -/
theorem typeField_absent {ps : List Param} {n : Nat} (h : ps.length < n + 1) : typeField e ps n = 0 := by
  induction ps generalizing n with
  | nil => rfl
  | cons p ps ih =>
    cases n with
    | zero => simp at h
    | succ n => exact ih (by simpa using h)

/-- Settles O5: the decoders agree past the header; the encoder's reserved bits are those below and above its size field. -/
theorem reservedHeaderBitsAreIgnored : Obligations.ReservedHeaderBitsAreIgnored := by
  refine ⟨fun e rd rd' hop hz htypes hrd => ?_, fun i => ?_, fun e i he => ?_⟩
  · rcases ho : opOfCode e (headerOpcode (rd 0 8)) with _ | o
    · rw [decodeWith_unknown ho, decodeWith_unknown (hop ▸ ho)]
    · obtain ⟨h1, h2, h3⟩ := htypes o ho
      rw [decodeWith_known ho, decodeWith_known (hop ▸ ho)]
      exact decForm_agree hrd o.form hz h1 h2 h3 afterHeader (Nat.le_refl 8)
  · obtain ⟨n, hn⟩ := headerWord_split standardEncoding i
    have hshift : standardEncoding.sizeShift = 45 := rfl
    rw [hn, hshift]
    omega
  · obtain ⟨-, h1, h2, h3, -⟩ := headerWord_fields he i
    refine ⟨?_, fun hl => h1.trans (typeField_absent hl), fun hl => h2.trans (typeField_absent hl),
      fun hl => h3.trans (typeField_absent hl)⟩
    rintro k (hk | ⟨hk, hk'⟩)
    · exact headerWord_testBit_below he i hk
    · exact headerWord_testBit_above he i hk hk'

/-! ## Bytes as an instruction stream -/

/-- The stream of some bytes shows them. -/
theorem bytesReader_shows (bs : List Byte) : ReaderShows (bytesReader bs) 0 bs := by
  intro k n hk
  rw [Nat.zero_add, bytesReader, if_pos hk]

theorem decodeBytes_encode (he : e.ok = true) (hw : i.wellFormed = true) : decodeBytes e (encode e i) = .ok i := by
  obtain ⟨log, hd⟩ := decodeWith_shows he hw (bytesReader_shows (encode e i))
  rw [decodeBytes, hd]

/-- Bytes that are the spec's encoding of a representable instruction decode to it. -/
theorem decodeBytes_standard {bs : List Byte} (hw : i.wellFormed = true) (hb : encode standardEncoding i = bs) :
    decodeBytes standardEncoding bs = .ok i := hb ▸ decodeBytes_encode standardEncoding_ok hw

/-- Settles O6: each row of bytes is the encoding of its instruction, and encodings decode back. -/
theorem workedEncodingsDecode : Obligations.WorkedEncodingsDecode := by
  refine ⟨?_, ?_, ?_, ?_, ?_, ?_⟩ <;> exact decodeBytes_standard (by decide) (by decide)

/-! ## Faults (R125, R126, R131) -/

/-- A number that stands in no row of a table names nothing. -/
theorem nameOf_eq_none {α : Type} {n : Nat} {table : List (Nat × α)} (h : ∀ row ∈ table, row.1 ≠ n) :
    nameOf n table = none := by
  induction table with
  | nil => rfl
  | cons row rest ih =>
    rw [List.forall_mem_cons] at h
    rw [nameOf, if_neg h.1, ih h.2]

/-- A fault ends the decoding, where it stands. -/
theorem decThen_error {α β : Type} {m : Decoder α} {f : α → Decoder β} {c c' : Cursor} {x : DecodeFault}
    (h : m c = (.error x, c')) : decThen m f c = (.error x, c') := by rw [decThen, h]

theorem decThen_fst_error {α β : Type} {m : Decoder α} {f : α → Decoder β} {c : Cursor} {x : DecodeFault}
    (h : (m c).1 = .error x) : (decThen m f c).1 = .error x := by
  rw [decThen_error (m := m) (Prod.ext h rfl)]

/-- A decoder that faults from every cursor. -/
def Faults {α : Type} (m : Decoder α) : Prop := ∀ c, ∃ x, (m c).1 = .error x

theorem Faults.first {α β : Type} {m : Decoder α} (h : Faults m) (f : α → Decoder β) : Faults (decThen m f) := fun c => by
  obtain ⟨x, hx⟩ := h c
  exact ⟨x, decThen_fst_error hx⟩

theorem Faults.next {α β : Type} (m : Decoder α) {f : α → Decoder β} (h : ∀ a, Faults (f a)) : Faults (decThen m f) := by
  intro c
  rcases hm : m c with ⟨x | a, c'⟩
  · exact ⟨x, decThen_fst_error (by rw [hm])⟩
  · rw [decThen_ok hm]
    exact h a c'

/-- A type code absent from the table is malformed, whatever the parameter's role (R126). -/
theorem decParam_malformed {t : Nat} (ht : typeOfCode e t = none) (z : Size) (r : Role) : Faults (decParam e rd z r t) :=
  Faults.first (fun c => ⟨.malformedType, by rw [decPayload, ht]; rfl⟩) _

/-- The header word `h` gives a present parameter of the form `f` a type code that is not in the table. -/
def HasMalformedType (e : Encoding) (h : Nat) (f : OpForm) : Prop :=
  (1 ≤ arity f ∧ typeOfCode e (headerType1 h) = none) ∨ (2 ≤ arity f ∧ typeOfCode e (headerType2 h) = none) ∨
    (3 ≤ arity f ∧ typeOfCode e (headerType3 h) = none)

/-- A malformed type in a present parameter is a fault of the form: that parameter's, or an earlier one's. -/
theorem decForm_malformed {h : Nat} {f : OpForm} (hm : HasMalformedType e h f) : Faults (decForm e rd h f) := by
  cases f with
  | p0 => simp [HasMalformedType, arity] at hm
  | p1 =>
    simp only [HasMalformedType, arity, Nat.reduceLeDiff, true_and, false_and, or_false] at hm
    exact (decParam_malformed hm _ _).first _
  | p2 =>
    simp only [HasMalformedType, arity, Nat.reduceLeDiff, true_and, false_and, or_false] at hm
    rcases hm with h1 | h2
    · exact (decParam_malformed h1 _ _).first _
    · exact .next _ fun _ => (decParam_malformed h2 _ _).first _
  | p3 =>
    simp only [HasMalformedType, arity, Nat.reduceLeDiff, true_and] at hm
    rcases hm with h1 | h2 | h3
    · exact (decParam_malformed h1 _ _).first _
    · exact .next _ fun _ => (decParam_malformed h2 _ _).first _
    · exact .next _ fun _ => .next _ fun _ => (decParam_malformed h3 _ _).first _

/-- The spec's register bytes are `0x00 .. 0x0F` and `0xF0 .. 0xF3` (spec/10_state.md R22). -/
theorem standardRegisters_absent (n : Nat) :
    (∀ row ∈ standardEncoding.registers, row.1 ≠ n) ↔ 0x10 ≤ n ∧ (n < 0xF0 ∨ 0xF3 < n) := by
  simp only [standardEncoding, List.forall_mem_cons, List.not_mem_nil, false_implies, implies_true, and_true]
  omega

/-- The cursor after a register number at `c` was fetched. -/
abbrev afterRegister (e : Encoding) (c : Cursor) : Cursor :=
  ⟨c.pos + e.registerSize.bytes, c.log ++ [(c.pos, e.registerSize.bytes)]⟩

section
variable (hr : regOfNumber e (rd c.pos e.registerSize.bytes) = none)
include hr

/-- A register number that names no register is a fault, once it is fetched (R131). -/
theorem decRegister_invalid : decRegister e rd c = (.error .invalidRegister, afterRegister e c) := by
  simp only [decRegister, decThen, decFetch, hr]
  rfl

theorem decParam_invalidRegister {t : Nat} (ht : typeOfCode e t = some .reg ∨ typeOfCode e t = some .rega) (z : Size)
    (r : Role) : decParam e rd z r t c = (.error .invalidRegister, afterRegister e c) := by
  refine decThen_error ?_
  rcases ht with ht | ht <;> rw [decPayload, ht] <;> exact decThen_error (decRegister_invalid hr)

theorem decSub_invalidRegister (z : Size) : decSub e rd z false c = (.error .invalidRegister, afterRegister e c) :=
  decThen_error (decRegister_invalid hr)

theorem decOptSub_invalidRegister (z : Size) :
    decOptSub e rd z true false c = (.error .invalidRegister, afterRegister e c) :=
  decThen_error (decSub_invalidRegister hr z)

/-- A component that the descriptor says is a present register faults on such a number. -/
theorem decPart_invalidRegister {d : Nat} {p : CalcPart} (hp : namesRegister e.layout d p = true) (z : Size) (k : Calc) :
    decPart e rd z d k p c = (.error .invalidRegister, afterRegister e c) := by
  cases p <;> simp only [namesRegister, Bool.and_eq_true, Bool.not_eq_true'] at hp
  case base =>
    rw [decPart, hp]
    exact decThen_error (decSub_invalidRegister hr z)
  all_goals
    obtain ⟨hpresent, hkind⟩ := hp
    rw [decPart, hpresent, hkind]
    exact decThen_error (decOptSub_invalidRegister hr z)

end

/-- Settles O7: what a table does not hold names nothing, and each piece of the decoder passes its first part's fault on. -/
theorem illegalHeadersAreDecodeFaults : Obligations.IllegalHeadersAreDecodeFaults := by
  refine ⟨fun e rd h => decodeWith_unknown (nameOf_eq_none h), by decide, fun e rd o ho hm => ?_, rfl,
    fun n _ => standardRegisters_absent n, fun e rd z c h => ⟨fun r t ht => ?_, fun d k p ps hp => ?_⟩, fun e rd o x ho => ?_⟩
  · rw [decodeWith_known ho]
    refine decForm_malformed (hm.imp ?_ (Or.imp ?_ ?_)) afterHeader <;> exact And.imp_right nameOf_eq_none
  · exact decParam_invalidRegister (nameOf_eq_none h) ht z r
  · exact decThen_error (decPart_invalidRegister (nameOf_eq_none h) hp z k)
  · simp only [decodeWith_known ho]
    cases o.form with
    | p0 mk => trivial
    | p1 r1 mk => exact decThen_fst_error
    | p2 r1 r2 mk =>
      refine ⟨decThen_fst_error, fun a c1 ha hx => ?_⟩
      rw [decForm, decThen_ok ha]
      exact decThen_fst_error hx
    | p3 r1 r2 r3 mk =>
      refine ⟨decThen_fst_error, fun a c1 ha => ⟨fun hx => ?_, fun b c2 hb hx => ?_⟩⟩
      · rw [decForm, decThen_ok ha]
        exact decThen_fst_error hx
      · rw [decForm, decThen_ok ha, decThen_ok hb]
        exact decThen_fst_error hx

/-! ## Immediate destinations (R132, R170) -/

theorem UnaryMeaning.refuses {z : Size} {p d : Param} {s : State} (m : UnaryMeaning i z p d)
    (h : ∃ q ∈ writtenParams i, q.writable = false) : exec i s = .refused .immediateDestination := by
  obtain ⟨k, hk, -⟩ := m.runs
  rw [m.written] at h
  simp only [List.mem_singleton, exists_eq_left] at h
  simp [hk, runUnary, h]

theorem BinaryMeaning.refuses {z : Size} {p q d : Param} {s : State} (m : BinaryMeaning i z p q d)
    (h : ∃ p' ∈ writtenParams i, p'.writable = false) : exec i s = .refused .immediateDestination := by
  obtain ⟨k, hk, -⟩ := m.runs
  rw [m.written] at h
  simp only [List.mem_singleton, exists_eq_left] at h
  simp [hk, runBinary, h]

/-- Every three-parameter instruction reads two parameters, runs a handler and writes the third. -/
theorem threeParameterForms_meaning {mk : Size → Param → Param → Param → Instr}
    (hm : mk ∈ rcForms ++ plainForms ++ floatForms) (z : Size) (p q d : Param) : BinaryMeaning (mk z p q d) z p q d := by
  simp only [List.mem_append] at hm
  rcases hm with (hm | hm) | hm
  · exact rcForms_meaning hm z p q d
  · exact plainForms_meaning hm z p q d
  · exact floatForms_meaning hm z p q d

/-- Settles O12: the shapes of instructions that write a destination check it first, and the others write none. -/
theorem immediateDestinationsAreRefused : Obligations.ImmediateDestinationsAreRefused := by
  intro i s h
  cases i with
  | mov z p d | neg z p d | not z p d | inc z p d | dec z p d =>
    exact (unaryForms_meaning (by simp [unaryForms]) z p d).refuses h
  | xchg z p q =>
    have hw : p.writable = false ∨ q.writable = false := by simpa [writtenParams, Instr.roles, Instr.params, Role.writes] using h
    rcases hw with hw | hw <;> simp [exec, execXchg, hw]
  | pop z d =>
    have hw : d.writable = false := by simpa [writtenParams, Instr.roles, Instr.params, Role.writes] using h
    simp [exec, execPop, hw]
  | dbg z d =>
    have hw : d.writable = false := by simpa [writtenParams, Instr.roles, Instr.params, Role.writes] using h
    simp [exec, execDbg, hw]
  | nop | push | jmp | jz | jnz | int | eint | inte | intd | hlt | pau =>
    simp [writtenParams, Instr.roles, Instr.params, Role.writes] at h
  | _ => exact (threeParameterForms_meaning (by simp [rcForms, plainForms, floatForms]) _ _ _ _).refuses h

end Sys2Proof.Proofs

namespace Sys2Proof.Proofs

open Sys2Proof.Machine Sys2Proof.Claims

variable {s : State} {z : Size} {addr : Word} {dev off : Nat}

/-! ## The effective value (R167) -/

/-- Words that stand for integers modulo `2^64` sum and multiply to a word that stands for the result over the integers. -/
theorem effective_eq_ofInt {b : Sub} {i c o : Option Sub} {B I S O : Int} (hb : s.subValue b = BitVec.ofInt 64 B)
    (hi : s.optSubValue 0 i = BitVec.ofInt 64 I) (hc : s.optSubValue 1 c = BitVec.ofInt 64 S)
    (ho : s.optSubValue 0 o = BitVec.ofInt 64 O) :
    s.effective ⟨b, i, c, o, .plus⟩ = BitVec.ofInt 64 (B + I * S + O) ∧
    s.effective ⟨b, i, c, o, .minus⟩ = BitVec.ofInt 64 (B + I * S - O) := by
  simp only [State.effective, hb, hi, hc, ho]
  constructor
  · rw [BitVec.ofInt_add, BitVec.ofInt_add, BitVec.ofInt_mul]
  · rw [Int.sub_eq_add_neg, BitVec.ofInt_add, BitVec.ofInt_add, BitVec.ofInt_mul, BitVec.ofInt_neg, BitVec.sub_eq_add_neg]

theorem word_eq_ofInt_toNat (w : Word) : w = BitVec.ofInt 64 w.toNat := by
  rw [BitVec.ofInt_natCast, BitVec.ofNat_toNat, BitVec.setWidth_eq]

/-- Settles O30: each component's word stands for its integer, an absent one's too. -/
theorem effectiveValueIsReducedOnce : Obligations.EffectiveValueIsReducedOnce := by
  intro s b i c o
  refine effective_eq_ofInt (word_eq_ofInt_toNat _) ?_ ?_ ?_
  · cases i with
    | none => rfl
    | some u => exact word_eq_ofInt_toNat _
  · cases c with
    | none => rfl
    | some u => exact word_eq_ofInt_toNat _
  · cases o with
    | none => rfl
    | some u => exact word_eq_ofInt_toNat _

/-! ## Where a data access goes (R80, R81) -/

/-- A data read that Route sends to Memory is the sized read of the Memory device. -/
theorem dataRead_toMemory (hr : routeOf s.platform addr = (s.platform.memId, off)) (z : Size) :
    s.dataRead addr z = s.memDevRead off z.bytes := by
  simp [State.dataRead, hr]

theorem dataWrite_toMemory (hr : routeOf s.platform addr = (s.platform.memId, off)) (z : Size) (v : Word) :
    s.dataWrite addr z v = s.memDevWrite off z.bytes (v.toNat % 2 ^ z.bits) := by
  simp [State.dataWrite, hr]

/-- A data read that Route sends to another device is the low bytes of a bus word. -/
theorem dataRead_toDevice (hr : routeOf s.platform addr = (dev, off)) (hd : dev ≠ s.platform.memId) (z : Size) :
    s.dataRead addr z = (truncTo z (s.busRead dev off).1, (s.busRead dev off).2) := by
  simp [State.dataRead, hr, hd]

theorem dataWrite_toDevice (hr : routeOf s.platform addr = (dev, off)) (hd : dev ≠ s.platform.memId) (z : Size) (v : Word) :
    s.dataWrite addr z v = s.busWrite dev off (truncTo z v) := by
  simp [State.dataWrite, hr, hd]

/-- A bus access to an id that Memory stands under is Memory's 8-byte word path (R76, R83). -/
theorem busRead_memory (h : registryFind dev s.platform.registry = some .memory) (off : Nat) :
    s.busRead dev off = s.memDevRead off 8 := by
  simp only [State.busRead, h]

theorem busWrite_memory (h : registryFind dev s.platform.registry = some .memory) (off : Nat) (w : Word) :
    s.busWrite dev off w = s.memDevWrite off 8 w.toNat := by
  simp only [State.busWrite, h]

/-- A bus access to the configuration device is its own read or write (R393). -/
theorem busRead_configuration (h : registryFind dev s.platform.registry = some .configuration) (off : Nat) :
    s.busRead dev off = s.cfgRead off := by
  simp only [State.busRead, h]

theorem busWrite_configuration (h : registryFind dev s.platform.registry = some .configuration) (off : Nat) (w : Word) :
    s.busWrite dev off w = s.cfgWrite off w := by
  simp only [State.busWrite, h]

/-! ## The bound of a source value (R160) -/

theorem toNat_ofNat_lt {n k : Nat} (h : n < k) : (BitVec.ofNat 64 n).toNat < k :=
  (BitVec.toNat_ofNat n 64 ▸ Nat.mod_le _ _).trans_lt h

theorem truncTo_lt (z : Size) (v : Word) : (truncTo z v).toNat < 2 ^ z.bits :=
  toNat_ofNat_lt (Nat.mod_lt _ (Nat.two_pow_pos _))

/-- A data read of size `s` answers a value of `s` bytes, wherever Route sends it. -/
theorem dataRead_lt (s : State) (addr : Word) (z : Size) : (s.dataRead addr z).1.toNat < 2 ^ z.bits := by
  rcases hr : routeOf s.platform addr with ⟨dev, off⟩
  by_cases hd : dev = s.platform.memId
  · rw [dataRead_toMemory (hd ▸ hr)]
    rcases memDevRead_cases s off z.bytes with ⟨_, e⟩ | ⟨_, e⟩ <;> rw [e]
    · have hlt := beNat_lt (memBytes s.mem off z.bytes)
      rw [memBytes_length, pow_bytes_bits] at hlt
      exact toNat_ofNat_lt hlt
    · exact Nat.two_pow_pos _
  · rw [dataRead_toDevice hr hd]
    exact truncTo_lt z _

/-- Of the forms that are read as they stand, a literal is bounded because it fits; the others are data reads. -/
theorem readParam_lt (s : State) {p : Param} (hf : p.fits z = true) (hr : ∀ r, p ≠ .reg r) (hc : ∀ c, p ≠ .calcl c) :
    (s.readParam z p).1.toNat < 2 ^ z.bits := by
  cases p with
  | reg r => exact absurd rfl (hr r)
  | calcl c => exact absurd rfl (hc c)
  | lit v => exact of_decide_eq_true hf
  | rega r => exact dataRead_lt s (s.getReg r) z
  | lita v => exact dataRead_lt s v z
  | calca c => exact dataRead_lt s (s.effective c) z
  | stk => exact dataRead_lt s s.rsp z

/-- Settles O31: each form by its locator, and a data read by where Route sends it. -/
theorem sourceParametersRead : Obligations.SourceParametersRead := by
  intro s z
  refine ⟨fun _ => rfl, fun _ => rfl, fun _ => rfl, fun _ => rfl, fun _ => rfl, fun _ => rfl, rfl, rfl,
    fun addr off hr => ⟨fun hin => ?_, fun hout => ?_⟩, fun addr dev off hr hd => ⟨?_, fun h => ?_, fun h => ?_⟩,
    fun p => readParam_lt s⟩
  · exact dataRead_memory hr hin
  · rw [dataRead_toMemory hr, memDevRead_outOfRange hout]
  · rw [dataRead_toDevice hr hd, truncTo]
  · exact busRead_configuration h off
  · exact busRead_memory h off

end Sys2Proof.Proofs

namespace Sys2Proof.Proofs

open Sys2Proof.Machine Sys2Proof.Claims

variable {s : State} {z : Size} {addr : Word} {off : Nat}

/-! ## What a destination receives (R171, R173, R175) -/

/-- Bytes above the `n` that are written do not matter. -/
theorem beBytes_mod (v : Nat) {n m : Nat} (h : n ≤ m) : beBytes n (v % 256 ^ m) = beBytes n v := by
  induction n with
  | zero => rfl
  | succ n ih =>
    have hbyte : v % 256 ^ m / 256 ^ n % 256 = v / 256 ^ n % 256 := by
      rw [← Nat.add_sub_of_le h, Nat.add_assoc, pow_add, pow_add, pow_one, Nat.mod_mul_right_div_self,
        Nat.mod_mul_right_mod]
    rw [beBytes, beBytes, ih (by omega)]
    congr 1
    exact BitVec.eq_of_toNat_eq (by simpa using hbyte)

/-- `t` is `s` with the low bytes of `v` stored at `off`, most significant first, and nothing else changed. -/
def StoredAt (z : Size) (v : Word) (off : Nat) (s t : State) : Prop :=
  memBytes t.mem off z.bytes = beBytes z.bytes v.toNat ∧
  (∀ x, (x < off ∨ off + z.bytes ≤ x) → memGet t.mem x = memGet s.mem x) ∧ t = { s with mem := t.mem }

theorem dataWrite_inRange (v : Word) (hw : Memory.wf s.platform.memSize s.mem = true)
    (hr : routeOf s.platform addr = (s.platform.memId, off)) (hin : off + z.bytes ≤ s.platform.memSize) :
    StoredAt z v off s (s.dataWrite addr z v) := by
  rw [dataWrite_toMemory hr]
  refine ⟨?_, fun x hx => memDevWrite_outside s _ _ _ hw hx, ?_⟩
  · have hbytes := memBytes_memDevWrite (v.toNat % 2 ^ z.bits) hw hin (j := 0) (k := z.bytes) (by omega)
    rwa [Nat.add_zero, Nat.sub_zero, Nat.sub_self, pow_zero, Nat.div_one, ← pow_bytes_bits, beBytes_mod _ le_rfl,
      pow_bytes_bits] at hbytes
  · rw [memDevWrite_inRange _ hin]
    rfl

theorem dataWrite_outOfRange (v : Word) (hr : routeOf s.platform addr = (s.platform.memId, off))
    (hout : s.platform.memSize < off + z.bytes) : s.dataWrite addr z v = faulted s := by
  rw [dataWrite_toMemory hr, memDevWrite_outOfRange _ hout]

/-- Settles O32: a memory destination is a data write, a stack destination one in the state whose RSP has moved. -/
theorem destinationsReceiveTheWord : Obligations.DestinationsReceiveTheWord := by
  intro s z v hw
  refine ⟨fun r => ⟨getReg_setReg_same s r v, fun q hq => getReg_setReg_ne s v hq, setReg_mem s r v, setReg_queue s r v⟩,
    fun addr off hr => ⟨dataWrite_inRange v hw hr, dataWrite_outOfRange v hr⟩,
    fun addr dev off hr hd => ⟨dataWrite_toDevice hr hd z v, fun h => busWrite_configuration h off,
      fun h => busWrite_memory h off⟩,
    fun off hr => ⟨?_, ?_⟩, fun dev off hr hd => ?_⟩
  · exact dataWrite_inRange (s := s.setReg .rsp (s.rsp - sizeWord z)) v hw hr
  · exact dataWrite_outOfRange (s := s.setReg .rsp (s.rsp - sizeWord z)) v hr
  · exact dataWrite_toDevice (s := s.setReg .rsp (s.rsp - sizeWord z)) hr hd z v

end Sys2Proof.Proofs

namespace Sys2Proof.Proofs

open Sys2Proof.Machine Sys2Proof.Claims

variable {s s1 : State}

/-! ## The fetch and the step (R150 to R152) -/

/-- The fetches' faults are one HardwareFault for each fetch out of range. -/
theorem raiseFetchFaults_eq_fetchFaulted (s : State) (log : List (Nat × Nat)) :
    s.raiseFetchFaults s.rip.toNat log = fetchFaulted s log :=
  raiseFetchFaults_state s s.rip.toNat log

/-- What step 1 answers is the decoder's answer, and the state with its fetches' faults. -/
theorem fetchDecode_eq {r : Except DecodeFault Instr} (h : s.fetchDecode = (r, s1)) :
    (decodeWith s.platform.encoding s.fetchReader cursorStart).1 = r ∧
    s1 = fetchFaulted s (decodeWith s.platform.encoding s.fetchReader cursorStart).2.log := by
  rw [← raiseFetchFaults_eq_fetchFaulted]
  exact ⟨congrArg Prod.fst h, (congrArg Prod.snd h).symm⟩

/-- The decoder fetches the header and then each piece where the last ended, whether it answers or faults (R130). -/
theorem decodeWith_log (e : Encoding) (rd : FetchReader) :
    ∃ ns, (decodeWith e rd cursorStart).2.log = fetchesAt 0 (8 :: ns) := by
  rcases ho : opOfCode e (headerOpcode (rd 0 8)) with _ | o
  · exact ⟨[], by rw [decodeWith_unknown ho]; rfl⟩
  · obtain ⟨ns, hns⟩ := decForm_fetches e rd (rd 0 8) o.form afterHeader
    exact ⟨ns, by rw [decodeWith_known ho, hns]; rfl⟩

theorem step_running (hrun : s.run = true) (hp : s.paused = false) : step s = cycle s := by
  rw [step, hrun, hp]
  rfl

/-- Settles O8: the decoder's fetches are the instruction's own, and the cycle runs what it decodes. -/
theorem stepRunsTheDecodedInstruction : Obligations.StepRunsTheDecodedInstruction := by
  intro s s1 i hrun hp hf
  obtain ⟨hd, hs1⟩ := fetchDecode_eq hf
  refine ⟨fun he => ?_, fun t ht => ?_⟩
  · have hlog : (decodeWith s.platform.encoding s.fetchReader cursorStart).2.log = instrFetches s.platform.encoding i :=
      congrArg Cursor.log ((decodeWith_decodes (fetchReader_bounded s) (Prod.ext hd rfl)).2 he)
    rw [hs1, hlog]
  · simp only [step_running hrun hp, cycle, hf, ht]

/-- Settles O9: the decoder's fetches are consecutive on a fault too. -/
theorem decodeFaultSkipsTheHeader : Obligations.DecodeFaultSkipsTheHeader := by
  intro s s1 x hrun hp hf
  obtain ⟨-, hs1⟩ := fetchDecode_eq hf
  obtain ⟨ns, hns⟩ := decodeWith_log s.platform.encoding s.fetchReader
  refine ⟨ns, hns, hns ▸ hs1, ?_⟩
  simp only [step_running hrun hp, cycle, hf]
  rw [hs1]
  rfl

end Sys2Proof.Proofs

namespace Sys2Proof.Proofs

open Sys2Proof.Machine Sys2Proof.Claims

variable {s t u : State} {z : Size} {p q : Param}

/-! ## The next states of data movement (R191 to R195) and DBG (R341) -/

/-- A meaning that checks its destinations completes exactly where they are writable. -/
theorem ite_writable_eq_next {c : Bool} : (if c then Host.Outcome.next u else .refused .immediateDestination :
    Host.Outcome State Fault Refusal) = .next t ↔ c = true ∧ t = u := by
  cases c with
  | false => simp
  | true => simp [eq_comm]

theorem exec_xchg_next : exec (.xchg z p q) s = .next t ↔ (p.writable && q.writable) = true ∧
    t = (((after2 s z p q).writeLoc z (s.locate p) (val2 s z p q)).writeLoc z ((after1 s z p).locate q)
      (val1 s z p)).advance (s.lengthOf (.xchg z p q)) :=
  ite_writable_eq_next

theorem exec_push (s : State) (z : Size) (p : Param) :
    exec (.push z p) s = .next (((after1 s z p).push z (val1 s z p)).advance (s.lengthOf (.push z p))) := rfl

theorem exec_pop_next : exec (.pop z p) s = .next t ↔
    p.writable = true ∧ t = ((s.pop z).2.writeLoc z (s.locate p) (s.pop z).1).advance (s.lengthOf (.pop z p)) :=
  ite_writable_eq_next

theorem exec_dbg_next : exec (.dbg z p) s = .next t ↔ p.writable = true ∧
    t = (s.countClock.writeLoc z (s.locate p) (Config.clock s.clockDraws)).advance (s.lengthOf (.dbg z p)) :=
  ite_writable_eq_next

/-- Settles O34: MOV is the two-parameter shape with a handler that hands its value on. -/
theorem movCopiesTheValue : Obligations.MovCopiesTheValue := by
  refine fun s z p q => ⟨⟨rfl, rfl⟩, fun hq => ?_⟩
  rw [exec, execMov, runUnary_next]
  exact ⟨hq, rfl⟩

/-- Settles O35: the meaning reads both values, with their locators, before its first write. -/
theorem xchgSwapsTheValues : Obligations.XchgSwapsTheValues :=
  fun _ _ _ _ => ⟨⟨rfl, rfl⟩, fun hp hq => exec_xchg_next.2 ⟨Bool.and_eq_true_iff.2 ⟨hp, hq⟩, rfl⟩⟩

/-- Settles O36: a push is a data write after RSP has moved, a pop a data read before it does. -/
theorem pushStoresAndPopLoads : Obligations.PushStoresAndPopLoads :=
  fun s z p => ⟨⟨rfl, rfl⟩, ⟨rfl, rfl⟩, exec_push s z p, fun hp => exec_pop_next.2 ⟨hp, rfl⟩⟩

/-! ## PUSH and POP as MOV (R196) -/

theorem subValue_eq_of_not_readsRsp (h : ∀ r, r ≠ .rsp → t.getReg r = s.getReg r) {u : Sub}
    (hu : subReadsRsp u = false) : t.subValue u = s.subValue u := by
  cases u with
  | slit v => rfl
  | sreg r => exact h r (by rintro rfl; cases hu)

theorem optSubValue_eq_of_not_readsRsp (h : ∀ r, r ≠ .rsp → t.getReg r = s.getReg r) {u : Option Sub}
    (hu : u.any subReadsRsp = false) (w : Word) : t.optSubValue w u = s.optSubValue w u := by
  cases u with
  | none => rfl
  | some u => exact subValue_eq_of_not_readsRsp h hu

theorem effective_eq_of_not_readsRsp (h : ∀ r, r ≠ .rsp → t.getReg r = s.getReg r) {c : Calc}
    (hc : locatorReadsRsp (.calca c) = false) : t.effective c = s.effective c := by
  simp only [locatorReadsRsp, Bool.or_eq_false_iff] at hc
  obtain ⟨⟨⟨hbase, hindex⟩, hscale⟩, hoffset⟩ := hc
  simp only [State.effective, subValue_eq_of_not_readsRsp h hbase, optSubValue_eq_of_not_readsRsp h hindex,
    optSubValue_eq_of_not_readsRsp h hscale, optSubValue_eq_of_not_readsRsp h hoffset]

/-- States whose registers differ in RSP alone give a parameter whose locator does not read RSP the same locator. -/
theorem locate_eq_of_not_readsRsp (h : ∀ r, r ≠ .rsp → t.getReg r = s.getReg r)
    (hp : locatorReadsRsp p = false) : t.locate p = s.locate p := by
  cases p with
  | reg r | lit v | lita v | stk => rfl
  | rega r => exact congrArg Locator.mem (h r (by rintro rfl; cases hp))
  | calca c => exact congrArg Locator.mem (effective_eq_of_not_readsRsp h hp)
  | calcl c => exact congrArg Locator.imm (effective_eq_of_not_readsRsp h hp)

theorem pop_locate (s : State) (z : Size) (hp : locatorReadsRsp p = false) : (s.pop z).2.locate p = s.locate p :=
  locate_eq_of_not_readsRsp (fun r hr => ((afterReads_after1 s z .stk).frame z).regs r fun h => hr h.1) hp

/-- `STK` has no payload, so it adds nothing to an instruction's length (R110). -/
theorem lengthOf_pop_eq_mov (s : State) (z : Size) (p : Param) : s.lengthOf (.pop z p) = s.lengthOf (.mov z .stk p) :=
  congrArg (8 + ·) (Nat.zero_add _).symm

/-- Settles O33: a POP locates before RSP moves and the MOV after it, which only a locator that reads RSP can tell. -/
theorem pushAndPopAreMovesOfTheStack : Obligations.PushAndPopAreMovesOfTheStack := by
  refine fun s z p => ⟨rfl, fun hw hp => ?_⟩
  rw [exec_pop_next.2 ⟨hw, rfl⟩, (movCopiesTheValue s z .stk p).2 hw, lengthOf_pop_eq_mov, ← pop_locate s z hp]
  rfl

/-! ## Frames of the stack instructions, XCHG and DBG -/

/-- A frame whose change also draws no NaN, and enqueues nothing but HardwareFaults. -/
structure QuietFrame (named : Reg → Prop) (z : Size) (addrs : List Word) (s t : State) : Prop
    extends Frame named z addrs s t where
  nanDraws : t.nanDraws = s.nanDraws
  queue : OnlyHardwareFaults s t

theorem QuietFrame.trans {n m : Reg → Prop} {a b : List Word} (h1 : QuietFrame n z a s t) (h2 : QuietFrame m z b t u) :
    QuietFrame (fun r => n r ∨ m r) z (a ++ b) s u where
  toFrame := h1.toFrame.trans h2.toFrame
  nanDraws := h2.nanDraws.trans h1.nanDraws
  queue := onlyHardwareFaults_trans h1.queue h1.platform h2.queue

theorem AfterReads.quietFrame {ps : List Param} (h : AfterReads ps s t) (z : Size) :
    QuietFrame (fun r => r = .rsp ∧ .stk ∈ ps) z [] s t :=
  ⟨h.frame z, h.nanDraws, h.onlyHardwareFaults⟩

theorem quietFrame_writeLoc (s : State) (z : Size) (l : Locator) (v : Word)
    (hw : Memory.wf s.platform.memSize s.mem = true) :
    QuietFrame (fun r => l = .reg r ∨ (r = .rsp ∧ l = .stk)) z (storeAddress z s l).toList s (s.writeLoc z l v) :=
  ⟨frame_writeLoc s z l v hw, writeLoc_nanDraws s z l v, onlyHardwareFaults_writeLoc s z l v⟩

theorem quietFrame_advance (s : State) (z : Size) (len : Nat) : QuietFrame (· = .rip) z [] s (s.advance len) :=
  ⟨frame_setReg s z .rip _, rfl, onlyHardwareFaults_same rfl⟩

/-- A frame may name more. -/
theorem QuietFrame.mono {n m : Reg → Prop} {a b : List Word} (h : QuietFrame n z a s t) (hn : ∀ r, n r → m r)
    (ha : a ⊆ b) : QuietFrame m z b s t :=
  ⟨h.toFrame.mono hn ha, h.nanDraws, h.queue⟩

/-- A frame in the statements' words, which take RIP for granted. -/
theorem QuietFrame.claims {n : Reg → Prop} {a : List Word} (h : QuietFrame (fun r => r = .rip ∨ n r) z a s t) :
    SameRegistersBut n s t ∧ SameControl s t ∧ SameRecord s t ∧ t.nanDraws = s.nanDraws ∧ t.platform = s.platform ∧
      OnlyHardwareFaults s t ∧ OnlyStoresAt z a s t :=
  ⟨h.sameRegistersBut fun _ => id, h.control, h.record, h.nanDraws, h.platform, h.queue, h.stores⟩

section
variable (hw : Memory.wf s.platform.memSize s.mem = true)
include hw

/-- The last write of an instruction, and step 4. -/
theorem quietFrame_writeLoc_advance (l : Locator) (v : Word) (len : Nat) :
    QuietFrame (fun r => r = .rip ∨ l = .reg r ∨ (r = .rsp ∧ l = .stk)) z (storeAddress z s l).toList s
      ((s.writeLoc z l v).advance len) :=
  ((quietFrame_writeLoc s z l v hw).trans (quietFrame_advance _ z len)).mono (fun _ => Or.symm) (by simp)

theorem push_frame (h : exec (.push z p) s = .next t) :
    QuietFrame (fun r => r = .rip ∨ r = .rsp) z [(after1 s z p).rsp - sizeWord z] s t := by
  rw [exec_push, Host.Outcome.next.injEq] at h
  subst h
  have hr := afterReads_after1 s z p
  refine ((hr.quietFrame z).trans (quietFrame_writeLoc_advance (hr.keeps.memory hw) .stk _ _)).mono ?_
    (by simp [storeAddress])
  rintro r (⟨hrsp, -⟩ | hrip | h | ⟨hrsp, -⟩)
  · exact .inr hrsp
  · exact .inl hrip
  · cases h
  · exact .inr hrsp

theorem pop_frame (h : exec (.pop z p) s = .next t) :
    QuietFrame (fun r => r = .rip ∨ r = .rsp ∨ s.locate p = .reg r) z
      (storeAddress z (s.pop z).2 (s.locate p)).toList s t := by
  obtain ⟨-, rfl⟩ := exec_pop_next.1 h
  have hr : AfterReads [.stk] s (s.pop z).2 := afterReads_after1 s z .stk
  refine ((hr.quietFrame z).trans (quietFrame_writeLoc_advance (hr.keeps.memory hw) _ _ _)).mono ?_ (by simp)
  rintro r (⟨hrsp, -⟩ | hrip | hreg | ⟨hrsp, -⟩)
  · exact .inr (.inl hrsp)
  · exact .inl hrip
  · exact .inr (.inr hreg)
  · exact .inr (.inl hrsp)

/-- DBG from the state that has counted its clock draw, and has changed nothing else. -/
theorem dbg_frame (h : exec (.dbg z p) s = .next t) :
    QuietFrame (fun r => r = .rip ∨ s.locate p = .reg r ∨ (r = .rsp ∧ p = .stk)) z
      (storeAddress z s (s.locate p)).toList s.countClock t := by
  obtain ⟨-, rfl⟩ := exec_dbg_next.1 h
  rw [← storeAddress_congr (countClock_rsp s)]
  simp only [← locate_eq_stk (s := s) (p := p)]
  exact quietFrame_writeLoc_advance (s := s.countClock) hw _ _ _

theorem xchg_frame (h : exec (.xchg z p q) s = .next t) :
    QuietFrame (fun r => r = .rip ∨ s.locate p = .reg r ∨ (after1 s z p).locate q = .reg r ∨
        (r = .rsp ∧ (p = .stk ∨ q = .stk))) z
      ((storeAddress z (after2 s z p q) (s.locate p)).toList ++
        (storeAddress z ((after2 s z p q).writeLoc z (s.locate p) (val2 s z p q)) ((after1 s z p).locate q)).toList)
      s t := by
  obtain ⟨-, rfl⟩ := exec_xchg_next.1 h
  have hr := afterReads_after2 s z p q
  have hw2 := hr.keeps.memory hw
  have hw1 := (keeps_writeLoc _ z (s.locate p) (val2 s z p q)).memory hw2
  refine ((hr.quietFrame z).trans ((quietFrame_writeLoc _ z _ _ hw2).trans
    (quietFrame_writeLoc_advance hw1 _ _ _))).mono ?_ (by simp)
  rintro r (⟨hrsp, hs⟩ | (hp | ⟨hrsp, hs⟩) | hrip | hq | ⟨hrsp, hs⟩)
  · exact .inr (.inr (.inr ⟨hrsp, by simpa [eq_comm] using hs⟩))
  · exact .inr (.inl hp)
  · exact .inr (.inr (.inr ⟨hrsp, .inl (locate_eq_stk.1 hs)⟩))
  · exact .inl hrip
  · exact .inr (.inr (.inl hq))
  · exact .inr (.inr (.inr ⟨hrsp, .inr (locate_eq_stk.1 hs)⟩))

end

/-- Settles O59: each of the four is reads, destination writes and step 4; DBG's clock draw is left out of its record. -/
theorem stackAndExchangeFrame : Obligations.StackAndExchangeFrame := by
  refine fun s t z p q hw => ⟨fun h => (push_frame hw h).claims, fun h => (pop_frame hw h).claims, fun h => ?_,
    fun h => (xchg_frame hw h).claims⟩
  obtain ⟨hregs, hcontrol, ⟨hevents, -⟩, hrest⟩ := (dbg_frame hw h).claims
  exact ⟨hregs, hcontrol, hevents, hrest⟩

end Sys2Proof.Proofs

namespace Sys2Proof.Proofs

open Sys2Proof.Machine Sys2Proof.Claims

variable {s t : State} {z : Size} {p q : Param} {i : Instr}

/-! ## The next states of the jumps (R211 to R213) -/

section
variable {taken : Word → Bool} (len : Nat)

theorem runJump_taken (h : taken (val1 s z p) = true) :
    runJump z p q len taken s = .next ((after2 s z p q).setReg .rip (val2 s z p q)) :=
  if_pos h

theorem runJump_notTaken (h : taken (val1 s z p) = false) :
    runJump z p q len taken s = .next ((after2 s z p q).advance len) :=
  if_neg (ne_true_of_eq_false h)

end

theorem exec_jmp (s : State) (z : Size) (p : Param) :
    exec (.jmp z p) s = .next ((after1 s z p).setReg .rip (val1 s z p)) := rfl

theorem exec_jz (s : State) (z : Size) (p q : Param) :
    exec (.jz z p q) s = runJump z p q (s.lengthOf (.jz z p q)) (fun t => decide (t = 0)) s := rfl

theorem exec_jnz (s : State) (z : Size) (p q : Param) :
    exec (.jnz z p q) s = runJump z p q (s.lengthOf (.jnz z p q)) (fun t => decide (t ≠ 0)) s := rfl

/-- Settles O37: a conditional jump is the shared shape with its test, whose two answers are its two next states. -/
theorem jumpsSetRipToTheTarget : Obligations.JumpsSetRipToTheTarget := by
  refine fun s z p q => ⟨⟨rfl, rfl⟩, ⟨rfl, rfl⟩, ⟨rfl, rfl⟩, exec_jmp s z p, fun h => ?_, fun h => ?_, fun h => ?_,
    fun h => ?_⟩
  · exact (exec_jz s z p q).trans (runJump_taken _ (decide_eq_true h))
  · exact (exec_jz s z p q).trans (runJump_notTaken _ (decide_eq_false h))
  · exact (exec_jnz s z p q).trans (runJump_taken _ (decide_eq_true h))
  · exact (exec_jnz s z p q).trans (runJump_notTaken _ (decide_eq_false (not_not_intro h)))

/-! ## The frame of the jumps and INT -/

theorem exec_int (s : State) (z : Size) (p : Param) : exec (.int z p) s
    = .next (((after1 s z p).requestCause (val1 s z p)).advance (s.lengthOf (.int z p))) := rfl

/-- A jump or INT reads its parameters, for INT enqueues a cause, and sets RIP. -/
theorem jumpOrInt_cases (hi : i = .jmp z p ∨ i = .jz z p q ∨ i = .jnz z p q ∨ i = .int z p) (h : exec i s = .next t) :
    ∃ s' w, AfterReads i.params s s' ∧
      (t = s'.setReg .rip w ∨ ∃ c, i = .int z p ∧ t = (s'.enqueue c).setReg .rip w) := by
  rcases hi with rfl | rfl | rfl | rfl
  · rw [exec_jmp, Host.Outcome.next.injEq] at h
    exact ⟨_, _, afterReads_after1 s z p, .inl h.symm⟩
  · rw [exec_jz] at h
    obtain ⟨w, e⟩ := runJump_next h
    exact ⟨_, w, afterReads_after2 s z p q, .inl e⟩
  · rw [exec_jnz] at h
    obtain ⟨w, e⟩ := runJump_next h
    exact ⟨_, w, afterReads_after2 s z p q, .inl e⟩
  · obtain ⟨c, e⟩ := requestCause_enqueues (after1 s z p) (val1 s z p)
    rw [exec_int, e, Host.Outcome.next.injEq] at h
    exact ⟨_, _, afterReads_after1 s z p, .inr ⟨c, rfl, h.symm⟩⟩

theorem AfterReads.mem {ps : List Param} (h : AfterReads ps s t) : t.mem = s.mem := by
  obtain ⟨sp, n, _, rfl⟩ := h
  rfl

/-- Reads followed by a write of RIP store nowhere, in Memory or on the configuration device. -/
theorem AfterReads.frame_setRip {ps : List Param} (h : AfterReads ps s t) (z : Size) (w : Word) :
    QuietFrame (fun r => r = .rip ∨ (r = .rsp ∧ .stk ∈ ps)) z [] s (t.setReg .rip w) :=
  ((h.quietFrame z).trans ⟨frame_setReg t z .rip w, rfl, onlyHardwareFaults_same rfl⟩).mono (fun _ => Or.symm) (by simp)

/-- Settles O60: the reads' frame, which stores at no address, with RIP set; INT's cause comes after the reads' faults. -/
theorem jumpsAndIntFrame : Obligations.JumpsAndIntFrame := by
  intro s t z p q i hi h
  obtain ⟨s', w, hr, ht⟩ := jumpOrInt_cases hi h
  obtain ⟨hregs, hcontrol, hrecord, hnan, hplat, hq, hstores⟩ := (hr.frame_setRip z w).claims
  have hdev : SameDevice s (s'.setReg .rip w) := hstores.2 (by simp)
  rcases ht with rfl | ⟨c, hint, rfl⟩
  · exact ⟨hregs, hcontrol, hrecord, hnan, hplat, hdev, hr.mem, .inl hq⟩
  · obtain ⟨n, hn⟩ := hq
    have hregs' : SameRegistersBut (fun r => r = .rsp ∧ .stk ∈ i.params) s ((s'.enqueue c).setReg .rip w) :=
      fun r hrip hrsp => ((frame_setQueue (s'.setReg .rip w) z _).regs r id).trans (hregs r hrip hrsp)
    exact ⟨hregs', hcontrol, hrecord, hnan, hplat, hdev, hr.mem, .inr ⟨c, n, hint, congrArg (· ++ [c]) hn⟩⟩

end Sys2Proof.Proofs

namespace Sys2Proof.Proofs

open Sys2Proof.Machine Sys2Proof.Claims

variable {s s1 t : State} {z : Size} {p : Param} {c : Cause}

/-! ## The next states of interrupt control (R221 to R227), PAU and NOP (R342, R343) -/

theorem AfterReads.rip {ps : List Param} (h : AfterReads ps s t) : t.rip = s.rip := by
  obtain ⟨sp, n, _, rfl⟩ := h
  rfl

theorem AfterReads.vec {ps : List Param} (h : AfterReads ps s t) : t.vec = s.vec := by
  obtain ⟨sp, n, _, rfl⟩ := h
  rfl

/-- An operand that is a cause number requests that cause (R221). -/
theorem requestCause_of_toNat_eq (s : State) {v : Word} (h : v.toNat = c.val) : s.requestCause v = s.enqueue c := by
  have hlt : v.toNat < 255 := h ▸ c.isLt
  rw [State.requestCause, dif_pos hlt]
  exact congrArg s.enqueue (Fin.ext h)

/-- An operand above 254 requests InvalidInstruction (R222). -/
theorem requestCause_of_gt (s : State) {v : Word} (h : 254 < v.toNat) :
    s.requestCause v = s.enqueue s.platform.causes.invalidInstruction := by
  rw [State.requestCause, dif_neg (by omega)]
  rfl

theorem exec_int_of_requestCause (h : (after1 s z p).requestCause (val1 s z p) = (after1 s z p).enqueue c) :
    exec (.int z p) s = .next (((after1 s z p).enqueue c).advance (s.lengthOf (.int z p))) := by
  rw [exec_int, h]

/-- An INT's last two steps, from the address it was fetched at: the operand's read does not move RIP. -/
theorem enqueue_advance_after1 (s : State) (z : Size) (p : Param) (c : Cause) (len : Nat) :
    ((after1 s z p).enqueue c).advance len
      = { (after1 s z p) with queue := (after1 s z p).queue ++ [c], rip := s.rip + BitVec.ofNat 64 len } := by
  rw [← (afterReads_after1 s z p).rip]
  rfl

/-- Settles O38: either way INT requests one cause, which by its operand is the one named or InvalidInstruction. -/
theorem intEnqueuesItsCause : Obligations.IntEnqueuesItsCause := by
  refine fun s z p => ⟨⟨rfl, rfl⟩, fun c hc => ?_, fun hgt => ?_⟩
  · rw [exec_int_of_requestCause (requestCause_of_toNat_eq _ hc), enqueue_advance_after1]
  · rw [exec_int_of_requestCause (requestCause_of_gt _ hgt), enqueue_advance_after1,
      (afterReads_after1 s z p).keeps.platform]

theorem exec_eint (s : State) (z : Size) : exec (.eint z) s = .next s.returnFromInterrupt := rfl

theorem exec_inte (s : State) (z : Size) :
    exec (.inte z) s = .next ((s.setIe true).advance (s.lengthOf (.inte z))) := rfl

theorem exec_intd (s : State) (z : Size) :
    exec (.intd z) s = .next ((s.setIe false).advance (s.lengthOf (.intd z))) := rfl

theorem exec_hlt (s : State) (z : Size) : exec (.hlt z) s = .next (s.emit .quantumWait) := rfl

theorem exec_pau (s : State) (z : Size) :
    exec (.pau z) s = .next (((s.setPaused true).emit .breakpoint).advance (s.lengthOf (.pau z))) := rfl

theorem exec_nop (s : State) (z : Size) : exec (.nop z) s = .next (s.advance (s.lengthOf (.nop z))) := rfl

/-- Settles O39: the next state of each, an instruction without parameters being its header's 8 bytes long. -/
theorem interruptControlInstructions : Obligations.InterruptControlInstructions :=
  fun s z => ⟨⟨rfl, rfl⟩, ⟨rfl, rfl⟩, ⟨rfl, rfl⟩, exec_eint s z, exec_inte s z, exec_intd s z⟩

/-- Settles O40: the next state of each, with the same length. -/
theorem hltPauAndNop : Obligations.HltPauAndNop :=
  fun s z => ⟨⟨rfl, rfl⟩, ⟨rfl, rfl⟩, ⟨rfl, rfl⟩, exec_hlt s z, exec_pau s z, exec_nop s z⟩

/-! ## The dispatch check after INT and HLT (R227, R228, R370) -/

theorem dispatchCheck_of_pending {rest : List Cause} (hie : s.ie = true) (hpisr : s.pisr = false)
    (hq : s.queue = c :: rest) : s.dispatchCheck = (s.setQueue rest).takeInterrupt c := by
  rcases dispatchCheck_cases s with ⟨c', rest', _, _, hq', e⟩ | ⟨h, _⟩
  · obtain ⟨rfl, rfl⟩ := List.cons_eq_cons.1 (hq'.symm.trans hq)
    exact e
  · simp [hie, hpisr, hq] at h

theorem dispatchCheck_of_none (h : s.ie = false ∨ s.pisr = true ∨ s.queue = []) : s.dispatchCheck = s := by
  rcases dispatchCheck_cases s with ⟨c, rest, hie, hpisr, hq, _⟩ | ⟨_, e⟩
  · simp [hie, hpisr, hq] at h
  · exact e

/-- A cause enqueued into an empty queue is taken in the same cycle, RSIP saving the RIP after step 4. -/
theorem enqueue_dispatchCheck (c : Cause) (len : Nat) (hie : s.ie = true) (hpisr : s.pisr = false) (hq : s.queue = []) :
    ((s.enqueue c).advance len).dispatchCheck = (((s.enqueue c).advance len).setQueue []).takeInterrupt c :=
  dispatchCheck_of_pending (s := (s.enqueue c).advance len) hie hpisr (congrArg (· ++ [c]) hq)

theorem isProtected_iff (s : State) (c : Cause) : s.isProtected c = true ↔ c ∈ s.platform.protectedCauses :=
  List.contains_iff_mem

theorem takeInterrupt_isr_of_not_mem (s : State) (h : c ∉ s.platform.protectedCauses) : (s.takeInterrupt c).isr = true := by
  rw [takeInterrupt_isr, Bool.eq_false_iff.2 (mt (isProtected_iff s c).1 h)]
  exact Bool.or_true _

theorem takeInterrupt_pisr_of_mem (s : State) (h : c ∈ s.platform.protectedCauses) : (s.takeInterrupt c).pisr = true := by
  rw [takeInterrupt_pisr, (isProtected_iff s c).2 h]
  exact Bool.or_true _

/-- Settles O23: the requested cause is the queue's head, so the dispatch check takes it, and RSIP gets the RIP that INT
has advanced; EINT's RIP and flags depend on RSIP alone. -/
theorem intThenEintReturnsAfterTheInt : Obligations.IntThenEintReturnsAfterTheInt := by
  intro s z z' p c hc hie hpisr hq
  have hr := afterReads_after1 s z p
  have hplat := hr.keeps.platform
  have hrsip : (after1 s z p).rip + BitVec.ofNat 64 (s.lengthOf (.int z p))
      = s.rip + BitVec.ofNat 64 (s.lengthOf (.int z p)) := by rw [hr.rip]
  refine ⟨_, exec_int_of_requestCause (requestCause_of_toNat_eq _ hc), ?_⟩
  rw [enqueue_dispatchCheck c _ (hr.keeps.ie.trans hie) (hr.keeps.pisr.trans hpisr) hq]
  refine ⟨rfl, congrArg (·[c]) hr.vec, hrsip, fun h => ?_, fun h => ?_, fun u hu => ?_⟩
  · exact takeInterrupt_isr_of_not_mem _ (hplat.symm ▸ h)
  · exact takeInterrupt_pisr_of_mem _ (hplat.symm ▸ h)
  · exact ⟨_, exec_eint u z', hu.trans hrsip, rfl, rfl⟩

theorem step_hlt (hrun : s.run = true) (hp : s.paused = false) (hf : s.fetchDecode = (.ok (.hlt z), s1)) :
    step s = .next (s1.emit .quantumWait).dispatchCheck :=
  (stepRunsTheDecodedInstruction s s1 (.hlt z) hrun hp hf).2 _ (exec_hlt s1 z)

/-- The fetches' faults are appended behind the head cause. -/
theorem fetchFaulted_queue_of_cons {rest : List Cause} (h : s.queue = c :: rest) (log : List (Nat × Nat)) :
    ∃ rest', (fetchFaulted s log).queue = c :: rest' :=
  ⟨_, by rw [fetchFaulted, h, List.cons_append]⟩

/-- Settles O24: up to its dispatch check the HLT's step changes only the queue, by faults behind its head, and the
record of events. -/
theorem haltedMachineResumesAtTheVector : Obligations.HaltedMachineResumesAtTheVector := by
  intro s s1 z hrun hp hf
  rw [step_hlt hrun hp hf]
  obtain ⟨-, rfl⟩ := fetchDecode_eq hf
  refine ⟨fun c rest hie hpisr hq => ⟨_, rfl, ?_⟩, fun h => ⟨_, rfl, ?_⟩⟩
  · obtain ⟨rest', hq'⟩ := fetchFaulted_queue_of_cons hq _
    rw [dispatchCheck_of_pending (s := (fetchFaulted s _).emit .quantumWait) hie hpisr hq']
    exact ⟨rfl, rfl⟩
  · rw [dispatchCheck_of_none (s := (fetchFaulted s _).emit .quantumWait) h]
    exact ⟨rfl, rfl⟩

end Sys2Proof.Proofs

namespace Sys2Proof.Proofs

open Sys2Proof.Machine Sys2Proof.Claims

variable {s t u : State} {z : Size} {p q d : Param} {i : Instr}

/-! ## Words, the mask and the reduction modulo `m + 1` (R10, R240) -/

theorem mask_eq (z : Size) : z.mask = 2 ^ z.bits - 1 := by cases z <;> rfl

theorem mask_succ (z : Size) : z.mask + 1 = 2 ^ z.bits := by cases z <;> rfl

theorem two_pow_bits_le (z : Size) : 2 ^ z.bits ≤ 2 ^ 64 := by cases z <;> decide

theorem reduceTo_eq (z : Size) (n : Nat) : reduceTo z n = BitVec.ofNat 64 (n % 2 ^ z.bits) := by
  rw [reduceTo, mask_succ]

/-- A number within the mask is not changed by the reduction, nor by being put into a word. -/
theorem reduceTo_toNat_of_lt {n : Nat} (h : n < 2 ^ z.bits) : (reduceTo z n).toNat = n := by
  rw [reduceTo_eq, Nat.mod_eq_of_lt h, BitVec.toNat_ofNat, Nat.mod_eq_of_lt (h.trans_le (two_pow_bits_le z))]

/-- The residue is not negative, so that its word is that of the natural number the model takes. -/
theorem subResult_eq (z : Size) (a b : Nat) : subResult z a b = BitVec.ofInt 64 (((b : Int) - (a : Int)) % 2 ^ z.bits) := by
  have hm : (z.mask : Int) + 1 = 2 ^ z.bits := by exact_mod_cast mask_succ z
  have hnonneg : 0 ≤ ((b : Int) - a) % 2 ^ z.bits := Int.emod_nonneg _ (by positivity)
  rw [subResult, hm, ← BitVec.ofInt_natCast, Int.toNat_of_nonneg hnonneg]

theorem word_toNat_eq_zero {a : Word} : a.toNat = 0 ↔ a = 0 := BitVec.toNat_inj (y := 0)

/-! ## The carry and the flag update (R26, R28) -/

theorem setRcIf_decide (s : State) (c : Prop) [Decidable c] : s.setRcIf (decide c) = rcSetWhen c s := by
  simp only [State.setRcIf, rcSetWhen, decide_eq_true_eq]

theorem AfterReads.carry {ps : List Param} (h : AfterReads ps s t) : t.carry = s.carry := by
  rw [State.carry, State.carry, h.rc]

theorem carryOverflows_iff {c : Nat} {a : Word} : carryOverflows z c a = true ↔ c = 1 ∧ 2 ^ z.bits - 1 < a.toNat + 1 := by
  rw [carryOverflows, mask_eq, Bool.and_eq_true, decide_eq_true_eq, decide_eq_true_eq]

/-! ## The handlers, in the terms of their rules (R241 to R250) -/

section
variable (z : Size) (a b : Word) (s : State)

theorem addHandler_eq : addHandler z a b s
    = (rcSetWhen (2 ^ z.bits - 1 < a.toNat + b.toNat) s, some (BitVec.ofNat 64 ((a.toNat + b.toNat) % 2 ^ z.bits))) := by
  rw [addHandler, addOverflows, setRcIf_decide, reduceTo_eq, mask_eq]

theorem subHandler_eq : subHandler z a b s
    = (rcSetWhen (b.toNat < a.toNat) s,
        some (BitVec.ofInt 64 (((b.toNat : Int) - (a.toNat : Int)) % 2 ^ z.bits))) := by
  rw [subHandler, subBorrows, setRcIf_decide, subResult_eq]

theorem mulHandler_eq : mulHandler z a b s
    = (rcSetWhen (2 ^ z.bits - 1 < a.toNat * b.toNat) s, some (BitVec.ofNat 64 (a.toNat * b.toNat % 2 ^ z.bits))) := by
  rw [mulHandler, mulOverflows, setRcIf_decide, reduceTo_eq, mask_eq]

theorem incHandler_eq : incHandler z a s
    = (rcSetWhen (2 ^ z.bits - 1 < a.toNat + 1) s, some (BitVec.ofNat 64 ((a.toNat + 1) % 2 ^ z.bits))) := by
  rw [incHandler, incOverflows, setRcIf_decide, reduceTo_eq, mask_eq]

theorem decHandler_eq : decHandler z a s
    = (rcSetWhen (a.toNat = 0) s, some (BitVec.ofInt 64 (((a.toNat : Int) - 1) % 2 ^ z.bits))) := by
  rw [decHandler, decBorrows, setRcIf_decide, subResult_eq, Nat.cast_one]

/-- NEG's word: the exclusive or with `2^(8s - 1)` toggles that bit and no other. -/
theorem getLsbD_xor_two_pow (n : Nat) {k : Nat} (hk : k < 64) :
    (a ^^^ BitVec.ofNat 64 (2 ^ n)).getLsbD k = if k = n then !a.getLsbD k else a.getLsbD k := by
  rw [BitVec.getLsbD_xor, BitVec.getLsbD_ofNat, Nat.testBit_two_pow, decide_eq_true hk, Bool.true_and]
  by_cases h : k = n
  · rw [if_pos h, decide_eq_true h.symm, Bool.xor_true]
  · rw [if_neg h, decide_eq_false (Ne.symm h), Bool.xor_false]

variable {z a s} {c : Nat} (hc : s.carry = c)
include hc

/-- The branch in which the carry overflows alone: `b` plays no part in it. -/
theorem adcSbbHandler_of_carry (h : c = 1 ∧ 2 ^ z.bits - 1 < a.toNat + 1) :
    adcHandler z a b s = (s.setReg .rc allOnes, some (BitVec.ofNat 64 (2 ^ z.bits - 1))) ∧
    sbbHandler z a b s = (s.setReg .rc allOnes, some (BitVec.ofNat 64 (2 ^ z.bits - 1))) := by
  rw [adcHandler, sbbHandler, hc, if_pos (carryOverflows_iff.2 h), if_pos (carryOverflows_iff.2 h), mask_eq]
  exact ⟨rfl, rfl⟩

theorem adcHandler_of_not_carry (h : ¬(c = 1 ∧ 2 ^ z.bits - 1 < a.toNat + 1)) : adcHandler z a b s
    = (rcSetWhen (2 ^ z.bits - 1 < a.toNat + c + b.toNat) s,
        some (BitVec.ofNat 64 ((a.toNat + c + b.toNat) % 2 ^ z.bits))) := by
  rw [adcHandler, hc, if_neg (mt carryOverflows_iff.1 h), adcOverflows, setRcIf_decide, reduceTo_eq, mask_eq]

theorem sbbHandler_of_not_carry (h : ¬(c = 1 ∧ 2 ^ z.bits - 1 < a.toNat + 1)) : sbbHandler z a b s
    = (rcSetWhen (b.toNat < a.toNat + c) s,
        some (BitVec.ofInt 64 (((b.toNat : Int) - ((a.toNat : Int) + c)) % 2 ^ z.bits))) := by
  rw [sbbHandler, hc, if_neg (mt carryOverflows_iff.1 h), sbbBorrows, setRcIf_decide, subResult_eq, Nat.cast_add]

end

/-! ## The next state of an instruction from its handler's answer (R158, R172) -/

theorem exec_unary_delivers {h : Word → State → Handled} {v : Word}
    (hi : exec i s = runUnary z p d (s.lengthOf i) h s) (hd : d.writable = true)
    (hh : h (val1 s z p) (after1 s z p) = (u, some v)) :
    exec i s = .next (delivered z d (s.lengthOf i) (after1 s z p) u v) := by
  rw [hi, runUnary_next]
  exact ⟨hd, congrArg (fun k => (finishWrite z ((after1 s z p).locate d) k).advance (s.lengthOf i)) hh.symm⟩

section
variable {h : Word → Word → State → Handled} (hi : exec i s = runBinary z p q d (s.lengthOf i) h s)
  (hd : d.writable = true)
include hi hd

theorem exec_binary_finishes :
    exec i s = .next ((finishWrite z ((after2 s z p q).locate d)
      (h (val1 s z p) (val2 s z p q) (after2 s z p q))).advance (s.lengthOf i)) := by
  rw [hi, runBinary_next]
  exact ⟨hd, rfl⟩

theorem exec_binary_delivers {v : Word} (hh : h (val1 s z p) (val2 s z p q) (after2 s z p q) = (u, some v)) :
    exec i s = .next (delivered z d (s.lengthOf i) (after2 s z p q) u v) := by
  rw [exec_binary_finishes hi hd, hh]
  rfl

/-- A handler that raises DivideByZero and hands over no word: nothing is written, and RIP advances. -/
theorem exec_binary_divides (hh : h (val1 s z p) (val2 s z p q) (after2 s z p q)
      = ((after2 s z p q).raise .divideByZero, none)) :
    exec i s = .next { (after2 s z p q) with
      queue := (after2 s z p q).queue ++ [s.platform.causes.divideByZero]
      rip := (after2 s z p q).rip + BitVec.ofNat 64 (s.lengthOf i) } := by
  rw [exec_binary_finishes hi hd, hh, ← (afterReads_after2 s z p q).keeps.platform]
  rfl

end

/-! ## The integer instructions (R241 to R250) -/

/-- Settles O42: each is the three-parameter shape with its handler, whose answer is the rule's. -/
theorem addSubMulResults : Obligations.AddSubMulResults := by
  refine fun s z p q d hd => ⟨⟨rfl, rfl⟩, ⟨rfl, rfl⟩, ⟨rfl, rfl⟩, ?_, ?_, ?_⟩
  · exact exec_binary_delivers (h := addHandler z) rfl hd (addHandler_eq ..)
  · exact exec_binary_delivers (h := subHandler z) rfl hd (subHandler_eq ..)
  · exact exec_binary_delivers (h := mulHandler z) rfl hd (mulHandler_eq ..)

/-- Settles O43: reading the parameters leaves RC alone, so that the handlers see the carry of the first state. -/
theorem adcSbbResults : Obligations.AdcSbbResults := by
  intro s z p q d hd a b s2 c
  have hc : s2.carry = c := (afterReads_after2 s z p q).carry
  refine ⟨⟨rfl, rfl⟩, ⟨rfl, rfl⟩, fun h => ⟨?_, ?_⟩, fun h => ⟨?_, ?_⟩⟩
  · exact exec_binary_delivers (h := adcHandler z) rfl hd (adcSbbHandler_of_carry _ hc h).1
  · exact exec_binary_delivers (h := sbbHandler z) rfl hd (adcSbbHandler_of_carry _ hc h).2
  · exact exec_binary_delivers (h := adcHandler z) rfl hd (adcHandler_of_not_carry _ hc h)
  · exact exec_binary_delivers (h := sbbHandler z) rfl hd (sbbHandler_of_not_carry _ hc h)

section
variable (hd : d.writable = true)
include hd

theorem exec_div_of_ne (ha : val1 s z p ≠ 0) : exec (.div z p q d) s
    = .next (delivered z d (s.lengthOf (.div z p q d)) (after2 s z p q) (after2 s z p q)
        (reduceTo z ((val2 s z p q).toNat / (val1 s z p).toNat))) :=
  exec_binary_delivers (h := divHandler z) rfl hd (if_neg ha)

theorem exec_mod_of_ne (ha : val1 s z p ≠ 0) : exec (.mod z p q d) s
    = .next (delivered z d (s.lengthOf (.mod z p q d)) (after2 s z p q) (after2 s z p q)
        (reduceTo z ((val2 s z p q).toNat % (val1 s z p).toNat))) :=
  exec_binary_delivers (h := modHandler z) rfl hd (if_neg ha)

end

/-- Settles O44: the handlers' test of the divisor word is the test of its number. -/
theorem divModResults : Obligations.DivModResults := by
  refine fun s z p q d hd => ⟨⟨rfl, rfl⟩, ⟨rfl, rfl⟩, fun ha => ?_, fun ha => ?_⟩
  · have ha' : val1 s z p ≠ 0 := mt word_toNat_eq_zero.2 ha
    rw [exec_div_of_ne hd ha', exec_mod_of_ne hd ha', reduceTo_eq, reduceTo_eq]
    exact ⟨rfl, rfl⟩
  · have ha' : val1 s z p = 0 := word_toNat_eq_zero.1 ha
    exact ⟨exec_binary_divides (h := divHandler z) rfl hd (if_pos ha'),
      exec_binary_divides (h := modHandler z) rfl hd (if_pos ha')⟩

/-- Settles O45: INC and DEC by their handlers, NEG by the bits of its handler's word. -/
theorem incDecNegResults : Obligations.IncDecNegResults := by
  refine fun s z p d hd => ⟨⟨rfl, rfl⟩, ⟨rfl, rfl⟩, ⟨rfl, rfl⟩, ?_, ?_, _, fun _ hk => getLsbD_xor_two_pow _ _ hk, ?_⟩
  · exact exec_unary_delivers (h := incHandler z) rfl hd (incHandler_eq ..)
  · exact exec_unary_delivers (h := decHandler z) rfl hd (decHandler_eq ..)
  · exact exec_unary_delivers (h := negHandler z) rfl hd rfl

/-! ## Dividend, quotient and remainder (R251) -/

/-- The advance of RIP leaves the word in the general register it was delivered to. -/
theorem getReg_delivered_gpr (z : Size) (n : Fin 16) (len : Nat) (l h : State) (v : Word) :
    (delivered z (.reg (.gpr n)) len l h v).getReg (.gpr n) = v :=
  (getReg_setReg_ne (s := h.setReg (.gpr n) v) (r := .rip) _ (by simp)).trans (getReg_setReg_same _ _ v)

/-- Settles O46: quotient and remainder are at most the dividend, so that the reduction leaves them alone. -/
theorem quotientAndRemainderAgree : Obligations.QuotientAndRemainderAgree := by
  intro s t u z p q n k ha _ hb ht hu
  rw [exec_div_of_ne rfl ha, Host.Outcome.next.injEq] at ht
  rw [exec_mod_of_ne rfl ha, Host.Outcome.next.injEq] at hu
  have hquot : (t.getReg (.gpr n)).toNat = (val2 s z p q).toNat / (val1 s z p).toNat := by
    rw [← ht, getReg_delivered_gpr, reduceTo_toNat_of_lt ((Nat.div_le_self _ _).trans_lt hb)]
  have hrem : (u.getReg (.gpr k)).toNat = (val2 s z p q).toNat % (val1 s z p).toNat := by
    rw [← hu, getReg_delivered_gpr, reduceTo_toNat_of_lt ((Nat.mod_le _ _).trans_lt hb)]
  rw [hquot, hrem]
  exact ⟨(Nat.div_add_mod _ _).symm, Nat.mod_lt _ (Nat.pos_of_ne_zero (mt word_toNat_eq_zero.1 ha))⟩

end Sys2Proof.Proofs

namespace Sys2Proof.Proofs

open Sys2Proof.Machine Sys2Proof.Claims

variable {w x y : Word} {low : Nat}

/-! ## Patterns as a sign and 63 low bits (R270) -/

theorem fPack_toNat (b : Bool) (h : low < 2 ^ 63) : (fPack b low).toNat = b.toNat * 2 ^ 63 + low := by
  rw [fPack, BitVec.toNat_ofNat]
  cases b <;> (simp; omega)

theorem fSign_eq_decide (w : Word) : fSign w = decide (2 ^ 63 ≤ w.toNat) := BitVec.msb_eq_decide w

theorem fSign_fPack (b : Bool) (h : low < 2 ^ 63) : fSign (fPack b low) = b := by
  rw [fSign_eq_decide, fPack_toNat b h]
  cases b with
  | false => simpa using h
  | true => simp

theorem fExp_fPack (b : Bool) (h : low < 2 ^ 63) : fExp (fPack b low) = low / 2 ^ 52 := by
  rw [fExp, fPack_toNat b h]
  omega

theorem fFrac_fPack (b : Bool) (h : low < 2 ^ 63) : fFrac (fPack b low) = low % 2 ^ 52 := by
  rw [fFrac, fPack_toNat b h]
  omega

/-- Every word is a sign with 63 low bits. -/
theorem exists_fPack (w : Word) : ∃ b low, low < 2 ^ 63 ∧ w = fPack b low := by
  have hlow : w.toNat % 2 ^ 63 < 2 ^ 63 := Nat.mod_lt _ (by norm_num)
  refine ⟨fSign w, w.toNat % 2 ^ 63, hlow, BitVec.eq_of_toNat_eq ?_⟩
  have hw := w.isLt
  rw [fPack_toNat _ hlow, fSign_eq_decide, Bool.toNat, Bool.cond_decide]
  split <;> omega

/-- The exclusive or changes the sign bit and no other. -/
theorem fNegate_fPack (b : Bool) (h : low < 2 ^ 63) : fNegate (fPack b low) = fPack (!b) low := by
  have hq : (b.toNat * 2 ^ 63 + low) / 2 ^ 63 = b.toNat := by omega
  have hr : (b.toNat * 2 ^ 63 + low) % 2 ^ 63 = low := by omega
  have hdiv : (fNegate (fPack b low)).toNat / 2 ^ 63 = (!b).toNat := by
    rw [fNegate, BitVec.toNat_xor, Nat.xor_div_two_pow, fPack_toNat b h, hq]
    cases b <;> rfl
  have hmod : (fNegate (fPack b low)).toNat % 2 ^ 63 = low := by
    rw [fNegate, BitVec.toNat_xor, Nat.xor_mod_two_pow, fPack_toNat b h, hr]
    exact Nat.xor_zero low
  refine BitVec.eq_of_toNat_eq ?_
  rw [fPack_toNat _ h]
  omega

/-! ## The classes of patterns, by their low bits (R271) -/

section
variable (b : Bool) (h : low < 2 ^ 63)
include h

theorem fIsNaN_fPack : fIsNaN (fPack b low) = decide (fInfLow < low) := by
  rw [fIsNaN, fExp_fPack b h, fFrac_fPack b h, ← Bool.decide_and, decide_eq_decide, fInfLow]
  omega

theorem fIsInf_fPack : fIsInf (fPack b low) = decide (low = fInfLow) := by
  rw [fIsInf, fExp_fPack b h, fFrac_fPack b h, ← Bool.decide_and, decide_eq_decide, fInfLow]
  omega

theorem fIsZero_fPack : fIsZero (fPack b low) = decide (low = 0) := by
  rw [fIsZero, fExp_fPack b h, fFrac_fPack b h, ← Bool.decide_and, decide_eq_decide]
  omega

theorem isFinite_fPack : IsFinite (fPack b low) ↔ low < fInfLow := by
  rw [IsFinite, fIsNaN_fPack b h, fIsInf_fPack b h, decide_eq_false_iff_not, decide_eq_false_iff_not]
  omega

end

theorem fInfLow_lt : fInfLow < 2 ^ 63 := by decide

/-- A divisor's test finds the patterns of the two zeros and no other (R276). -/
theorem fIsZero_iff : fIsZero w = true ↔ w = 0 ∨ w = 0x8000000000000000#64 := by
  constructor
  · intro hz
    obtain ⟨b, low, h, rfl⟩ := exists_fPack w
    rw [fIsZero_fPack b h, decide_eq_true_eq] at hz
    subst hz
    cases b with
    | false => exact .inl rfl
    | true => exact .inr rfl
  · rintro (rfl | rfl) <;> rfl

theorem fIsNaN_nanFrom (raw : Word) : fIsNaN (nanFrom raw) = true := by
  have hf : fFrac raw < 2 ^ 52 := Nat.mod_lt _ (by norm_num)
  have hi : fInfLow = 2047 * 2 ^ 52 := rfl
  have hdrawn : 0 < (if fFrac raw = 0 then 1 else fFrac raw) ∧ (if fFrac raw = 0 then 1 else fFrac raw) < 2 ^ 52 := by
    split <;> omega
  rw [nanFrom, fIsNaN_fPack _ (by omega), decide_eq_true_eq]
  omega

/-- A NaN pattern is what its own word draws. -/
theorem nanFrom_of_fIsNaN (h : fIsNaN w = true) : nanFrom w = w := by
  obtain ⟨b, low, hlow, rfl⟩ := exists_fPack w
  rw [fIsNaN_fPack b hlow, decide_eq_true_eq] at h
  have hi : fInfLow = 2047 * 2 ^ 52 := rfl
  rw [nanFrom, fSign_fPack b hlow, fFrac_fPack b hlow, if_neg (by omega)]
  congr 1
  omega

end Sys2Proof.Proofs

namespace Sys2Proof.Proofs

open Sys2Proof.Machine Sys2Proof.Claims

variable {s : State} {z : Size} {p q d : Param} {i : Instr} {f : Option Word} {h : Word → Word → State → Handled}

/-! ## The floating instructions (R273 to R278) -/

/-- What an instruction does whose handler answers, for the words it reads, with a result of the numerics: it delivers the
result, or a NaN pattern and one draw more. -/
theorem exec_binary_floats (hi : exec i s = runBinary z p q d (s.lengthOf i) h s) (hd : d.writable = true)
    (hh : h (val1 s z p) (val2 s z p q) (after2 s z p q) = floatResult (after2 s z p q) f) :
    (∀ w, f = some w → exec i s = .next (delivered z d (s.lengthOf i) (after2 s z p q) (after2 s z p q) w)) ∧
    (f = none → ∃ w, fIsNaN w = true ∧ exec i s = .next (delivered z d (s.lengthOf i) (after2 s z p q)
      { (after2 s z p q) with nanDraws := (after2 s z p q).nanDraws + 1 } w)) := by
  refine ⟨fun w hf => ?_, fun hf => ⟨nanFrom (Config.nanPattern (after2 s z p q).nanDraws), fIsNaN_nanFrom _, ?_⟩⟩
  · exact exec_binary_delivers hi hd (by rw [hh, hf, floatResult])
  · exact exec_binary_delivers hi hd (by rw [hh, hf]; rfl)

/-- Settles O47: each is the three-parameter shape with its handler, which asks the numerics. -/
theorem floatAddSubMulResults : Obligations.FloatAddSubMulResults := by
  intro s z p q d hd a b s2 mk opc f hm
  simp only [List.mem_cons, Prod.mk.injEq, List.not_mem_nil, or_false] at hm
  rcases hm with ⟨rfl, rfl, rfl⟩ | ⟨rfl, rfl, rfl⟩ | ⟨rfl, rfl, rfl⟩
  · exact ⟨⟨rfl, rfl⟩, exec_binary_floats (h := adfHandler) rfl hd rfl⟩
  · exact ⟨⟨rfl, rfl⟩, exec_binary_floats (h := sbfHandler) rfl hd rfl⟩
  · exact ⟨⟨rfl, rfl⟩, exec_binary_floats (h := mlfHandler) rfl hd rfl⟩

/-- Settles O48: the handlers' test of the divisor is the test for its two zero patterns. -/
theorem floatDivRemResults : Obligations.FloatDivRemResults := by
  intro s z p q d hd a b s2 mk opc f hm
  have hne : a ≠ 0 → a ≠ 0x8000000000000000#64 → ¬fIsZero a = true := fun h0 h1 hz => (fIsZero_iff.1 hz).elim h0 h1
  simp only [List.mem_cons, Prod.mk.injEq, List.not_mem_nil, or_false] at hm
  rcases hm with ⟨rfl, rfl, rfl⟩ | ⟨rfl, rfl, rfl⟩
  · exact ⟨⟨rfl, rfl⟩,
      fun h0 h1 => exec_binary_floats (h := dvfHandler) rfl hd (if_neg (hne h0 h1)),
      fun ha => exec_binary_divides (h := dvfHandler) rfl hd (if_pos (fIsZero_iff.2 ha))⟩
  · exact ⟨⟨rfl, rfl⟩,
      fun h0 h1 => exec_binary_floats (h := mdfHandler) rfl hd (if_neg (hne h0 h1)),
      fun ha => exec_binary_divides (h := mdfHandler) rfl hd (if_pos (fIsZero_iff.2 ha))⟩

/-- Of the floating forms only DVF and MDF divide, and none sets RC. -/
theorem floatForms_kind {mk : Size → Param → Param → Param → Instr} (hm : mk ∈ floatForms) (z : Size) (p q d : Param)
    (a : Word) : setsRc (mk z p q d) = false ∧
      (DividesByZero (mk z p q d) a → (mk = .dvf ∨ mk = .mdf) ∧ fIsZero a = true) := by
  simp only [floatForms, List.mem_cons, List.not_mem_nil, or_false] at hm
  rcases hm with rfl | rfl | rfl | rfl | rfl
  iterate 3 exact ⟨rfl, False.elim⟩
  · exact ⟨rfl, fun h => ⟨.inl rfl, h⟩⟩
  · exact ⟨rfl, fun h => ⟨.inr rfl, h⟩⟩

/-- Settles O57: the frame of reads, handler and one destination write, for handlers that never set RC, two of which may
divide by a zero. -/
theorem floatInstructionsFrame : Obligations.FloatInstructionsFrame := by
  intro mk hm s t z p q d hw he
  have h := (floatForms_meaning hm z p q d).completes he
  obtain ⟨hrc, hdiv⟩ := floatForms_kind hm z p q d (val1 s z p)
  have f := h.frame hw
  refine ⟨f.sameRegistersBut ?_, f.control, f.record, f.platform,
    h.queue.imp_right fun ⟨hz, hq⟩ => ⟨(hdiv hz).1, fIsZero_iff.1 (hdiv hz).2, hq⟩, f.stores⟩
  rintro r (hr | ⟨_, hc⟩ | hd | ⟨hr, hs⟩)
  · exact .inl hr
  · rw [hrc] at hc; cases hc
  · exact .inr (.inl hd)
  · exact .inr (.inr ⟨hr, by simpa [eq_comm, or_assoc] using hs⟩)

end Sys2Proof.Proofs

namespace Sys2Proof.Proofs

open Sys2Proof.Machine Sys2Proof.Claims

variable {n d k m : Nat} {w : Word}

/-! ## The nearest integer (R271) -/

/-- `m` is an integer nearest to `n / d`, and even where it lies half a unit off, which is where another is as near. -/
structure IsNearestEven (n d m : Nat) : Prop where
  below : 2 * n ≤ 2 * (d * m) + d
  above : 2 * (d * m) ≤ 2 * n + d
  even : 2 * n = 2 * (d * m) + d ∨ 2 * (d * m) = 2 * n + d → m % 2 = 0

theorem isNearestEven_roundNearestEven (n : Nat) (hd : 0 < d) : IsNearestEven n d (roundNearestEven n d) := by
  have hdiv := Nat.div_add_mod n d
  have hmod := Nat.mod_lt n hd
  have hsucc := Nat.mul_add_one d (n / d)
  unfold roundNearestEven
  split
  · constructor <;> omega
  · split
    · constructor <;> omega
    · rcases Nat.mod_two_eq_zero_or_one (n / d) with h | h <;> rw [h]
      · constructor <;> simp only [Nat.add_zero] <;> omega
      · constructor <;> omega

theorem IsNearestEven.le (h : IsNearestEven n d m) (hd : 0 < d) {a : Nat} (ha : d * a ≤ n) : a ≤ m := by
  by_contra hlt
  have hstep : d * (m + 1) ≤ d * a := Nat.mul_le_mul_left d (by omega)
  have hsucc := Nat.mul_add_one d m
  have := h.below
  omega

theorem IsNearestEven.ge (h : IsNearestEven n d m) (hd : 0 < d) {a : Nat} (ha : n ≤ d * a) : m ≤ a := by
  by_contra hlt
  have hstep : d * (a + 1) ≤ d * m := Nat.mul_le_mul_left d (by omega)
  have hsucc := Nat.mul_add_one d a
  have := h.above
  omega

/-- No integer is nearer, and where another is as near the nearest one is even. -/
theorem IsNearestEven.closest (h : IsNearestEven n d m) (j : Nat) :
    |(n : Int) - d * m| ≤ |(n : Int) - d * j| ∧ (|(n : Int) - d * m| = |(n : Int) - d * j| → j ≠ m → m % 2 = 0) := by
  obtain ⟨hbelow, habove, heven⟩ := h
  have hm : ((d * m : Nat) : Int) = d * m := Nat.cast_mul d m
  have hj : ((d * j : Nat) : Int) = d * j := Nat.cast_mul d j
  rw [← hm, ← hj, Int.abs_eq_natAbs, Int.abs_eq_natAbs]
  rcases Nat.lt_trichotomy j m with hlt | rfl | hlt
  · have hstep : d * (j + 1) ≤ d * m := Nat.mul_le_mul_left d hlt
    have hsucc := Nat.mul_add_one d j
    omega
  · exact ⟨le_rfl, fun _ hne => absurd rfl hne⟩
  · have hstep : d * (m + 1) ≤ d * j := Nat.mul_le_mul_left d hlt
    have hsucc := Nat.mul_add_one d m
    omega

/-- A number below an integer that is at most `n / d` is farther off than the nearest integer. -/
theorem IsNearestEven.closer_than (h : IsNearestEven n d m) {a j : Nat} (ha : a < d * j) (hj : d * j ≤ n) :
    |(n : Int) - d * m| < |(n : Int) - a| := by
  refine (h.closest j).1.trans_lt ?_
  rw [← Nat.cast_mul, Int.abs_eq_natAbs, Int.abs_eq_natAbs]
  omega

theorem roundNearestEven_mul (m : Nat) (hd : 0 < d) : roundNearestEven (m * d) d = m := by
  rw [roundNearestEven, Nat.mul_mod_left, if_pos (by omega), Nat.mul_div_cancel m hd]

/-! ## Significand and exponent of a finite pattern (R270) -/

/-- The significand `m`, dropping `k` places, is that of a pattern: 53 bits long, unless no place is dropped. -/
structure IsSignificand (k m : Nat) : Prop where
  lt : m < 2 ^ 53
  full : k = 0 ∨ 2 ^ 52 ≤ m

/-- A significand that has carried into its 54th bit steps the exponent field, and the magnitude is the same. -/
theorem fMag_fPack_of_le (b : Bool) (hk : k = 0 ∨ 2 ^ 52 ≤ m) (hm : m ≤ 2 ^ 53) (hlow : k * 2 ^ 52 + m < 2 ^ 63) :
    fMag (fPack b (k * 2 ^ 52 + m)) = m * 2 ^ k := by
  rw [fMag, fExp_fPack b hlow, fFrac_fPack b hlow]
  rcases Nat.lt_or_ge m (2 ^ 52) with hsub | hnorm
  · obtain rfl : k = 0 := by omega
    rw [if_pos (by omega)]
    omega
  · rcases Nat.lt_or_eq_of_le hm with hlt | rfl
    · obtain ⟨f, rfl⟩ := Nat.exists_eq_add_of_le hnorm
      have hexp : (k * 2 ^ 52 + (2 ^ 52 + f)) / 2 ^ 52 = k + 1 := by omega
      have hfrac : (k * 2 ^ 52 + (2 ^ 52 + f)) % 2 ^ 52 = f := by omega
      rw [hexp, hfrac, if_neg (Nat.succ_ne_zero k), Nat.add_sub_cancel]
    · have hexp : (k * 2 ^ 52 + 2 ^ 53) / 2 ^ 52 = k + 1 + 1 := by omega
      have hfrac : (k * 2 ^ 52 + 2 ^ 53) % 2 ^ 52 = 0 := by omega
      rw [hexp, hfrac, if_neg (Nat.succ_ne_zero _), Nat.add_sub_cancel, pow_succ]
      ring

theorem exists_significand (hw : IsFinite w) :
    ∃ b k m, IsSignificand k m ∧ k * 2 ^ 52 + m < fInfLow ∧ w = fPack b (k * 2 ^ 52 + m) := by
  obtain ⟨b, low, hlow, rfl⟩ := exists_fPack w
  rw [isFinite_fPack b hlow] at hw
  rcases Nat.lt_or_ge low (2 ^ 52) with hsub | hnorm
  · exact ⟨b, 0, low, ⟨by omega, .inl rfl⟩, by omega, by rw [Nat.zero_mul, Nat.zero_add]⟩
  · have hparts : low = (low / 2 ^ 52 - 1) * 2 ^ 52 + (2 ^ 52 + low % 2 ^ 52) := by omega
    exact ⟨b, low / 2 ^ 52 - 1, 2 ^ 52 + low % 2 ^ 52, ⟨by omega, .inr (by omega)⟩, by omega, by rw [← hparts]⟩

/-- The magnitude and the sign of a finite pattern given by its parts. -/
theorem IsSignificand.fMag_fPack (h : IsSignificand k m) (b : Bool) (hlow : k * 2 ^ 52 + m < fInfLow) :
    fMag (fPack b (k * 2 ^ 52 + m)) = m * 2 ^ k :=
  fMag_fPack_of_le b h.full h.lt.le (hlow.trans fInfLow_lt)

/-! ## Rounding (R271) -/

/-- `n / d` is rounded at the place `2 ^ k` to the significand `m`: 53 leading bits are kept, or all of them. -/
structure RoundedAt (n d k m : Nat) : Prop where
  atLeast : k = 0 ∨ d * 2 ^ k * 2 ^ 52 ≤ n
  below : n < d * 2 ^ k * 2 ^ 53
  nearest : IsNearestEven n (d * 2 ^ k) m

theorem roundedAt_dropPlaces (n : Nat) (hd : 0 < d) :
    RoundedAt n d (dropPlaces n d) (roundNearestEven n (d * 2 ^ dropPlaces n d)) where
  atLeast := by
    rcases Nat.eq_zero_or_pos (dropPlaces n d) with h | h
    · exact .inl h
    · right
      have hlog : (n / d).log2 = dropPlaces n d + 52 := by unfold dropPlaces at h ⊢; omega
      have hq : n / d ≠ 0 := by
        intro h0
        rw [h0] at hlog
        simp at hlog
      calc d * 2 ^ dropPlaces n d * 2 ^ 52 = d * 2 ^ (n / d).log2 := by rw [hlog, pow_add, mul_assoc]
        _ ≤ d * (n / d) := Nat.mul_le_mul_left d (Nat.log2_self_le hq)
        _ ≤ n := Nat.mul_div_le n d
  below := by
    have hlog : (n / d).log2 + 1 ≤ dropPlaces n d + 53 := by unfold dropPlaces; omega
    have hq : n / d < 2 ^ (dropPlaces n d + 53) :=
      Nat.lt_log2_self.trans_le (Nat.pow_le_pow_right (by norm_num) hlog)
    rw [mul_assoc, ← pow_add, mul_comm]
    exact (Nat.div_lt_iff_lt_mul hd).1 hq
  nearest := isNearestEven_roundNearestEven n (Nat.mul_pos hd (Nat.two_pow_pos _))

section
variable (h : RoundedAt n d k m) (hd : 0 < d)
include h hd

theorem RoundedAt.significand_le : m ≤ 2 ^ 53 :=
  h.nearest.ge (Nat.mul_pos hd (Nat.two_pow_pos k)) h.below.le

theorem RoundedAt.le_significand : k = 0 ∨ 2 ^ 52 ≤ m :=
  h.atLeast.imp_right (h.nearest.le (Nat.mul_pos hd (Nat.two_pow_pos k)))

theorem RoundedAt.fMag_fPack (b : Bool) (hlow : k * 2 ^ 52 + m < fInfLow) : fMag (fPack b (k * 2 ^ 52 + m)) = m * 2 ^ k :=
  fMag_fPack_of_le b (h.le_significand hd) (h.significand_le hd) (hlow.trans fInfLow_lt)

/-- No finite pattern is closer. One that drops fewer places has a magnitude below the least significand of 53 bits. -/
theorem RoundedAt.closest (hw : IsFinite w) :
    |(n : Int) - d * (m * 2 ^ k : Nat)| ≤ |(n : Int) - d * fMag w| ∧
    (|(n : Int) - d * (m * 2 ^ k : Nat)| = |(n : Int) - d * fMag w| → fMag w ≠ m * 2 ^ k → m % 2 = 0) := by
  have hscale (j : Nat) : (d : Int) * (j * 2 ^ k : Nat) = (d * 2 ^ k : Nat) * j := by push_cast; ring
  obtain ⟨b, k', m', hs, hlow, rfl⟩ := exists_significand hw
  rw [hs.fMag_fPack b hlow, hscale m]
  rcases Nat.lt_or_ge k' k with hlt | hge
  · have hfar : d * (m' * 2 ^ k') < d * 2 ^ k * 2 ^ 52 := by
      rw [mul_assoc]
      refine Nat.mul_lt_mul_of_pos_left ?_ hd
      calc m' * 2 ^ k' < 2 ^ 53 * 2 ^ k' := Nat.mul_lt_mul_of_pos_right hs.lt (Nat.two_pow_pos k')
        _ = 2 ^ (k' + 1) * 2 ^ 52 := by ring
        _ ≤ 2 ^ k * 2 ^ 52 := Nat.mul_le_mul_right _ (Nat.pow_le_pow_right (by norm_num) hlt)
    have hn : d * 2 ^ k * 2 ^ 52 ≤ n := h.atLeast.resolve_left (by omega)
    have hstrict := h.nearest.closer_than hfar hn
    rw [Nat.cast_mul] at hstrict
    exact ⟨hstrict.le, fun he => absurd he hstrict.ne⟩
  · obtain ⟨e, rfl⟩ := Nat.exists_eq_add_of_le hge
    have hmul : m' * 2 ^ (k + e) = m' * 2 ^ e * 2 ^ k := by ring
    obtain ⟨hle, heven⟩ := h.nearest.closest (m' * 2 ^ e)
    rw [hmul, hscale]
    exact ⟨hle, fun he hne => heven he fun hj => hne (by rw [hj])⟩

end

/-- The significand rounded at the place `2 ^ (K + 1)` carries, and the exponent field with it, exactly from half a last place
below `2 ^ (K + 54)` on, the carried one being the even one of a tie. -/
theorem RoundedAt.carries_iff (h : RoundedAt n d k m) (hd : 0 < d) (K : Nat) :
    (K + 1) * 2 ^ 52 + 2 ^ 53 ≤ k * 2 ^ 52 + m ↔ (2 ^ 54 - 1) * (d * 2 ^ K) ≤ n := by
  have hpos : 0 < d * 2 ^ K := Nat.mul_pos hd (Nat.two_pow_pos K)
  have hge := h.atLeast
  have hlt := h.below
  have hm := h.significand_le hd
  have hm' := h.le_significand hd
  rcases Nat.lt_trichotomy k (K + 1) with hk | rfl | hk
  · have hplace : d * 2 ^ k ≤ d * 2 ^ K := Nat.mul_le_mul_left d (Nat.pow_le_pow_right (by norm_num) (by omega))
    omega
  · have hplace : d * 2 ^ (K + 1) = 2 * (d * 2 ^ K) := by ring
    obtain ⟨hbelow, habove, heven⟩ := h.nearest
    rw [hplace] at hbelow habove heven
    constructor
    · intro hc
      obtain rfl : m = 2 ^ 53 := by omega
      omega
    · intro hn
      by_contra hc
      rcases Nat.lt_or_ge m (2 ^ 53 - 1) with hsmall | hlast
      · have := Nat.mul_le_mul_left (2 * (d * 2 ^ K)) (show m + 1 ≤ 2 ^ 53 - 1 from hsmall)
        have := Nat.mul_add_one (2 * (d * 2 ^ K)) m
        omega
      · obtain rfl : m = 2 ^ 53 - 1 := by omega
        omega
  · have hplace : d * 2 ^ (K + 2) ≤ d * 2 ^ k := Nat.mul_le_mul_left d (Nat.pow_le_pow_right (by norm_num) (by omega))
    have hfour : d * 2 ^ (K + 2) = 4 * (d * 2 ^ K) := by ring
    omega

theorem RoundedAt.overflows_iff (h : RoundedAt n d k m) (hd : 0 < d) :
    fInfLow ≤ k * 2 ^ 52 + m ↔ overflowUnits * d ≤ n := by
  have hunits : overflowUnits * d = (2 ^ 54 - 1) * (d * 2 ^ 2044) := by
    unfold overflowUnits
    rw [mul_assoc, mul_comm d]
  rw [hunits]
  exact h.carries_iff hd 2044

/-- Every exact magnitude is rounded to nearest, ties to even. -/
theorem roundsTo_roundLow (n : Nat) (hd : 0 < d) : RoundsTo n d (roundLow n d) := by
  have h := roundedAt_dropPlaces n hd
  have hover := h.overflows_iff hd
  rw [RoundsTo, roundLow]
  generalize dropPlaces n d = k at h hover ⊢
  generalize roundNearestEven n (d * 2 ^ k) = m at h hover ⊢
  refine ⟨fun hn => min_eq_right (hover.2 hn), fun hn => ?_⟩
  have hlow : k * 2 ^ 52 + m < fInfLow := by omega
  rw [min_eq_left hlow.le]
  refine ⟨hlow, fun w hw => ?_⟩
  rw [h.fMag_fPack hd false hlow]
  obtain ⟨hle, heven⟩ := h.closest hd hw
  refine ⟨hle, fun he hne => ?_⟩
  have := heven he hne
  omega

end Sys2Proof.Proofs

namespace Sys2Proof.Proofs

open Sys2Proof.Machine Sys2Proof.Claims

variable {n d k m k' m' : Nat} {w x y : Word}

/-! ## Exact results (R270, R277) -/

theorem IsSignificand.dropPlaces_eq (h : IsSignificand k m) : dropPlaces (m * 2 ^ k) 1 = k := by
  obtain ⟨hlt, rfl | hge⟩ := h
  · rw [dropPlaces, Nat.div_one, pow_zero, mul_one]
    rcases Nat.eq_zero_or_pos m with rfl | hpos
    · rfl
    · have := (Nat.log2_lt hpos.ne').2 hlt
      omega
  · have hlog : (m * 2 ^ k).log2 = k + 52 := by
      rw [Nat.log2_eq_iff (Nat.mul_pos (by omega) (Nat.two_pow_pos k)).ne', Nat.add_right_comm, pow_add, pow_add _ k 53,
        mul_comm m]
      exact ⟨Nat.mul_le_mul_left _ hge, Nat.mul_lt_mul_of_pos_left hlt (Nat.two_pow_pos k)⟩
    rw [dropPlaces, Nat.div_one, hlog, Nat.add_sub_cancel]

/-- The magnitude of a finite pattern loses nothing where it is rounded. -/
theorem IsSignificand.roundLow_eq (h : IsSignificand k m) (hlow : k * 2 ^ 52 + m < fInfLow) :
    roundLow (m * 2 ^ k) 1 = k * 2 ^ 52 + m := by
  rw [roundLow, h.dropPlaces_eq, one_mul, roundNearestEven_mul m (Nat.two_pow_pos k), min_eq_left hlow.le]

/-- A significand that drops no more places than that of a finite pattern is one of a finite pattern. -/
theorem IsSignificand.low_lt (h' : IsSignificand k' m') (h : IsSignificand k m) (hk : k' ≤ k)
    (hlow : k * 2 ^ 52 + m < fInfLow) : k' * 2 ^ 52 + m' < fInfLow := by
  have hinf : fInfLow = 2045 * 2 ^ 52 + 2 ^ 53 := rfl
  have hfull := h.full
  have hplaces : k' ≤ 2045 := by omega
  have hplaces' := Nat.mul_le_mul_right (2 ^ 52) hplaces
  linarith only [hinf, hplaces', h'.lt]

/-- Settles O50: the rounded magnitude is given by the pattern's own significand and exponent. -/
theorem finitePatternsRoundToThemselves : Obligations.FinitePatternsRoundToThemselves := by
  intro w hw
  obtain ⟨b, k, m, h, hlow, rfl⟩ := exists_significand hw
  rw [h.fMag_fPack b hlow, h.roundLow_eq hlow, fSign_fPack b (hlow.trans fInfLow_lt)]

/-- A count of at most 53 binary digits of places `2 ^ k` has a significand, with no more places dropped. -/
theorem exists_isSignificand_eq (k : Nat) {m : Nat} (hm : m < 2 ^ 53) :
    ∃ k' m', IsSignificand k' m' ∧ k' ≤ k ∧ m * 2 ^ k = m' * 2 ^ k' := by
  induction k generalizing m with
  | zero => exact ⟨0, m, ⟨hm, .inl rfl⟩, le_rfl, rfl⟩
  | succ k ih =>
    rcases Nat.lt_or_ge m (2 ^ 52) with hlt | hge
    · obtain ⟨k', m', hs, hk, he⟩ := ih (m := 2 * m) (by omega)
      exact ⟨k', m', hs, by omega, by rw [← he]; ring⟩
    · exact ⟨k + 1, m, ⟨hm, .inr hge⟩, le_rfl, rfl⟩

/-- A remainder is a multiple of both operands' last places, and below either significand at its place. -/
theorem exists_mod_eq (hm : m < 2 ^ 53) (hm' : m' < 2 ^ 53) (hpos : 0 < m') :
    ∃ j r, j ≤ k ∧ r < 2 ^ 53 ∧ m * 2 ^ k % (m' * 2 ^ k') = r * 2 ^ j := by
  rcases Nat.le_total k k' with hle | hle
  · obtain ⟨e, rfl⟩ := Nat.exists_eq_add_of_le hle
    refine ⟨k, m % (m' * 2 ^ e), le_rfl, (Nat.mod_le _ _).trans_lt hm, ?_⟩
    rw [← Nat.mul_mod_mul_right, pow_add, mul_assoc m', mul_comm (2 ^ e)]
  · obtain ⟨e, rfl⟩ := Nat.exists_eq_add_of_le hle
    refine ⟨k', m * 2 ^ e % m', hle, (Nat.mod_lt _ hpos).trans hm', ?_⟩
    rw [← Nat.mul_mod_mul_right, pow_add, mul_assoc m, mul_comm (2 ^ e)]

theorem fMag_pos (hw : fIsZero w = false) : 0 < fMag w := by
  rw [fIsZero, ← Bool.decide_and, decide_eq_false_iff_not] at hw
  unfold fMag
  split
  · omega
  · exact Nat.mul_pos (by omega) (Nat.two_pow_pos _)

/-- The remainder of finite magnitudes is one of a finite pattern, with either sign. -/
theorem exists_fMag_mod (hx : IsFinite x) (hy : IsFinite y) (hz : fIsZero y = false) (b : Bool) :
    IsFinite (fPack b (roundLow (fMag x % fMag y) 1)) ∧
    fMag (fPack b (roundLow (fMag x % fMag y) 1)) = fMag x % fMag y ∧
    fSign (fPack b (roundLow (fMag x % fMag y) 1)) = b := by
  have hpos := fMag_pos hz
  obtain ⟨_, k, m, hs, hlow, rfl⟩ := exists_significand hx
  obtain ⟨_, k', m', hs', hlow', rfl⟩ := exists_significand hy
  rw [hs'.fMag_fPack _ hlow'] at hpos ⊢
  rw [hs.fMag_fPack _ hlow]
  obtain ⟨j, r, hj, hr, he⟩ := exists_mod_eq (k := k) (k' := k') hs.lt hs'.lt (Nat.pos_of_mul_pos_right hpos)
  obtain ⟨k'', m'', hs'', hk'', he'⟩ := exists_isSignificand_eq j hr
  have hlow'' := hs''.low_lt hs (hk''.trans hj) hlow
  rw [he, he', hs''.roundLow_eq hlow'']
  have hlt := hlow''.trans fInfLow_lt
  exact ⟨(isFinite_fPack b hlt).2 hlow'', hs''.fMag_fPack b hlow'', fSign_fPack b hlt⟩

/-! ## The other sign -/

section
variable (w : Word)

theorem fSign_fNegate : fSign (fNegate w) = !fSign w := by
  obtain ⟨b, low, h, rfl⟩ := exists_fPack w
  rw [fNegate_fPack b h, fSign_fPack _ h, fSign_fPack b h]

theorem fExp_fNegate : fExp (fNegate w) = fExp w := by
  obtain ⟨b, low, h, rfl⟩ := exists_fPack w
  rw [fNegate_fPack b h, fExp_fPack _ h, fExp_fPack b h]

theorem fFrac_fNegate : fFrac (fNegate w) = fFrac w := by
  obtain ⟨b, low, h, rfl⟩ := exists_fPack w
  rw [fNegate_fPack b h, fFrac_fPack _ h, fFrac_fPack b h]

theorem fIsNaN_fNegate : fIsNaN (fNegate w) = fIsNaN w := by
  rw [fIsNaN, fExp_fNegate, fFrac_fNegate, fIsNaN]

theorem fIsInf_fNegate : fIsInf (fNegate w) = fIsInf w := by
  rw [fIsInf, fExp_fNegate, fFrac_fNegate, fIsInf]

theorem fUnits_fNegate : fUnits (fNegate w) = -fUnits w := by
  have hmag : fMag (fNegate w) = fMag w := by rw [fMag, fExp_fNegate, fFrac_fNegate, fMag]
  rw [fUnits, fUnits, fSign_fNegate, hmag]
  cases fSign w <;> simp

end

/-! ## The operations on finite operands (R273 to R277) -/

section
variable (hx : IsFinite x) (hy : IsFinite y)
include hx hy

theorem fAdd_of_finite : fAdd x y = some (roundUnits (fUnits x + fUnits y) (fSign x && fSign y)) := by
  rw [fAdd, hx.1, hx.2, hy.1, hy.2]
  rfl

theorem fSub_of_finite : fSub x y = some (roundUnits (fUnits x - fUnits y) (fSign x && !fSign y)) := by
  have hneg : IsFinite (fNegate y) := by rwa [IsFinite, fIsNaN_fNegate, fIsInf_fNegate]
  rw [fSub, fAdd_of_finite hx hneg, fUnits_fNegate, fSign_fNegate, Int.sub_eq_add_neg]

theorem fMul_of_finite :
    fMul x y = some (fPack (fSign x != fSign y) (roundLow (fMag x * fMag y) (2 ^ 1074))) := by
  rw [fMul, hx.1, hx.2, hy.1, hy.2]
  rfl

theorem fDiv_of_finite (hz : fIsZero y = false) :
    fDiv x y = some (fPack (fSign x != fSign y) (roundLow (fMag x * 2 ^ 1074) (fMag y))) := by
  rw [fDiv, hx.1, hx.2, hy.1, hy.2, hz]
  rfl

theorem fRem_of_finite (hz : fIsZero y = false) : fRem x y = some (fPack (fSign x) (roundLow (fMag x % fMag y) 1)) := by
  rw [fRem, hx.1, hx.2, hy.1, hy.2, hz]
  rfl

end

theorem roundsToSigned_of_eq {v : Int} {zeroNeg : Bool} {r : Option Word} (hr : r = some (roundUnits v zeroNeg)) :
    RoundsToSigned v zeroNeg r :=
  ⟨_, roundsTo_roundLow v.natAbs Nat.one_pos, hr⟩

theorem roundsToMagnitude_of_eq {neg : Bool} {r : Option Word} (hr : r = some (fPack neg (roundLow n d)))
    (hd : 0 < d) : RoundsToMagnitude n d neg r :=
  ⟨_, roundsTo_roundLow n hd, hr⟩

/-- Settles O49: each operation packs the rounding of its exact result, and a remainder is exact. -/
theorem floatRoundingIsToNearestEven : Obligations.FloatRoundingIsToNearestEven := by
  refine ⟨fun n d hd => roundsTo_roundLow n hd, fun x y hx hy => ⟨?_, ?_, ?_, fun hz => ⟨?_, ?_⟩⟩⟩
  · exact roundsToSigned_of_eq (fAdd_of_finite hx hy)
  · exact roundsToSigned_of_eq (fSub_of_finite hx hy)
  · exact roundsToMagnitude_of_eq (fMul_of_finite hx hy) (pow_pos Nat.two_pos 1074)
  · exact roundsToMagnitude_of_eq (fDiv_of_finite hx hy hz) (fMag_pos hz)
  · exact ⟨_, fRem_of_finite hx hy hz, exists_fMag_mod hx hy hz (fSign x)⟩

end Sys2Proof.Proofs

namespace Sys2Proof.Proofs

open Sys2Proof.Machine Sys2Proof.Claims

variable {w x y : Word}

/-! ## The classes exclude each other (R271) -/

theorem fIsNaN_of_fIsInf (h : fIsInf w = true) : fIsNaN w = false := by
  rw [fIsInf, ← Bool.decide_and, decide_eq_true_eq] at h
  simp [fIsNaN, h.2]

theorem fIsZero_of_fIsInf (h : fIsInf w = true) : fIsZero w = false := by
  rw [fIsInf, ← Bool.decide_and, decide_eq_true_eq] at h
  simp [fIsZero, h.1]

theorem fIsNaN_fPack_of_le (b : Bool) {low : Nat} (h : low ≤ fInfLow) : fIsNaN (fPack b low) = false := by
  rw [fIsNaN_fPack b (h.trans_lt fInfLow_lt), decide_eq_false (Nat.not_lt.2 h)]

theorem fIsNaN_fPack_roundLow (b : Bool) (n d : Nat) : fIsNaN (fPack b (roundLow n d)) = false :=
  fIsNaN_fPack_of_le b (min_le_right _ _)

theorem fNegate_of_fIsInf (h : fIsInf w = true) : fNegate w = fPack (!fSign w) fInfLow := by
  obtain ⟨b, low, hlow, rfl⟩ := exists_fPack w
  rw [fIsInf_fPack b hlow, decide_eq_true_eq] at h
  rw [fNegate_fPack b hlow, fSign_fPack b hlow, h]

/-! ## Where an operation is invalid, and what infinities give (R271) -/

theorem fAdd_eq_none_iff : fAdd x y = none ↔ fIsNaN x = true ∨ fIsNaN y = true ∨
    (fIsInf x = true ∧ fIsInf y = true ∧ fSign x ≠ fSign y) := by
  unfold fAdd
  split_ifs <;> grind

theorem fSub_eq_none_iff : fSub x y = none ↔ fIsNaN x = true ∨ fIsNaN y = true ∨
    (fIsInf x = true ∧ fIsInf y = true ∧ fSign x = fSign y) := by
  rw [fSub, fAdd_eq_none_iff, fIsNaN_fNegate, fIsInf_fNegate, fSign_fNegate]
  simp

theorem fMul_eq_none_iff : fMul x y = none ↔ fIsNaN x = true ∨ fIsNaN y = true ∨
    (fIsInf x = true ∧ fIsZero y = true) ∨ (fIsZero x = true ∧ fIsInf y = true) := by
  have hx := fIsZero_of_fIsInf (w := x)
  have hy := fIsZero_of_fIsInf (w := y)
  unfold fMul
  split_ifs <;> grind

theorem fDiv_eq_none_iff (hz : fIsZero y = false) : fDiv x y = none ↔ fIsNaN x = true ∨ fIsNaN y = true ∨
    (fIsInf x = true ∧ fIsInf y = true) := by
  unfold fDiv
  split_ifs <;> grind

theorem fRem_eq_none_iff (hz : fIsZero y = false) :
    fRem x y = none ↔ fIsNaN x = true ∨ fIsNaN y = true ∨ fIsInf x = true := by
  unfold fRem
  split_ifs <;> grind

/-! ## No result is a NaN pattern (R271) -/

/-- The answer, where there is one, is no NaN pattern. -/
def AnswersNoNaN (r : Option Word) : Prop := ∀ w ∈ r, fIsNaN w = false

theorem answersNoNaN_none : AnswersNoNaN none := fun _ h => nomatch h

theorem answersNoNaN_some (h : fIsNaN w = false) : AnswersNoNaN (some w) := fun _ hw => Option.some.inj hw ▸ h

theorem fAdd_answersNoNaN (x y : Word) : AnswersNoNaN (fAdd x y) := by
  unfold fAdd
  split_ifs with hnan hx hv hy
  · exact answersNoNaN_none
  · exact answersNoNaN_none
  · exact answersNoNaN_some (fIsNaN_of_fIsInf hx)
  · exact answersNoNaN_some (fIsNaN_of_fIsInf hy)
  · exact answersNoNaN_some (fIsNaN_fPack_roundLow _ _ _)

theorem fMul_answersNoNaN (x y : Word) : AnswersNoNaN (fMul x y) := by
  unfold fMul
  split_ifs
  · exact answersNoNaN_none
  · exact answersNoNaN_none
  · exact answersNoNaN_some (fIsNaN_fPack_of_le _ le_rfl)
  · exact answersNoNaN_some (fIsNaN_fPack_roundLow _ _ _)

theorem fDiv_answersNoNaN (x y : Word) : AnswersNoNaN (fDiv x y) := by
  unfold fDiv
  split_ifs
  · exact answersNoNaN_none
  · exact answersNoNaN_none
  · exact answersNoNaN_some (fIsNaN_fPack_of_le _ le_rfl)
  · exact answersNoNaN_some (fIsNaN_fPack_of_le _ (Nat.zero_le _))
  · exact answersNoNaN_none
  · exact answersNoNaN_some (fIsNaN_fPack_of_le _ le_rfl)
  · exact answersNoNaN_some (fIsNaN_fPack_roundLow _ _ _)

theorem fRem_answersNoNaN (x y : Word) : AnswersNoNaN (fRem x y) := by
  unfold fRem
  split_ifs with hnan hv hy
  · exact answersNoNaN_none
  · exact answersNoNaN_none
  · have hvalid : fIsNaN x = false ∧ fIsNaN y = false := by simpa using hnan
    exact answersNoNaN_some hvalid.1
  · exact answersNoNaN_some (fIsNaN_fPack_roundLow _ _ _)

/-! ## What an infinite operand gives (assumption 18) -/

section
variable (hx : fIsNaN x = false) (hy : fIsNaN y = false)
include hx hy

theorem fAdd_of_fIsInf_left (h : fIsInf x = true) (hv : fIsInf y = false ∨ fSign x = fSign y) : fAdd x y = some x := by
  rcases hv with hv | hv <;> simp [fAdd, hx, hy, h, hv]

theorem fAdd_of_fIsInf_right (h : fIsInf x = false) (h' : fIsInf y = true) : fAdd x y = some y := by
  simp [fAdd, hx, hy, h, h']

theorem fSub_of_fIsInf_left (h : fIsInf x = true) (hv : fIsInf y = false ∨ fSign x ≠ fSign y) : fSub x y = some x := by
  refine fAdd_of_fIsInf_left hx ((fIsNaN_fNegate y).trans hy) h ?_
  rwa [fIsInf_fNegate, fSign_fNegate, Bool.eq_not]

theorem fSub_of_fIsInf_right (h : fIsInf x = false) (h' : fIsInf y = true) :
    fSub x y = some (fPack (!fSign y) fInfLow) := by
  rw [← fNegate_of_fIsInf h']
  exact fAdd_of_fIsInf_right hx ((fIsNaN_fNegate y).trans hy) h ((fIsInf_fNegate y).trans h')

theorem fMul_of_fIsInf (h : fIsInf x = true ∨ fIsInf y = true) (hzx : fIsZero x = false) (hzy : fIsZero y = false) :
    fMul x y = some (fPack (fSign x != fSign y) fInfLow) := by
  rcases h with h | h <;> simp [fMul, hx, hy, hzx, hzy, h]

theorem fDiv_of_fIsInf_left (h : fIsInf x = true) (h' : fIsInf y = false) :
    fDiv x y = some (fPack (fSign x != fSign y) fInfLow) := by
  simp [fDiv, hx, hy, h, h']

theorem fDiv_of_fIsInf_right (h : fIsInf x = false) (h' : fIsInf y = true) :
    fDiv x y = some (fPack (fSign x != fSign y) 0) := by
  simp [fDiv, hx, hy, h, h']

theorem fRem_of_fIsInf_right (h : fIsInf x = false) (h' : fIsInf y = true) : fRem x y = some x := by
  simp [fRem, hx, hy, h, h', fIsZero_of_fIsInf h']

end

/-- Settles O51, from the invalid cases of each operation, the patterns each can answer, and what infinities give. -/
theorem nanResultsExactlyWhereInvalid : Obligations.NanResultsExactlyWhereInvalid := by
  refine ⟨fIsNaN_nanFrom, fun w hw => ⟨w, nanFrom_of_fIsNaN hw⟩, fun x y => ⟨fAdd_eq_none_iff, fSub_eq_none_iff,
    fMul_eq_none_iff, fDiv_eq_none_iff, fRem_eq_none_iff, ?_, fun hx hy => ?_, fun b => ?_⟩⟩
  · rintro w (h | h | h | h | h)
    · exact fAdd_answersNoNaN x y w h
    · exact fAdd_answersNoNaN x (fNegate y) w h
    · exact fMul_answersNoNaN x y w h
    · exact fDiv_answersNoNaN x y w h
    · exact fRem_answersNoNaN x y w h
  · exact ⟨fAdd_of_fIsInf_left hx hy, fAdd_of_fIsInf_right hx hy, fSub_of_fIsInf_left hx hy, fSub_of_fIsInf_right hx hy,
      fMul_of_fIsInf hx hy, fDiv_of_fIsInf_left hx hy,
      fun h h' => ⟨fDiv_of_fIsInf_right hx hy h h', fRem_of_fIsInf_right hx hy h h'⟩⟩
  · cases b <;> exact ⟨rfl, rfl, rfl, rfl⟩

end Sys2Proof.Proofs

namespace Sys2Proof.Proofs

open Sys2Proof.Machine Sys2Proof.Claims

variable {s : State} {z : Size} {p q d : Param} {i : Instr}

/-! ## The bitwise instructions (R290 to R297) -/

/-- The complement the rules write as `ALL1 - v`. -/
theorem allOnes_sub (v : Word) : allOnes - v = ~~~v := BitVec.allOnes_sub_eq_not v

theorem exec_binary_computes {f : Word → Word → Word} {v : Word}
    (hi : exec i s = runBinary z p q d (s.lengthOf i) (pureBinary f) s) (hd : d.writable = true)
    (hv : v = f (val1 s z p) (val2 s z p q)) :
    exec i s = .next (delivered z d (s.lengthOf i) (after2 s z p q) (after2 s z p q) v) :=
  exec_binary_delivers hi hd (hv ▸ rfl)

/-- Settles O52: the handlers take each operation of the whole words, and the complements of three of them. -/
theorem bitwiseResults : Obligations.BitwiseResults := by
  refine fun s z p q d hd => ⟨⟨rfl, rfl⟩, ⟨rfl, rfl⟩, ⟨rfl, rfl⟩, ⟨rfl, rfl⟩, ⟨rfl, rfl⟩, ⟨rfl, rfl⟩, ⟨rfl, rfl⟩,
    ?and, ?or, ?xor, ?nand, ?nor, ?nxor, ?not⟩
  case and => exact exec_binary_computes (f := fun a b => a &&& b) rfl hd rfl
  case or => exact exec_binary_computes (f := fun a b => a ||| b) rfl hd rfl
  case xor => exact exec_binary_computes (f := fun a b => a ^^^ b) rfl hd rfl
  case nand => exact exec_binary_computes (f := fun a b => ~~~(a &&& b)) rfl hd (allOnes_sub _)
  case nor => exact exec_binary_computes (f := fun a b => ~~~(a ||| b)) rfl hd (allOnes_sub _)
  case nxor => exact exec_binary_computes (f := fun a b => ~~~(a ^^^ b)) rfl hd (allOnes_sub _)
  case not => exact exec_unary_delivers (h := fun a s => (s, some (~~~a))) rfl hd (by rw [allOnes_sub])

/-! ## Shifts and rotates of the declared width (R301 to R304) -/

section
variable (n : Nat) (v : BitVec z.bits)

/-- The cut at the width is no case of its own: a shift right by the width or more leaves nothing of the value. -/
theorem srResult_toNat : srResult z n v.toNat = (v >>> n).toNat := by
  rw [srResult, BitVec.toNat_ushiftRight, Nat.shiftRight_eq_div_pow]
  split
  next => rfl
  next h =>
    have hn : z.bits ≤ n := Nat.le_of_not_lt h
    exact (Nat.div_eq_of_lt (v.isLt.trans_le (Nat.pow_le_pow_right Nat.two_pos hn))).symm

/-- A shift left by the width or more leaves a multiple of `2^W`. -/
theorem slResult_toNat : slResult z n v.toNat = (v <<< n).toNat := by
  rw [slResult, BitVec.toNat_shiftLeft, Nat.shiftLeft_eq]
  split
  next => rfl
  next h =>
    have hn : z.bits ≤ n := Nat.le_of_not_lt h
    exact (Nat.mod_eq_zero_of_dvd ((Nat.pow_dvd_pow 2 hn).mul_left _)).symm

/-- A shifted-down value is below `2^W` already, so that the model's one reduction is that of the other half. -/
theorem toNat_div_two_pow_mod (k : Nat) : v.toNat / 2 ^ k % 2 ^ z.bits = v.toNat / 2 ^ k :=
  Nat.mod_eq_of_lt ((Nat.div_le_self _ _).trans_lt v.isLt)

/-- At a count that is a multiple of the width the half that goes round is empty, and the value stays. -/
theorem rrResult_toNat : rrResult z n v.toNat = (v.rotateRight n).toNat := by
  rw [rrResult, BitVec.toNat_rotateRight, Nat.shiftRight_eq_div_pow, Nat.shiftLeft_eq]
  split
  next h => rw [h, Nat.sub_zero, pow_zero, Nat.div_one, Nat.mul_mod_left, Nat.or_zero]
  next => rw [Nat.or_mod_two_pow, toNat_div_two_pow_mod]

theorem rlResult_toNat : rlResult z n v.toNat = (v.rotateLeft n).toNat := by
  rw [rlResult, BitVec.toNat_rotateLeft, Nat.shiftRight_eq_div_pow, Nat.shiftLeft_eq]
  split
  next h =>
    rw [h, Nat.sub_zero, pow_zero, mul_one, Nat.mod_eq_of_lt v.isLt, Nat.div_eq_of_lt v.isLt, Nat.or_zero]
  next => rw [Nat.or_mod_two_pow, toNat_div_two_pow_mod]

end

/-- An instruction whose result function is, on values of the declared width, the operation `g` of that width. -/
theorem exec_binary_shifts {f : Size → Nat → Nat → Nat} {g : BitVec z.bits → Nat → BitVec z.bits}
    (hi : exec i s = runBinary z p q d (s.lengthOf i) (shiftHandler z f) s) (hd : d.writable = true)
    (hf : ∀ n v, f z n v.toNat = (g v n).toNat) :
    exec i s = .next (delivered z d (s.lengthOf i) (after2 s z p q) (after2 s z p q)
      ((g (BitVec.ofNat z.bits (val2 s z p q).toNat) ((val1 s z p).toNat % 256)).setWidth 64)) := by
  refine exec_binary_delivers hi hd ?_
  rw [shiftHandler, shiftCount, shiftValue, ← BitVec.toNat_ofNat, hf, BitVec.ofNat_toNat]

/-- Settles O53: each is the three-parameter shape whose result function is the shift or rotate of the declared width. -/
theorem shiftAndRotateResults : Obligations.ShiftAndRotateResults := by
  refine fun s z p q d hd => ⟨⟨rfl, rfl⟩, ⟨rfl, rfl⟩, ⟨rfl, rfl⟩, ⟨rfl, rfl⟩, ?sr, ?sl, ?rr, ?rl⟩
  case sr => exact exec_binary_shifts (g := fun v n => v >>> n) rfl hd srResult_toNat
  case sl => exact exec_binary_shifts (g := fun v n => v <<< n) rfl hd slResult_toNat
  case rr => exact exec_binary_shifts (g := BitVec.rotateRight) rfl hd rrResult_toNat
  case rl => exact exec_binary_shifts (g := BitVec.rotateLeft) rfl hd rlResult_toNat

end Sys2Proof.Proofs

namespace Sys2Proof.Proofs

open Sys2Proof.Machine Sys2Proof.Claims

variable {s : State} {z : Size} {p q d : Param} {i : Instr} {t : Bool}

/-! ## The comparisons (R320 to R326) -/

/-- A comparison's answer (R320), in the words of the claims: RC in the one case, and ALL1 or 0. -/
theorem compareHandler_eq (r : Word → Word → Bool) (a b : Word) (s : State) :
    compareHandler r a b s = (rcSetWhen (r a b = true) s, some (if r a b = true then allOnes else 0)) := by
  rw [compareHandler, ← setRcIf_decide, Bool.decide_eq_true]

/-- The three-parameter shape with the handler of a relation that answers `t` of the resolved words. -/
theorem exec_binary_compares {r : Word → Word → Bool}
    (hi : exec i s = runBinary z p q d (s.lengthOf i) (compareHandler r) s) (hd : d.writable = true)
    (hr : r (val1 s z p) (val2 s z p q) = t) :
    exec i s = .next (delivered z d (s.lengthOf i) (after2 s z p q) (rcSetWhen (t = true) (after2 s z p q))
      (if t = true then allOnes else 0)) := by
  subst hr
  exact exec_binary_delivers hi hd (compareHandler_eq r ..)

/-- Settles O54: each relation of the model is the unsigned bit-vector comparison of the whole words. -/
theorem comparisonResults : Obligations.ComparisonResults := by
  intro s z p q d hd a b s2 mk opc t hmem
  simp only [List.mem_cons, List.not_mem_nil, or_false, Prod.mk.injEq] at hmem
  obtain ⟨rfl, rfl, rfl⟩ | ⟨rfl, rfl, rfl⟩ | ⟨rfl, rfl, rfl⟩ | ⟨rfl, rfl, rfl⟩ | ⟨rfl, rfl, rfl⟩ | ⟨rfl, rfl, rfl⟩ := hmem
  · exact ⟨⟨rfl, rfl⟩, exec_binary_compares (i := .gt z p q d) rfl hd (BitVec.ult_eq_decide ..).symm⟩
  · exact ⟨⟨rfl, rfl⟩, exec_binary_compares (i := .gte z p q d) rfl hd (BitVec.ule_eq_decide ..).symm⟩
  · exact ⟨⟨rfl, rfl⟩, exec_binary_compares (i := .lt z p q d) rfl hd (BitVec.ult_eq_decide ..).symm⟩
  · exact ⟨⟨rfl, rfl⟩, exec_binary_compares (i := .lte z p q d) rfl hd (BitVec.ule_eq_decide ..).symm⟩
  · exact ⟨⟨rfl, rfl⟩, exec_binary_compares (i := .eq z p q d) rfl hd rfl⟩
  · exact ⟨⟨rfl, rfl⟩, exec_binary_compares (i := .neq z p q d) rfl hd decide_not⟩

end Sys2Proof.Proofs

namespace Sys2Proof.Proofs

open Sys2Proof.Machine Sys2Proof.Claims

variable {s : State} {i : Instr} {z : Size}

/-! ## What the decoder answers has a meaning (R114, R132, R350) -/

/-- A written parameter that may stand in its position is writable (R132). -/
theorem writable_of_paramsAllowed {rs : List Role} {ps : List Param} (h : paramsAllowed z rs ps = true) {r : Role}
    {p : Param} (hp : (r, p) ∈ rs.zip ps) (hr : r.writes = true) : p.writable = true := by
  induction rs generalizing ps with
  | nil => simp at hp
  | cons r' rs ih =>
    cases ps with
    | nil => simp at hp
    | cons p' ps =>
      simp only [paramsAllowed, Param.allowed, Bool.and_eq_true] at h
      obtain ⟨⟨_, hw⟩, hrest⟩ := h
      rw [List.zip_cons_cons, List.mem_cons, Prod.mk.injEq] at hp
      rcases hp with ⟨rfl, rfl⟩ | hp
      · simpa [hr] using hw
      · exact ih hrest hp

theorem writable_of_wellFormed (h : i.wellFormed = true) {p : Param} (hp : p ∈ writtenParams i) : p.writable = true := by
  simp only [writtenParams, List.mem_map, List.mem_filter] at hp
  obtain ⟨⟨r, q⟩, ⟨hz, hr⟩, rfl⟩ := hp
  exact writable_of_paramsAllowed h hz hr

theorem UnaryMeaning.answers {p d : Param} (m : UnaryMeaning i z p d)
    (h : ∀ q ∈ writtenParams i, q.writable = true) (s : State) : ∃ t, exec i s = .next t := by
  obtain ⟨k, hk, -⟩ := m.runs
  exact ⟨_, (hk s).trans (runUnary_next.2 ⟨h d (by simp [m.written]), rfl⟩)⟩

theorem BinaryMeaning.answers {p q d : Param} (m : BinaryMeaning i z p q d)
    (h : ∀ q ∈ writtenParams i, q.writable = true) (s : State) : ∃ t, exec i s = .next t := by
  obtain ⟨k, hk, -⟩ := m.runs
  exact ⟨_, (hk s).trans (runBinary_next.2 ⟨h d (by simp [m.written]), rfl⟩)⟩

theorem runJump_answers (z : Size) (p q : Param) (len : Nat) (taken : Word → Bool) (s : State) :
    ∃ t, runJump z p q len taken s = .next t := by
  unfold runJump
  dsimp only
  split <;> exact ⟨_, rfl⟩

/-- An instruction that writes no immediate has a next state in every state. -/
theorem exec_answers (h : ∀ p ∈ writtenParams i, p.writable = true) (s : State) : ∃ t, exec i s = .next t := by
  cases i with
  | mov z p d | neg z p d | not z p d | inc z p d | dec z p d =>
    exact (unaryForms_meaning (by simp [unaryForms]) z p d).answers h s
  | xchg z p q =>
    have hp : p.writable = true := h p (.head _)
    have hq : q.writable = true := h q (.tail _ (.head _))
    exact ⟨_, exec_xchg_next.2 ⟨Bool.and_eq_true_iff.2 ⟨hp, hq⟩, rfl⟩⟩
  | pop z d => exact ⟨_, exec_pop_next.2 ⟨h d (.head _), rfl⟩⟩
  | dbg z d => exact ⟨_, exec_dbg_next.2 ⟨h d (.head _), rfl⟩⟩
  | jz z p q | jnz z p q =>
    simp only [exec, execJz, execJnz]
    exact runJump_answers ..
  | nop | push | jmp | int | eint | inte | intd | hlt | pau => exact ⟨_, rfl⟩
  | _ => exact (threeParameterForms_meaning (by simp [rcForms, plainForms, floatForms]) _ _ _ _).answers h s

theorem cycle_answers (s : State) : ∃ t, cycle s = .next t := by
  rcases hf : s.fetchDecode with ⟨x | i, s1⟩
  · exact ⟨_, by rw [cycle, hf]⟩
  · have hw := decodedInstructionsAreRepresentable s s1 i hf
    obtain ⟨t, ht⟩ := exec_answers (fun _ => writable_of_wellFormed hw) s1
    exact ⟨t.dispatchCheck, by simp only [cycle, hf, ht]⟩

/-- Settles O11: what the decoder answers is representable, so that its destinations are writable. -/
theorem stepNeverStops : Obligations.StepNeverStops := by
  intro s
  unfold step
  split
  · exact cycle_answers s
  · exact ⟨s, rfl⟩

end Sys2Proof.Proofs

namespace Sys2Proof.Proofs

open Sys2Proof.Machine Sys2Proof.Claims

variable {s t : State} {z : Size} {c : Cause}

/-! ## The next state of DBG (R341) -/

/-- Settles O41: the locator is the one before the draw is counted, which moves no register. -/
theorem dbgWritesAFreshClockWord : Obligations.DbgWritesAFreshClockWord :=
  fun _ _ _ => ⟨⟨rfl, rfl⟩, fun hd => exec_dbg_next.2 ⟨hd, rfl⟩⟩

/-! ## The dispatch check (R370) -/

theorem takeInterrupt_of_mem (h : c ∈ s.platform.protectedCauses) :
    s.takeInterrupt c = { s with rsip := s.rip, pisr := true, rip := s.vec[c] } := by
  simp [State.takeInterrupt, (isProtected_iff s c).2 h]

theorem takeInterrupt_of_not_mem (h : c ∉ s.platform.protectedCauses) :
    s.takeInterrupt c = { s with rsip := s.rip, isr := true, rip := s.vec[c] } := by
  simp [State.takeInterrupt, Bool.eq_false_iff.2 (mt (isProtected_iff s c).1 h)]

/-- Settles O22: the head cause is taken out of the queue, and its class says which of the two flags is set. -/
theorem dispatchTakesTheHeadCause : Obligations.DispatchTakesTheHeadCause := by
  refine fun s => ⟨fun c rest hie hpisr hq hc => ?_, fun c rest hie hpisr hq hc => ?_, dispatchCheck_of_none⟩
  · rw [dispatchCheck_of_pending hie hpisr hq, takeInterrupt_of_mem (s := s.setQueue rest) hc]
    rfl
  · rw [dispatchCheck_of_pending hie hpisr hq, takeInterrupt_of_not_mem (s := s.setQueue rest) hc]
    rfl

/-! ## The reset state (R420) -/

/-- Settles O13: each field of the reset state by its definition, and each entry of the two tables as one of a constant. -/
theorem resetValuesAreThoseOfTheTable : Obligations.ResetValuesAreThoseOfTheTable :=
  ⟨rfl, rfl, fun _ => ⟨fun n => Vector.getElem_replicate n.isLt, rfl, rfl, rfl, rfl, rfl, rfl, rfl, rfl, rfl, rfl,
    fun c => Vector.getElem_replicate c.isLt, rfl, rfl, rfl, fun _ => rfl⟩⟩

/-! ## Reachable states (R421, R425) -/

/-- Sections that fit keep Memory's canonical form. -/
theorem loadSections_wf {size : Nat} {image : List Section} (hf : imageFits size image = true) {m : Memory}
    (hm : Memory.wf size m = true) : Memory.wf size (loadSections m image) = true := by
  induction image generalizing m with
  | nil => exact hm
  | cons e rest ih =>
    obtain ⟨a, bs⟩ := e
    simp only [imageFits, Bool.and_eq_true, decide_eq_true_eq] at hf
    exact ih hf.2 (memStore_wf hm hf.1)

theorem good_construct {p : Platform} {image : List Section} (h : State.construct p image = some s) : s.good = true := by
  simp only [State.construct, Option.ite_none_right_eq_some, Option.some.injEq, Bool.and_eq_true] at h
  obtain ⟨⟨hp, hf⟩, rfl⟩ := h
  exact (good_iff _).2 ⟨loadSections_wf hf rfl, hp⟩

/-- The Processor's turn is a step that goes on. -/
theorem turn_cycle_eq_some : turn .cycle s = some t ↔ step s = .next t := by
  rw [turn]
  cases step s <;> simp

theorem good_turn {τ : Turn} (hg : s.good = true) (h : turn τ s = some t) : t.good = true := by
  cases τ with
  | cycle => exact stepKeepsGoodState s t hg (turn_cycle_eq_some.1 h)
  | host m => exact hostMovesKeepGoodState m s t hg h

theorem good_turns {ts : List Turn} (hg : s.good = true) (h : turns ts s = some t) : t.good = true := by
  induction ts generalizing s with
  | nil => exact Option.some.inj h ▸ hg
  | cons τ ts ih =>
    rw [turns] at h
    split at h
    · next u hu => exact ih (good_turn hg hu) h
    · cases h

/-- Settles O17: construction gives a good state, and every turn keeps it so. -/
theorem reachableStatesAreGood : Obligations.ReachableStatesAreGood := by
  rintro s ⟨p, image, s0, ts, hc, ht⟩
  exact good_turns (good_construct hc) ht

end Sys2Proof.Proofs

namespace Sys2Proof.Proofs

open Sys2Proof.Machine Sys2Proof.Claims

variable {k : Nat}

/-! ## The map of the configuration device (R390 to R392) -/

theorem vecSlot_vector (c : Cause) : vecSlot (0x100 + c.val) = some c := by
  have hc := c.isLt
  rcases vecSlot_cases (0x100 + c.val) with ⟨_, e⟩ | ⟨h, _⟩
  · simpa using e
  · omega

theorem vecSlot_eq_none (h : (3 ≤ k ∧ k < 0x100) ∨ 0x1FF ≤ k) : vecSlot k = none :=
  ((vecSlot_cases k).resolve_left fun ⟨hin, _⟩ => by omega).2

theorem cfgRead_prot (s : State) : s.cfgRead 0 = (BitVec.ofNat 64 s.prot.toNat, s) := by
  rw [State.cfgRead, if_pos rfl, BitVec.ofNat_toNat]

theorem cfgRead_tick (s : State) : s.cfgRead 1 = (BitVec.ofNat 64 s.tick.toNat, s) := by
  rw [State.cfgRead, if_neg (by decide), if_pos rfl, BitVec.ofNat_toNat]

theorem cfgRead_cacheEn (s : State) : s.cfgRead 2 = ((if s.cacheEn = true then 1 else 0), s) := by
  rw [State.cfgRead, if_neg (by decide), if_neg (by decide), if_pos rfl]

theorem cfgRead_vector (s : State) (c : Cause) : s.cfgRead (0x100 + c.val) = (s.vec[c], s) := by
  rw [State.cfgRead, if_neg (by omega), if_neg (by omega), if_neg (by omega), vecSlot_vector]

theorem cfgRead_unmapped (s : State) (h : (3 ≤ k ∧ k < 0x100) ∨ 0x1FF ≤ k) : s.cfgRead k = (0, faulted s) := by
  rw [State.cfgRead, if_neg (by omega), if_neg (by omega), if_neg (by omega), vecSlot_eq_none h]
  rfl

theorem cfgWrite_vector (s : State) (c : Cause) (w : Word) : s.cfgWrite (0x100 + c.val) w = s.setVec c w := by
  rw [State.cfgWrite, if_neg (by omega), if_neg (by omega), if_neg (by omega), vecSlot_vector]

theorem cfgWrite_unmapped (s : State) (w : Word) (h : (3 ≤ k ∧ k < 0x100) ∨ 0x1FF ≤ k) : s.cfgWrite k w = faulted s := by
  rw [State.cfgWrite, if_neg (by omega), if_neg (by omega), if_neg (by omega), vecSlot_eq_none h]
  rfl

/-- The low byte of a word. -/
theorem setWidth_byte (w : Word) : w.setWidth 8 = BitVec.ofNat 8 (w.toNat % 256) :=
  BitVec.eq_of_toNat_eq (by simp)

theorem cfgWrite_prot (s : State) (w : Word) : s.cfgWrite 0 w = { s with prot := BitVec.ofNat 8 (w.toNat % 256) } := by
  rw [← setWidth_byte]
  rfl

theorem cfgWrite_tick {s : State} (hq : s.platform.cfgWriteQuirk = false) (w : Word) :
    s.cfgWrite 1 w = { s with tick := BitVec.ofNat 8 (w.toNat % 256) } := by
  rw [← setWidth_byte]
  simp [State.cfgWrite, hq, State.setTick]

theorem cfgWrite_cacheEn {s : State} (hq : s.platform.cfgWriteQuirk = false) (w : Word) :
    s.cfgWrite 2 w = { s with cacheEn := decide (w.toNat ≠ 0) } := by
  have hw : w ≠ 0 ↔ w.toNat ≠ 0 := not_congr (BitVec.toNat_inj (y := 0)).symm
  simp only [State.cfgWrite, hq, State.setCacheEn, ← hw]
  rfl

theorem cfgWrite_quirk {s : State} (hq : s.platform.cfgWriteQuirk = true) (w : Word) :
    s.cfgWrite 1 w = s ∧ s.cfgWrite 2 w = s := by
  simp [State.cfgWrite, hq]

/-- Settles O29: the three fields by their addresses, and past them the vectors and the two holes. -/
theorem configurationDeviceMap : Obligations.ConfigurationDeviceMap := by
  refine fun s w => ⟨cfgRead_prot s, cfgRead_tick s, cfgRead_cacheEn s, cfgRead_vector s, fun _ => cfgRead_unmapped s,
    cfgWrite_prot s w, fun hq => ⟨cfgWrite_tick hq w, cfgWrite_cacheEn hq w⟩, fun hq => cfgWrite_quirk hq w,
    fun c => ?_, fun _ => cfgWrite_unmapped s w⟩
  rw [cfgWrite_vector]
  refine ⟨Vector.getElem_set_self c.isLt, fun c' hc => ?_, rfl⟩
  exact Vector.getElem_set_ne c.isLt c'.isLt fun h => hc (Fin.ext h.symm)

end Sys2Proof.Proofs

namespace Sys2Proof.Proofs

open Sys2Proof.Machine Sys2Proof.Claims

variable {s t : State} {dst src len a n k dev dev' off so d : Nat} {ws : List Word} {m : Memory}

/-! ## When the host may access devices (R404) -/

theorem hostMayAccess_iff : s.hostMayAccess = true ↔ s.run = false ∨ s.paused = true := by
  simp [State.hostMayAccess]

theorem not_hostMayAccess (hrun : s.run = true) (hp : s.paused = false) : ¬s.hostMayAccess = true := by
  simp [hostMayAccess_iff, hrun, hp]

/-! ## Memory's block operations, in range and out of range (R67, R78) -/

theorem memMove_inRange (hs : src + len ≤ s.platform.memSize) (hd : dst + len ≤ s.platform.memSize) :
    s.memMove dst src len = s.setMem (memStore s.mem dst (memBytes s.mem src len)) :=
  ((memMove_cases s dst src len).resolve_right fun ⟨ho, _⟩ => by omega).2.2

theorem memMove_outOfRange (h : s.platform.memSize < src + len ∨ s.platform.memSize < dst + len) :
    s.memMove dst src len = faulted s := by
  rw [((memMove_cases s dst src len).resolve_left fun ⟨hs, hd, _⟩ => by omega).2, raise_hardwareFault]

/-- The bytes moved are those that were at the source before the store, so that an overlap does no harm. -/
theorem memBytes_memMove (hw : Memory.wf s.platform.memSize s.mem = true) (hs : src + len ≤ s.platform.memSize)
    (hd : dst + len ≤ s.platform.memSize) : memBytes (s.memMove dst src len).mem dst len = memBytes s.mem src len := by
  rw [memMove_inRange hs hd, setMem_mem]
  simpa only [memBytes_length] using memBytes_memStore hw (bs := memBytes s.mem src len) (by rwa [memBytes_length])

theorem memMove_outside (hw : Memory.wf s.platform.memSize s.mem = true) (hs : src + len ≤ s.platform.memSize)
    (hd : dst + len ≤ s.platform.memSize) {x : Nat} (hx : x < dst ∨ dst + len ≤ x) :
    memGet (s.memMove dst src len).mem x = memGet s.mem x := by
  rw [memMove_inRange hs hd, setMem_mem]
  exact memGet_memStore_outside hw (by rwa [memBytes_length]) (by rwa [memBytes_length])

theorem memBlockRead_inRange (h : a + 8 * n ≤ s.platform.memSize) : s.memBlockRead a n = (memWords s.mem a n, s) :=
  ((memBlockRead_cases s a n).resolve_right fun ho => Nat.not_lt.2 h ho.1).2

theorem memBlockRead_outOfRange (h : s.platform.memSize < a + 8 * n) :
    s.memBlockRead a n = (List.replicate n 0, faulted s) := by
  rw [((memBlockRead_cases s a n).resolve_left fun hi => Nat.not_le.2 h hi.1).2, raise_hardwareFault]

/-- A word of a block in range is the word that Memory's own read gives at its place. -/
theorem memWords_eq_memDevRead (h : a + 8 * n ≤ s.platform.memSize) (hk : k < (memWords s.mem a n).length) :
    (memWords s.mem a n)[k] = (s.memDevRead (a + 8 * k) 8).1 := by
  have hlt : k < n := by rwa [memWords_length] at hk
  rw [memWords_getElem, memDevRead_inRange (by omega)]

theorem memBlockWrite_inRange (h : a + 8 * ws.length ≤ s.platform.memSize) :
    s.memBlockWrite a ws = s.setMem (memStore s.mem a (blockBytes ws)) :=
  ((memBlockWrite_cases s a ws).resolve_right fun ho => Nat.not_lt.2 h ho.1).2

theorem memBlockWrite_outOfRange (h : s.platform.memSize < a + 8 * ws.length) : s.memBlockWrite a ws = faulted s := by
  rw [((memBlockWrite_cases s a ws).resolve_left fun hi => Nat.not_le.2 h hi.1).2, raise_hardwareFault]

/-- The eight bytes at a word's place are that word's. -/
theorem memBytes_memBlockWrite (hw : Memory.wf s.platform.memSize s.mem = true)
    (h : a + 8 * ws.length ≤ s.platform.memSize) (hk : k < ws.length) :
    memBytes (s.memBlockWrite a ws).mem (a + 8 * k) 8 = beBytes 8 ws[k].toNat := by
  have hall : memBytes (memStore s.mem a (blockBytes ws)) a (8 * ws.length) = blockBytes ws := by
    simpa only [blockBytes_length] using memBytes_memStore hw (bs := blockBytes ws) (by rwa [blockBytes_length])
  rw [memBlockWrite_inRange h, setMem_mem, ← memBytes_drop_take _ a (8 * ws.length) (8 * k) 8 (by omega), hall,
    blockBytes_word ws k hk]

theorem memDevRead_memBlockWrite (hw : Memory.wf s.platform.memSize s.mem = true)
    (h : a + 8 * ws.length ≤ s.platform.memSize) (hk : k < ws.length) :
    ((s.memBlockWrite a ws).memDevRead (a + 8 * k) 8).1 = ws[k] := by
  have hp : (s.memBlockWrite a ws).platform = s.platform := by rw [memBlockWrite_inRange h, setMem_platform]
  have hlt : ws[k].toNat < 256 ^ 8 := ws[k].isLt
  rw [memDevRead_inRange (by rw [hp]; omega), memBytes_memBlockWrite hw h hk, beNat_beBytes, Nat.mod_eq_of_lt hlt,
    BitVec.ofNat_toNat, BitVec.setWidth_eq]

theorem memBlockWrite_outside (hw : Memory.wf s.platform.memSize s.mem = true)
    (h : a + 8 * ws.length ≤ s.platform.memSize) {x : Nat} (hx : x < a ∨ a + 8 * ws.length ≤ x) :
    memGet (s.memBlockWrite a ws).mem x = memGet s.mem x := by
  rw [memBlockWrite_inRange h, setMem_mem]
  exact memGet_memStore_outside hw (by rwa [blockBytes_length]) (by rwa [blockBytes_length])

/-- A state that differs in Memory alone, in the words of the claims. -/
theorem eq_with_mem_of_eq_setMem (h : t = s.setMem m) : t = { s with mem := t.mem } := by
  subst h
  rfl

/-! ## Bulk operations on Memory and on another device (R78) -/

theorem isMemoryId_eq_false (h : registryFind dev s.platform.registry ≠ some .memory) : s.isMemoryId dev = false :=
  Bool.eq_false_iff.2 (mt (isMemoryId_iff s dev).1 h)

theorem busReadBulk_memory (h : registryFind dev s.platform.registry = some .memory) (off n : Nat) :
    s.busReadBulk dev off n = s.memBlockRead off n := by
  rw [State.busReadBulk, if_pos ((isMemoryId_iff s dev).2 h)]

theorem busWriteBulk_memory (h : registryFind dev s.platform.registry = some .memory) (off : Nat) (ws : List Word) :
    s.busWriteBulk dev off ws = s.memBlockWrite off ws := by
  rw [State.busWriteBulk, if_pos ((isMemoryId_iff s dev).2 h)]

theorem busCopyBulk_memory (h : registryFind dev s.platform.registry = some .memory)
    (h' : registryFind dev' s.platform.registry = some .memory) (so d n : Nat) :
    s.busCopyBulk dev so dev' d n = s.memMove d so (8 * n) := by
  rw [State.busCopyBulk, (isMemoryId_iff s dev).2 h, (isMemoryId_iff s dev').2 h']
  rfl

theorem busReadBulk_device (h : registryFind dev s.platform.registry ≠ some .memory) (off n : Nat) :
    s.busReadBulk dev off n = s.busReadWords dev off n := by
  simp [State.busReadBulk, isMemoryId_eq_false h]

theorem busWriteBulk_device (h : registryFind dev s.platform.registry ≠ some .memory) (off : Nat) (ws : List Word) :
    s.busWriteBulk dev off ws = s.busWriteWords dev off ws := by
  simp [State.busWriteBulk, isMemoryId_eq_false h]

theorem busCopyBulk_device (h : registryFind dev s.platform.registry ≠ some .memory) (dev' so d n : Nat) :
    s.busCopyBulk dev so dev' d n = s.busCopyWords dev so dev' d n := by
  simp [State.busCopyBulk, isMemoryId_eq_false h]

theorem busStride_device (h : registryFind dev s.platform.registry ≠ some .memory) : s.busStride dev = 1 := by
  simp [State.busStride, isMemoryId_eq_false h]

@[simp] theorem busRead_platform (s : State) (dev off : Nat) : (s.busRead dev off).2.platform = s.platform := by
  rcases busRead_state s dev off with e | e <;> rw [e]
  rfl

@[simp] theorem busWrite_platform (s : State) (dev off : Nat) (w : Word) :
    (s.busWrite dev off w).platform = s.platform := by
  obtain ⟨_, _, _, _, _, _, _, _, _, _, _, _, _, hp, _⟩ := (busWrite_effect s dev off w).frame
  exact hp

/-- A bulk Read of another device is a bus read and the bulk Read of the rest: no access changes what stands behind an id. -/
theorem busReadBulk_succ (h : registryFind dev s.platform.registry ≠ some .memory) (off n : Nat) :
    s.busReadBulk dev off (n + 1) = ((s.busRead dev off).1 :: ((s.busRead dev off).2.busReadBulk dev (off + 1) n).1,
      ((s.busRead dev off).2.busReadBulk dev (off + 1) n).2) := by
  rw [busReadBulk_device h, busReadBulk_device (by rwa [busRead_platform]), State.busReadWords]

theorem busWriteBulk_cons (h : registryFind dev s.platform.registry ≠ some .memory) (off : Nat) (w : Word)
    (ws : List Word) : s.busWriteBulk dev off (w :: ws) = (s.busWrite dev off w).busWriteBulk dev (off + 1) ws := by
  rw [busWriteBulk_device h, busWriteBulk_device (by rwa [busWrite_platform]), State.busWriteWords]

theorem busCopyBulk_succ (h : registryFind dev s.platform.registry ≠ some .memory)
    (h' : registryFind dev' s.platform.registry ≠ some .memory) (so d n : Nat) :
    s.busCopyBulk dev so dev' d (n + 1)
      = ((s.busRead dev so).2.busWrite dev' d (s.busRead dev so).1).busCopyBulk dev (so + 1) dev' (d + 1) n := by
  rw [busCopyBulk_device h, busCopyBulk_device (by rwa [busWrite_platform, busRead_platform]), State.busCopyWords,
    busStride_device h, busStride_device h']

/-! ## The moves (R400 to R404, R67, R78) -/

/-- Settles O25: each move by its precondition, the block operations on Memory by their ranges, and the bulk operations on
another device one word at a time. -/
theorem hostMovesDoWhatTheyName : Obligations.HostMovesDoWhatTheyName := by
  refine fun s => ⟨fun hp => if_pos hp, rfl, fun hp => if_pos hp, fun hp => if_neg (by simp [hp]), fun _ => rfl,
    fun h => ?_, fun hrun hp => ?_, fun dst src len hw => ⟨fun hs hd => ?_, memMove_outOfRange⟩, fun dev hdev => ?_,
    fun dev hdev => ?_⟩
  · have ha := hostMayAccess_iff.2 h
    exact ⟨fun _ _ => if_pos ha, fun _ _ _ => if_pos ha, fun _ _ _ => if_pos ha, fun _ _ _ => if_pos ha,
      fun _ _ _ _ _ => if_pos ha, fun _ _ _ => if_pos ha⟩
  · have ha := not_hostMayAccess hrun hp
    exact ⟨fun _ _ => if_neg ha, fun _ _ _ => if_neg ha, fun _ _ _ => if_neg ha, fun _ _ _ => if_neg ha,
      fun _ _ _ _ _ => if_neg ha, fun _ _ _ => if_neg ha⟩
  · exact ⟨memBytes_memMove hw hs hd, fun _ => memMove_outside hw hs hd, eq_with_mem_of_eq_setMem (memMove_inRange hs hd)⟩
  · refine ⟨fun dev' so d n hdev' => busCopyBulk_memory hdev hdev' so d n, fun off n => ?_, fun off ws hw => ?_⟩
    · rw [busReadBulk_memory hdev]
      refine ⟨fun hin => ?_, memBlockRead_outOfRange⟩
      rw [memBlockRead_inRange hin]
      exact ⟨rfl, memWords_length .., fun _ => memWords_eq_memDevRead hin⟩
    · rw [busWriteBulk_memory hdev]
      exact ⟨fun hin => ⟨fun _ => memDevRead_memBlockWrite hw hin, fun _ => memBlockWrite_outside hw hin,
        eq_with_mem_of_eq_setMem (memBlockWrite_inRange hin)⟩, memBlockWrite_outOfRange⟩
  · exact ⟨fun off => ⟨busReadBulk_device hdev off 0, busWriteBulk_device hdev off []⟩, busReadBulk_succ hdev,
      busWriteBulk_cons hdev, fun dev' so d hdev' => ⟨busCopyBulk_device hdev dev' so d 0, busCopyBulk_succ hdev hdev' so d⟩⟩

end Sys2Proof.Proofs
